-- ==== Sys2Proof/Config.lean ====
section
/-! DEFINITION. The parameters of the cache hierarchy controller that its source leaves open (R7), as a record of plain data
that every state carries, so that a claim over all states is a claim over all parameter values. -/

namespace Sys2Proof

/-! The constants the document fixes (R6) stand as numerals in the types of Word.lean and Machine/State.lean: `ADDR_W` 12,
`OFFSET_W` 2, `INDEX_W` 4, `TAG_W` 6, `VC_TAG_W` 10, `L1_LINES` 16, `VC_LINES` 4, `L2_SETS` 16, `L2_WAYS` 8, `MEM_WORDS` 4096.
What it leaves open is in `Config`. -/

/-- `INVALID_VICTIM_POLICY`: the valid flag an INVALID L1 line carries when a fill pushes it into VC (R7, R110; D4). -/
inductive InvalidVictimPolicy where
  | copyValid   -- it moves with the valid flag it has; the spec's default
  | forceValid  -- it becomes a valid VC line
  | skip        -- an invalid L1 line is not moved at all
deriving DecidableEq, Repr

/-- The parameters of R7 that are not initial contents. A width `none` is the spec's "unbounded (natural number)". -/
structure Config where
  /-- `DATA_W` (D1) -/
  dataW     : Nat
  /-- `RECENCY_W` (D2) -/
  recencyW  : Option Nat
  /-- `STAT_W` (D3) -/
  statW     : Option Nat
  /-- `INVALID_VICTIM_POLICY` (D4) -/
  policy    : InvalidVictimPolicy
  /-- `DEBUG_PORT`: whether the outcome record of R86 is produced (D7) -/
  debugPort : Bool
  /-- How many cycles beyond its first an FSM state that works on its own may take, at most: R213 says that there is a bound and
  R190 and R279 leave it open. The model's own parameter, log entry 13. -/
  maxStall  : Nat
deriving DecidableEq, Repr

/-- The defaults of R7: 32-bit words, unbounded counters, `copy_valid`, no debug port. `maxStall` 0 is DESIGN CHOICE, log
entry 13. -/
def Config.default : Config :=
  { dataW := 32, recencyW := none, statW := none, policy := .copyValid, debugPort := false, maxStall := 0 }

/-- The value `n` fits a counter of width `w`; every natural number fits an unbounded one (R117, R174). -/
def fitsWidth (w : Option Nat) (n : Nat) : Bool :=
  match w with
  | none => true
  | some b => decide (n < 2 ^ b)

end Sys2Proof
end

