-- ==== Sys2Proof/Word.lean ====
section
/-! DEFINITION. The bit patterns of the machine. Addresses, tags and indexes are bit vectors of fixed widths (R6, R10, R11). The
width of a data word is a parameter (R7; D1), and the block never computes on a data word (R11). -/

namespace Sys2Proof

/-- A data word: a pattern of `DATA_W` bits, as the unsigned number it stands for (R11, R76). That the number is below
`2 ^ DATA_W` is checked where a word enters (R76) and is an invariant of the stored state. DESIGN CHOICE, log entry 1. -/
abbrev Word := Nat

/-- The pattern has `DATA_W` bits. -/
def fitsWord (dataW : Nat) (d : Word) : Bool := decide (d < 2 ^ dataW)

/-- A request address, 12 bits (R74). -/
abbrev Addr := BitVec 12
/-- The tag of an address, of an L1 line and of an L2 line (R74, R77). -/
abbrev Tag := BitVec 6
/-- The index of an address: it names the L1 line and the L2 set (R74). -/
abbrev Index := BitVec 4
/-- The block offset of an address (R74). -/
abbrev Offset := BitVec 2
/-- The tag of a VC line, `tag` above `index` (R78, R79); it names a block. -/
abbrev VcTag := BitVec 10
/-- The request word for a `DATA_W`: 46 bits at the default 32 (R71). -/
abbrev ReqWord (dataW : Nat) := BitVec (14 + dataW)

end Sys2Proof
end

