-- ==== Sys2Proof/Syntax.lean ====
section
/-! DEFINITION. The two operations of the block, and the tuple in which the trace source delivers them. -/

namespace Sys2Proof

/-- The operations of spec/opcode_table.json: READ and WRITE, and nothing else (R2, R72). -/
inductive Instr where
  /-- READ(address), R130. A READ's data field is not an operand: it is ignored (R140). -/
  | read (addr : Addr)
  /-- WRITE(address, data), R160. -/
  | write (addr : Addr) (data : Word)
deriving DecidableEq, Repr

/-- One operation as the trace source supplies it: the 4-tuple `(is_read, is_write, address, data)`, the last two as
integers (R70). -/
structure TraceOp where
  isRead  : Bool
  isWrite : Bool
  address : Int
  data    : Int
deriving DecidableEq, Repr

/-- The pseudo-form `RD a`: the trace line `1,0,a,0` (R89). -/
def TraceOp.rd (a : Int) : TraceOp := { isRead := true, isWrite := false, address := a, data := 0 }

/-- The pseudo-form `WR a, d`: the trace line `0,1,a,d` (R89). -/
def TraceOp.wr (a d : Int) : TraceOp := { isRead := false, isWrite := true, address := a, data := d }

end Sys2Proof
end

