-- ==== Sys2Proof/WellFormed.lean ====
section
/-! DEFINITION. The requester's contract, for a `DATA_W`: which trace tuples are legal (R272), which operations are, and which
parameter values are (R7). That the tuple of a well-formed operation is legal is a lemma (`Sys2Proof.Laws.Contract`). -/

namespace Sys2Proof

/-- The flags are `(1,0)` or `(0,1)`; the other two combinations are reserved (R72, R73). -/
def TraceOp.legalOp (t : TraceOp) : Bool := t.isRead != t.isWrite

/-- The address lies in 0..4095 (R75). -/
def TraceOp.addressInRange (t : TraceOp) : Bool := decide (0 ≤ t.address ∧ t.address < 2 ^ 12)

/-- The data fits `DATA_W`-bit two's complement (R76). -/
def TraceOp.dataInRange (dataW : Nat) (t : TraceOp) : Bool :=
  decide (-(2 ^ (dataW - 1)) ≤ t.data ∧ t.data < 2 ^ (dataW - 1))

/-- The tuple is inside the requester's contract (R272). -/
def TraceOp.wf (dataW : Nat) (t : TraceOp) : Bool := t.legalOp && t.addressInRange && t.dataInRange dataW

/-- An operation is well-formed when its data has `DATA_W` bits (R76, R272); its address always has 12 (R75). -/
def Instr.wf (dataW : Nat) : Instr → Bool
  | .read _ => true
  | .write _ d => fitsWord dataW d

/-- A finite counter width is a positive integer (R7). -/
def positiveWidth (w : Option Nat) : Bool :=
  match w with
  | none => true
  | some b => decide (0 < b)

/-- The parameters are of the types R7 gives them: `DATA_W` is positive, each counter width is positive or unbounded. -/
def Config.wf (c : Config) : Bool := decide (0 < c.dataW) && positiveWidth c.recencyW && positiveWidth c.statW

end Sys2Proof
end

