-- ==== Sys2Proof/Decode.lean ====
section
/-! DEFINITION. The request word of R71, for any `DATA_W`, and its decoding (R72), total on every number; the packing of a trace tuple
into a request word (R70, R71, R75, R76); then the encoder, and the trace-line text of R88. -/

namespace Sys2Proof

/-- Why an input is no operation. Each is an input outside the requester's contract (R230, R272), not an event of the
hardware. -/
inductive DecodeError where
  /-- the flags are `(0,0)` or `(1,1)` (R73) -/
  | reservedOp
  /-- a trace address outside 0..4095 (R75) -/
  | addressOutOfRange
  /-- trace data outside `DATA_W`-bit two's complement (R76) -/
  | dataOutOfRange
  /-- a number that has more bits than a request word (R71) -/
  | notARequestWord
deriving DecidableEq, Repr

/-! ## The fields of a request word (R71) -/

/-- Bit 45 at `DATA_W` 32. -/
def reqIsRead {dataW : Nat} (w : ReqWord dataW) : Bool := w.getLsbD (13 + dataW)
/-- Bit 44 at `DATA_W` 32. -/
def reqIsWrite {dataW : Nat} (w : ReqWord dataW) : Bool := w.getLsbD (12 + dataW)
/-- Bits 43:32 at `DATA_W` 32, the address: tag 43:38, index 37:34, offset 33:32. -/
def reqAddr {dataW : Nat} (w : ReqWord dataW) : Addr := w.extractLsb' dataW 12
/-- Bits 31:0 at `DATA_W` 32. -/
def reqData {dataW : Nat} (w : ReqWord dataW) : Word := (w.extractLsb' 0 dataW).toNat

/-- `REQ`: the flags, the address and the data, in the tuple's order; for another `DATA_W` than 32 the data field is `DATA_W`
bits and the others move with it (R71). -/
def packReq (dataW : Nat) (isRead isWrite : Bool) (addr : Addr) (data : Word) : ReqWord dataW :=
  (BitVec.ofBool isRead ++ BitVec.ofBool isWrite ++ addr ++ BitVec.ofNat dataW data).cast (by omega)

/-! ## Decoding -/

/-- The operation a pair of flags selects (R72); the two combinations left over are reserved (R73). -/
def decodeFields (isRead isWrite : Bool) (addr : Addr) (data : Word) : Except DecodeError Instr :=
  match isRead, isWrite with
  | true,  false => .ok (.read addr)
  | false, true  => .ok (.write addr data)
  | false, false => .error .reservedOp
  | true,  true  => .error .reservedOp

/-- Decoding of a request word (R72, R73). There is one format and no mode bit (R90). -/
def decode (dataW : Nat) (w : ReqWord dataW) : Except DecodeError Instr :=
  decodeFields (reqIsRead w) (reqIsWrite w) (reqAddr w) (reqData w)

/-- Decoding of any number: a request word has `14 + DATA_W` bits (R71), a number with more is none. -/
def decodeNat (dataW w : Nat) : Except DecodeError Instr :=
  if w < 2 ^ (14 + dataW) then decode dataW (BitVec.ofNat (14 + dataW) w) else .error .notARequestWord

/-- The `DATA_W` bits of a number: all that a port or a line field of that width carries (R11). -/
def wordOf (dataW : Nat) (d : Nat) : Word := d % 2 ^ dataW

/-- What a recency field holds of a number: its `RECENCY_W` bits, all of it if the width is unbounded (R7, R25). -/
def recencyOf (recencyW : Option Nat) (n : Nat) : Nat :=
  match recencyW with
  | none => n
  | some b => n % 2 ^ b

/-- The data field of a trace integer: its two's-complement pattern, `d mod 2 ^ DATA_W` (R76). -/
def dataOfInt (dataW : Nat) (d : Int) : Word := (BitVec.ofInt dataW d).toNat

/-- The integer a data word stands for: two's complement with sign extension (R76). -/
def intOfData (dataW : Nat) (d : Word) : Int := (BitVec.ofNat dataW d).toInt

/-- The request word of a trace tuple (R70, R71): an address or data value that does not fit its field is refused, never
truncated (R75, R76). The order of the checks is DEDUCED, log entry 8. -/
def TraceOp.toReq (dataW : Nat) (t : TraceOp) : Except DecodeError (ReqWord dataW) :=
  if t.addressInRange then
    if t.dataInRange dataW then
      .ok (packReq dataW t.isRead t.isWrite (BitVec.ofInt 12 t.address) (dataOfInt dataW t.data))
    else .error .dataOutOfRange
  else .error .addressOutOfRange

/-- The operation a trace tuple stands for: packed into its request word, then decoded. -/
def decodeTrace (dataW : Nat) (t : TraceOp) : Except DecodeError Instr :=
  match t.toReq dataW with
  | .ok w => decode dataW w
  | .error e => .error e

/-- The operation read from a word of spec/opcode_table.json, which is laid out for `DATA_W` 32 and whose bit 0 is bit 0 of
`REQ`; bits at and above `nbits` are 0. -/
def decodeTableWord (nbits w : Nat) : Option Instr :=
  match decodeNat 32 (w % 2 ^ nbits) with
  | .ok i => some i
  | .error _ => none

/-! ## Encoding -/

/-- The request word of an operation (R71, R72); the ignored data field of a READ is written 0 (R89). -/
def encode (dataW : Nat) : Instr → ReqWord dataW
  | .read a => packReq dataW true false a 0
  | .write a d => packReq dataW false true a d

/-- An operation as the tuple the trace source would supply for it (R70, R76, R89). -/
def Instr.toTrace (dataW : Nat) : Instr → TraceOp
  | .read a => .rd (Int.ofNat a.toNat)
  | .write a d => .wr (Int.ofNat a.toNat) (intOfData dataW d)

/-! ## Text form -/

/-- A flag as the text form writes it (R88). -/
def flagText (b : Bool) : String := if b then "1" else "0"

/-- The trace line `<is_read>,<is_write>,<address>,<data>` in decimal (R88). -/
def TraceOp.line (t : TraceOp) : String :=
  flagText t.isRead ++ "," ++ flagText t.isWrite ++ "," ++ toString t.address ++ "," ++ toString t.data

end Sys2Proof
end

