-- ==== Sys2Proof/Machine/State.lean ====
section
/-! DEFINITION. The state of the machine, as plain data: the architectural tuple of R20, the hidden registers of the
refinement (R197), the parameters the block is built with (R7), and what stands on its request and response side. -/

namespace Sys2Proof.Machine

/-! ## Lines -/

/-- A line without a recency field: an L1 line at tag width 6 (R22, R77), a line on its way at tag width 6 or 10. -/
structure Line (w : Nat) where
  tag   : BitVec w
  data  : Word
  valid : Bool
deriving DecidableEq, Repr

/-- A line of a set that is replaced by recency: a VC line at tag width 10, an L2 line at tag width 6 (R21, R23, R24).
`recency` 0 is the most recently placed, larger is older (R25). -/
structure AgedLine (w : Nat) extends Line w where
  recency : Nat
deriving DecidableEq, Repr

abbrev L1Line := Line 6
abbrev VcLine := AgedLine 10
abbrev L2Line := AgedLine 6

/-- The victim cache, one set of four slots (R23). -/
abbrev VcSet := Vector VcLine 4
/-- One L2 set of eight ways (R24). -/
abbrev L2Set := Vector L2Line 8

/-! ## Counters and memory -/

/-- The six statistics counters, in the order of R27. -/
structure Stats where
  accL1  : Nat
  missL1 : Nat
  accVC  : Nat
  missVC : Nat
  accL2  : Nat
  missL2 : Nat
deriving DecidableEq, Repr

/-- The backing memory (R28, R50): pairs of a word address and the word there. The canonical form and what an unlisted
address reads as are in Machine/Ops.lean. -/
structure Memory where
  cells : List (Nat × Word)
deriving DecidableEq, Repr

/-- The complete architectural state, the tuple `(L1, VC, L2, stat, MEM)` of R20. -/
structure Arch where
  l1   : Vector L1Line 16
  vc   : VcSet
  l2   : Vector L2Set 16
  stat : Stats
  mem  : Memory
deriving DecidableEq, Repr

/-! ## Request and response -/

/-- The level that answered a READ, numbered as in R86. -/
inductive Level where
  | l1 | vc | l2 | mem
deriving DecidableEq, Repr

/-- The outcome record of R86 with its seventeenth flag `l2Evict`; fields that say nothing are 0 or false. A WRITE's level
is 0, the code of `l1` (R169). -/
structure OutcomeRecord where
  level     : Level
  wrL1      : Bool
  wrVC      : Bool
  wrL2      : Bool
  vcTouched : Bool
  vcSlot    : Fin 4
  vcEvict   : Bool
  l2Set     : Index
  l2Way     : Fin 8
  l2Evict   : Bool
deriving DecidableEq, Repr

/-- The record with every field 0. -/
def OutcomeRecord.blank : OutcomeRecord :=
  { level := .l1, wrL1 := false, wrVC := false, wrL2 := false, vcTouched := false, vcSlot := 0, vcEvict := false,
    l2Set := 0, l2Way := 0, l2Evict := false }

/-- The response to one access: the word, for a READ only (R83, R167), and the outcome record, if there is a debug port
(R86, R196). -/
structure Response where
  rdata   : Option Word
  outcome : Option OutcomeRecord
deriving DecidableEq, Repr

/-- `LINE_INIT`: tag, data and recency of every line after a reset, any values (R7, R34); the valid flags in it are not
used, since reset clears them (R32). -/
structure LineInit where
  l1 : Vector L1Line 16
  vc : VcSet
  l2 : Vector L2Set 16
deriving DecidableEq, Repr

/-- What the environment can put to the block at the transactional level: a request, as a number that should be a request
word (R71) or as a trace tuple (R70), or a reset, which happens only between accesses (R261, R264) and leaves the lines'
other fields at any values. -/
inductive Input where
  | word (w : Nat)
  | trace (t : TraceOp)
  | reset (lines : LineInit)
deriving DecidableEq, Repr

/-! ## Hidden registers of the refinement -/

/-- The states of the FSM (R198). -/
inductive FsmState where
  | idle | l1 | vc | l2 | memRd | fill | vcPl | l2Pl | wrUpd | memWr | resp
deriving DecidableEq, Repr

/-- The registers of R197, and the model's count of stalls. `dbg` exists in hardware only with a debug port; without one nothing shows it. -/
structure Fsm where
  state  : BitVec 4
  /-- The model's own: cycles the present state has taken beyond its first (R190, R213; log entry 13). -/
  stalled : Nat
  rRead  : Bool
  rWrite : Bool
  rAddr  : Addr
  rWdata : Word
  rData  : Word
  v1     : L1Line
  v2     : Line 10
  v2Real : Bool
  dbg    : OutcomeRecord
deriving DecidableEq, Repr

/-! ## Reasons to stop -/

/-- Architectural faults. There are none: the block raises no exception (R230), so the type has no constructor and no step
can fault. -/
inductive Fault where
deriving DecidableEq, Repr

/-- Inputs and runs to which the spec gives no meaning (R230). -/
inductive Refusal where
  /-- Raised by an arm of `exec` that has no meaning yet; none is left. Safe. -/
  | notModelled (mnemonic : String)
  /-- Raised by `step` for a request with flags (0,0) or (1,1) (R73). Safe: the machine stops where the hardware answers. -/
  | reservedOp
  /-- Raised by `step` for a number wider than the request word (R71; log entry 9). Safe: no such request can be offered. -/
  | notARequestWord
  /-- Raised by `step` for a trace address outside 0..4095 (R75). Safe: no such request can be offered. -/
  | addressOutOfRange
  /-- Raised by `step` for trace data that does not fit `DATA_W` bits (R76). Safe: no such request can be offered. -/
  | dataOutOfRange
  /-- Raised by READ when a finite `RECENCY_W` is exceeded (R117). Safe: the machine stops. -/
  | recencyOverflow
  /-- Raised by READ when a finite `STAT_W` is exceeded (R174). Safe: the machine stops. -/
  | statOverflow
deriving DecidableEq, Repr

/-! ## The state -/

/-- The whole machine. `arch` is all of the architecture (R20) and `fsm` the hidden registers of the refinement (R197).
`cfg`, `inbox` and `resp` are the model's own fields: the parameters the block is built with, which no step changes; what
the environment has queued, oldest first (R58, R70); and the response to the latest access (R83, R193). DESIGN CHOICE,
log entries 6 and 7. -/
structure State where
  arch  : Arch
  cfg   : Config
  fsm   : Fsm
  inbox : List Input
  resp  : Option Response
deriving DecidableEq, Repr

/-! ## Reset -/

def Stats.zero : Stats := { accL1 := 0, missL1 := 0, accVC := 0, missVC := 0, accL2 := 0, missL2 := 0 }

/-- A line with `valid = 0` (R32) and the other fields kept, the data field as wide as it is (R11). -/
def Line.invalid {w : Nat} (dataW : Nat) (l : Line w) : Line w := { l with data := wordOf dataW l.data, valid := false }

/-- As `Line.invalid`, for a line of a recency set: the recency field is as wide as it is, too (R25). -/
def AgedLine.invalid {w : Nat} (cfg : Config) (l : AgedLine w) : AgedLine w :=
  { toLine := l.toLine.invalid cfg.dataW, recency := recencyOf cfg.recencyW l.recency }

/-- The architectural state after reset (R260): every line invalid with its other fields from `LINE_INIT`, the counters 0,
and memory as it is given: `MEM_INIT` at the start of a run, unchanged by a later reset (R36). -/
def Arch.afterReset (cfg : Config) (lines : LineInit) (mem : Memory) : Arch :=
  { l1 := Vector.ofFn fun i => (lines.l1[i]).invalid cfg.dataW
    vc := Vector.ofFn fun j => (lines.vc[j]).invalid cfg
    l2 := Vector.ofFn fun s => Vector.ofFn fun w => (lines.l2[s][w]).invalid cfg
    stat := .zero
    mem := mem }

/-- The hidden registers at power-on: `S_IDLE` (R260). The others are irrelevant (R197); DESIGN CHOICE, log entry 4: 0. -/
def Fsm.powerOn : Fsm :=
  { state := 0, stalled := 0, rRead := false, rWrite := false, rAddr := 0, rWdata := 0, rData := 0
    v1 := { tag := 0, data := 0, valid := false }, v2 := { tag := 0, data := 0, valid := false }
    v2Real := false, dbg := .blank }

/-- The machine right after reset, for any parameters, any `LINE_INIT` and any `MEM_INIT` (R260, R262). -/
def State.resetWith (cfg : Config) (lines : LineInit) (mem : Memory) : State :=
  { arch := .afterReset cfg lines mem, cfg := cfg, fsm := .powerOn, inbox := [], resp := none }

/-- `LINE_INIT` all zero, the values a `force_valid` vector of the spec takes (D6). DESIGN CHOICE, log entry 3: unsafe. -/
def LineInit.zero : LineInit :=
  { l1 := Vector.replicate 16 { tag := 0, data := 0, valid := false }
    vc := Vector.replicate 4 { tag := 0, data := 0, valid := false, recency := 0 }
    l2 := Vector.replicate 16
      (Vector.replicate 8 { tag := 0, data := 0, valid := false, recency := 0 }) }

/-- The machine after reset at the defaults: the parameters of R7, `LINE_INIT` zero (log entry 3), and memory with nothing
listed (log entry 2). -/
def State.reset : State := State.resetWith .default .zero { cells := [] }

end Sys2Proof.Machine
end

