-- ==== Sys2Proof/Machine/Operands.lean ====
section
/-! DEFINITION. Operand assembly: the fields of an address (R74, R100), the re-encoding of a tag when a line changes its
store (R79, R80, R107, R108), and the scan "first k with P(k)" (R12). -/

namespace Sys2Proof.Machine

/-- `address[11:6]` (R74). -/
def addrTag (a : Addr) : Tag := a.extractLsb' 6 6
/-- `address[5:2]` (R74). -/
def addrIndex (a : Addr) : Index := a.extractLsb' 2 4
/-- `address[1:0]` (R74). -/
def addrOffset (a : Addr) : Offset := a.extractLsb' 0 2
/-- The address with the given fields, `tag` highest (R74). -/
def addrOf (t : Tag) (i : Index) (o : Offset) : Addr := (t ++ i ++ o).cast (by decide)

/-- `split(address)` (R100). -/
def split (a : Addr) : Tag × Index × Offset := (addrTag a, addrIndex a, addrOffset a)

/-- The key of a VC lookup and the tag of a VC line: bits [9:4] the tag, bits [3:0] the index, which is
`(tag << 4) | index` (R79, R100). -/
def vcKey (t : Tag) (i : Index) : VcTag := (t ++ i).cast (by decide)

/-- `vc_tag >> 4` (R80). -/
def vcTagTag (v : VcTag) : Tag := v.extractLsb' 4 6
/-- `vc_tag & 0xF` (R80). -/
def vcTagIndex (v : VcTag) : Index := v.extractLsb' 0 4

/-- The valid flag a line leaving L1 carries into VC, by `INVALID_VICTIM_POLICY` (R107, R134). -/
def validInVc (p : InvalidVictimPolicy) (valid : Bool) : Bool :=
  match p with
  | .copyValid => valid
  | .forceValid => true
  | .skip => valid

/-- `to_vc(line, index)`: a line leaving `L1[index]` as a VC line (R107). Its recency is set by `place`. -/
def toVc (p : InvalidVictimPolicy) (l : L1Line) (i : Index) : Line 10 :=
  { tag := vcKey l.tag i, data := l.data, valid := validInVc p l.valid }

/-- The line part of `from_vc(vline)`: the tag back in 6-bit form (R108). -/
def fromVc (v : Line 10) : L1Line :=
  { tag := vcTagTag v.tag, data := v.data, valid := v.valid }

/-- The set part of `from_vc(vline)` (R108). -/
def fromVcSet (v : Line 10) : Index := vcTagIndex v.tag

/-- `first k in 0..n-1 with P(k)`: the smallest such `k`, or none (R12). -/
def firstIdx (n : Nat) (p : Fin n → Bool) : Option (Fin n) := (List.finRange n).find? p

/-- `L1[i]` for an index field (R12). -/
def Arch.l1At (a : Arch) (i : Index) : L1Line := a.l1[i.toFin]

/-- `L2[s]` for an index field (R12). -/
def Arch.l2At (a : Arch) (s : Index) : L2Set := a.l2[s.toFin]

end Sys2Proof.Machine
end

