-- ==== Sys2Proof/Machine/Flags.lean ====
section
/-! DEFINITION. The block's only flags are its valid bits (R30) and its only status registers the six counters (R27): the
tag matcher, which reads the valid bits (R101 to R103), and the increments of the statistics counter (R171). -/

namespace Sys2Proof.Machine

/-! ## The tag matcher -/

/-- `L1[index].valid && L1[index].tag == tag` (R101). -/
def l1Match (a : Arch) (i : Index) (t : Tag) : Bool := (a.l1At i).valid && (a.l1At i).tag == t

/-- Bit `k` of the match vector of a set: a valid line with that tag; in VC the tag is the 10-bit key (R102, R103). -/
def setMatch {w n : Nat} (set : Vector (AgedLine w) n) (key : BitVec w) (k : Fin n) : Bool :=
  set[k].valid && set[k].tag == key

/-- The first matching slot or way, the lowest if several match (R102, R103, R147). -/
def firstMatch {w n : Nat} (set : Vector (AgedLine w) n) (key : BitVec w) : Option (Fin n) :=
  firstIdx n (setMatch set key)

/-- Some slot or way matches. -/
def anyMatch {w n : Nat} (set : Vector (AgedLine w) n) (key : BitVec w) : Bool := (firstMatch set key).isSome

/-- `vc_first(vc_key(tag, index))` (R102). -/
def vcFirst (a : Arch) (t : Tag) (i : Index) : Option (Fin 4) := firstMatch a.vc (vcKey t i)

/-- `l2_first(index, tag)` (R103). -/
def l2First (a : Arch) (i : Index) (t : Tag) : Option (Fin 8) := firstMatch (a.l2At i) t

/-! ## The statistics counter -/

/-- One counter plus 1; past the bound of a finite `STAT_W` it has no meaning (R174). -/
def countOne (cfg : Config) (n : Nat) : Except Refusal Nat :=
  if fitsWidth cfg.statW (n + 1) then .ok (n + 1) else .error .statOverflow

/-- A counter plus 1 if the probe failed, unchanged if it hit. -/
def countMiss (cfg : Config) (hit : Bool) (n : Nat) : Except Refusal Nat :=
  if hit then .ok n else countOne cfg n

/-- The counters of the L1 probe: `accL1` always, `missL1` if it fails (R131). -/
def Stats.probeL1 (cfg : Config) (hit : Bool) (st : Stats) : Except Refusal Stats := do
  let acc ← countOne cfg st.accL1
  let miss ← countMiss cfg hit st.missL1
  return { st with accL1 := acc, missL1 := miss }

/-- The counters of the VC probe (R133). -/
def Stats.probeVC (cfg : Config) (hit : Bool) (st : Stats) : Except Refusal Stats := do
  let acc ← countOne cfg st.accVC
  let miss ← countMiss cfg hit st.missVC
  return { st with accVC := acc, missVC := miss }

/-- The counters of the L2 probe (R135). -/
def Stats.probeL2 (cfg : Config) (hit : Bool) (st : Stats) : Except Refusal Stats := do
  let acc ← countOne cfg st.accL2
  let miss ← countMiss cfg hit st.missL2
  return { st with accL2 := acc, missL2 := miss }

/-- The counters in the order of R27 and R87. -/
def Stats.readout (st : Stats) : List Nat :=
  [st.accL1, st.missL1, st.accVC, st.missVC, st.accL2, st.missL2]

end Sys2Proof.Machine
end

