-- ==== Sys2Proof/Machine/Ops.lean ====
section
/-! DEFINITION. The shared operations: the backing memory (R50), the LRU replacement unit (R104 to R106), the swap of a VC
hit (R134), the fill (R137) and the eviction cascade (R109), the reset pin (R261), and the fetch of the next request.
There is no exception to take and none to return from (R235, R236), so no operation does either. -/

namespace Sys2Proof.Machine

/-! ## Memory -/

/-- What an address that is not listed reads as: `MEM_INIT[a] = 1000 + a`, the choice of the spec's vectors (D5), in `DATA_W`
bits. The source gives no contents. DESIGN CHOICE, log entry 2: unsafe. -/
def memUnlisted (dataW addr : Nat) : Word := (1000 + addr) % 2 ^ dataW

/-- The word listed for an address, if there is one. -/
def lookupCell (addr : Nat) : List (Nat × Word) → Option Word
  | [] => none
  | c :: rest => if c.1 = addr then some c.2 else lookupCell addr rest

/-- The list without an entry of that address. -/
def eraseCell (addr : Nat) : List (Nat × Word) → List (Nat × Word)
  | [] => []
  | c :: rest => if c.1 = addr then eraseCell addr rest else c :: eraseCell addr rest

/-- A rising list with an entry put in its place, over the old entry if there is one. -/
def insertCell (addr : Nat) (v : Word) : List (Nat × Word) → List (Nat × Word)
  | [] => [(addr, v)]
  | c :: rest =>
    if addr < c.1 then (addr, v) :: c :: rest
    else if addr = c.1 then (addr, v) :: rest
    else c :: insertCell addr v rest

/-- `MEM[addr]` (R50, R52). -/
def Memory.read (m : Memory) (dataW addr : Nat) : Word := (lookupCell addr m.cells).getD (memUnlisted dataW addr)

/-- `MEM[addr] <- v` (R50, R52); a value equal to what an unlisted address reads as is not listed. -/
def Memory.write (m : Memory) (dataW addr : Nat) (v : Word) : Memory :=
  if v = memUnlisted dataW addr then { cells := eraseCell addr m.cells } else { cells := insertCell addr v m.cells }

/-- The addresses rise strictly, from at least `lo`, inside 0..4095, every word has `DATA_W` bits, and no entry repeats what
an unlisted address reads as. -/
def cellsWf (dataW lo : Nat) : List (Nat × Word) → Bool
  | [] => true
  | c :: rest => decide (lo ≤ c.1) && decide (c.1 < 4096) && fitsWord dataW c.2 && c.2 != memUnlisted dataW c.1 &&
      cellsWf dataW (c.1 + 1) rest

/-- The canonical form of memory: two memories in it that read alike are equal. -/
def Memory.wf (dataW : Nat) (m : Memory) : Bool := cellsWf dataW 0 m.cells

/-- `MemRead(address, 1)`: the memory index is the full 12-bit address, offset included (R50, R138). -/
def Arch.memRead (a : Arch) (dataW : Nat) (addr : Addr) : Word := a.mem.read dataW addr.toNat

/-- `MemWrite(address, 1, data)` (R164). -/
def Arch.memWrite (a : Arch) (dataW : Nat) (addr : Addr) (d : Word) : Arch :=
  { a with mem := a.mem.write dataW addr.toNat d }

/-! ## Updates of the stores -/

/-- `L1[i] <- line`. -/
def Arch.setL1At (a : Arch) (i : Index) (l : L1Line) : Arch := { a with l1 := a.l1.set i.toFin l }

/-- The whole of VC. -/
def Arch.setVc (a : Arch) (v : VcSet) : Arch := { a with vc := v }

/-- `L2[s] <- set`. -/
def Arch.setL2At (a : Arch) (s : Index) (set : L2Set) : Arch := { a with l2 := a.l2.set s.toFin set }

/-- The counters. -/
def Arch.setStat (a : Arch) (st : Stats) : Arch := { a with stat := st }

/-! ## The LRU replacement unit -/

/-- The first invalid slot, if there is one (R104). -/
def freeSlot {w n : Nat} (set : Vector (AgedLine w) n) : Option (Fin n) := firstIdx n fun k => !set[k].valid

/-- One comparison of the scan for the oldest slot: strict, so the earlier slot wins a tie (R104). -/
def olderSlot {w n : Nat} (set : Vector (AgedLine w) n) (best k : Fin n) : Fin n :=
  if set[best].recency < set[k].recency then k else best

/-- The slot of greatest recency in an ascending scan: the lowest one of those tied (R104). -/
def oldestSlot {w n : Nat} (set : Vector (AgedLine w) (n + 1)) : Fin (n + 1) :=
  (List.finRange (n + 1)).foldl (olderSlot set) 0

/-- `select_slot(set)`: the slot to place into, and whether its present content is a real victim (R104). -/
def selectSlot {w n : Nat} (set : Vector (AgedLine w) (n + 1)) : Fin (n + 1) × Bool :=
  match freeSlot set with
  | some k => (k, false)
  | none => (oldestSlot set, true)

/-- A line one placement later: a valid one ages by one, an invalid one is not changed (R106). -/
def AgedLine.older {w : Nat} (l : AgedLine w) : AgedLine w := if l.valid then { l with recency := l.recency + 1 } else l

/-- `age(set)`: the recency of every valid line plus 1, invalid slots unchanged (R106); past the bound of a finite
`RECENCY_W` it has no meaning (R117). -/
def age {w n : Nat} (cfg : Config) (set : Vector (AgedLine w) n) : Except Refusal (Vector (AgedLine w) n) :=
  if ∀ k : Fin n, set[k].valid = true → fitsWidth cfg.recencyW (set[k].recency + 1) = true then
    .ok (Vector.ofFn fun k => (set[k]).older)
  else .error .recencyOverflow

/-- The set a placement ages: the line written, its slot with the recency it had. If the slot's old content was invalid that
is no recency at all (R35, R106), so it counts as 0. DEDUCED, log entry 5: it shows only in whether a finite `RECENCY_W` is
exceeded. -/
def writtenSet {w n : Nat} (set : Vector (AgedLine w) n) (slot : Fin n) (line : Line w) : Vector (AgedLine w) n :=
  set.set slot { toLine := line, recency := if set[slot].valid then set[slot].recency else 0 }

/-- `place(set, slot, line)`: the line is written, then the set ages, with the slot's new valid bit, then the slot's recency
becomes 0 (R105). -/
def place {w n : Nat} (cfg : Config) (set : Vector (AgedLine w) n) (slot : Fin n) (line : Line w) :
    Except Refusal (Vector (AgedLine w) n) := do
  let aged ← age cfg (writtenSet set slot line)
  return aged.set slot { toLine := line, recency := 0 }

/-! ## Moving lines -/

/-- The swap of a VC hit in slot `j` (R134): the VC line into `L1[i]`, re-tagged and valid; the old line of `L1[i]` into
`VC[j]`, re-tagged with the same index. -/
def vcSwap (cfg : Config) (i : Index) (j : Fin 4) (a : Arch) : Except Refusal Arch := do
  let vc ← place cfg a.vc j (toVc cfg.policy (a.l1At i) i)
  return (a.setL1At i { tag := vcTagTag a.vc[j].tag, data := a.vc[j].data, valid := true }).setVc vc

/-- The install of a fill: a fresh valid line in `L1[i]` (R137). -/
def fillL1 (t : Tag) (i : Index) (d : Word) (a : Arch) : Arch := a.setL1At i { tag := t, data := d, valid := true }

/-- What the VC half of a cascade leaves. -/
structure VcPlaced where
  arch   : Arch
  /-- the slot placed into -/
  slot   : Fin 4
  /-- its former content -/
  victim : Line 10
  /-- that content was a valid line -/
  real   : Bool

/-- The VC half of the cascade (R109, R205): the line leaving `L1[i]` is placed into VC. -/
def placeInVc (cfg : Config) (victim1 : L1Line) (i : Index) (a : Arch) : Except Refusal VcPlaced := do
  let choice := selectSlot (n := 3) a.vc
  let vc ← place cfg a.vc choice.1 (toVc cfg.policy victim1 i)
  return { arch := a.setVc vc, slot := choice.1, victim := a.vc[choice.1].toLine, real := choice.2 }

/-- What the L2 half of a cascade leaves. -/
structure L2Placed where
  arch : Arch
  /-- the set placed into -/
  set  : Index
  /-- the way placed into -/
  way  : Fin 8
  /-- its former content was a valid line, now discarded -/
  real : Bool

/-- The L2 half of the cascade (R109, R206): the line leaving VC is placed into the L2 set its tag names; a valid line it
displaces is discarded, with nothing written to memory (R142). -/
def placeInL2 (cfg : Config) (victim2 : Line 10) (a : Arch) : Except Refusal L2Placed := do
  let s := fromVcSet victim2
  let choice := selectSlot (n := 7) (a.l2At s)
  let set ← place cfg (a.l2At s) choice.1 (fromVc victim2)
  return { arch := a.setL2At s set, set := s, way := choice.1, real := choice.2 }

/-- The outcome record after a VC slot was written (R86, R148). -/
def OutcomeRecord.withVc (r : OutcomeRecord) (slot : Fin 4) (real : Bool) : OutcomeRecord :=
  { r with vcTouched := true, vcSlot := slot, vcEvict := real }

/-- The outcome record after an L2 placement (R86, R148). -/
def OutcomeRecord.withL2 (r : OutcomeRecord) (set : Index) (way : Fin 8) (real : Bool) : OutcomeRecord :=
  { r with l2Set := set, l2Way := way, l2Evict := real }

/-- An architectural state and the outcome record built so far. -/
structure Traced where
  arch   : Arch
  record : OutcomeRecord

/-- `cascade(victim1, index)` (R109): L1 victim into VC, and a valid VC line that displaces into L2. Under `skip` an invalid
victim is not moved. -/
def cascade (cfg : Config) (victim1 : L1Line) (i : Index) (x : Traced) : Except Refusal Traced :=
  if cfg.policy = .skip ∧ victim1.valid = false then .ok x
  else do
    let p ← placeInVc cfg victim1 i x.arch
    let r := x.record.withVc p.slot p.real
    if p.real then
      let q ← placeInL2 cfg p.victim p.arch
      return { arch := q.arch, record := r.withL2 q.set q.way q.real }
    else return { arch := p.arch, record := r }

/-- The common end of the L2-hit and memory-fallback paths (R137): the L1 line is captured, overwritten, and pushed into the
cascade. -/
def fillAndCascade (cfg : Config) (t : Tag) (i : Index) (d : Word) (x : Traced) : Except Refusal Traced :=
  cascade cfg (x.arch.l1At i) i { x with arch := fillL1 t i d x.arch }

/-- Every matching line of a set takes new data; nothing else of it changes (R162, R163). -/
def updateMatching {w n : Nat} (set : Vector (AgedLine w) n) (key : BitVec w) (d : Word) : Vector (AgedLine w) n :=
  Vector.ofFn fun k => if setMatch set key k then { set[k] with data := d } else set[k]

/-! ## Response, reset and fetch -/

/-- The response to an access (R83, R86): the outcome record goes out only through a debug port. -/
def mkResponse (cfg : Config) (rdata : Option Word) (r : OutcomeRecord) : Response :=
  { rdata := rdata, outcome := if cfg.debugPort then some r else none }

/-- A completed access: the new architectural state and the response. -/
def State.complete (s : State) (a : Arch) (rdata : Option Word) (r : OutcomeRecord) : State :=
  { s with arch := a, resp := some (mkResponse s.cfg rdata r) }

/-- The reset pin, asserted between accesses (R260, R261): the block takes its reset state, memory is not changed, and no
response is pending (DESIGN CHOICE, log entry 12). -/
def State.assertReset (lines : LineInit) (s : State) : State :=
  { s with arch := .afterReset s.cfg lines s.arch.mem, fsm := { s.fsm with state := 0, stalled := 0 }, resp := none }

/-- The refusal an undecodable input is answered with (R230). -/
def refusalOf : DecodeError → Refusal
  | .reservedOp => .reservedOp
  | .addressOutOfRange => .addressOutOfRange
  | .dataOutOfRange => .dataOutOfRange
  | .notARequestWord => .notARequestWord

/-- What a step finds at the head of the queue. -/
inductive Event where
  | quiet
  | access (i : Instr)
  | reset (lines : LineInit)
  | refuse (r : Refusal)
deriving DecidableEq, Repr

/-- The event of a decoded request. -/
def eventOf (r : Except DecodeError Instr) : Event :=
  match r with
  | .ok i => .access i
  | .error e => .refuse (refusalOf e)

/-- The event the oldest queued input stands for (R58, R70). -/
def fetchEvent (s : State) : Event :=
  match s.inbox with
  | [] => .quiet
  | .word w :: _ => eventOf (decodeNat s.cfg.dataW w)
  | .trace t :: _ => eventOf (decodeTrace s.cfg.dataW t)
  | .reset lines :: _ => .reset lines

/-- The state once the oldest queued input has been taken. -/
def State.popInput (s : State) : State := { s with inbox := s.inbox.tail }

end Sys2Proof.Machine
end

