-- ==== Sys2Proof/Machine/Read.lean ====
section
/-! DEFINITION. The READ operation (R130 to R148): the search L1, VC, L2, memory, stopping at the first hit. Each level's
part starts where the level before it missed. -/

namespace Sys2Proof.Machine

/-- What a READ leaves: the architectural state, the word it returns (R139) and its outcome record (R148). -/
structure ReadDone where
  arch   : Arch
  word   : Word
  record : OutcomeRecord

/-- The fill with a word found in L2 or in memory, and the cascade it starts (R137); the word is the result (R139). -/
def finishFill (cfg : Config) (addr : Addr) (level : Level) (d : Word) (a : Arch) : Except Refusal ReadDone := do
  let x ← fillAndCascade cfg (addrTag addr) (addrIndex addr) d
    { arch := a, record := { OutcomeRecord.blank with level := level } }
  return { arch := x.arch, word := d, record := x.record }

/-- The L2 probe, after a VC miss (R135): a hit fills from the way, which is itself left as it is (R136, R141); a miss fills
from memory at the full address (R138). -/
def searchL2 (cfg : Config) (addr : Addr) (a : Arch) : Except Refusal ReadDone := do
  let hit := l2First a (addrIndex addr) (addrTag addr)
  let st ← a.stat.probeL2 cfg hit.isSome
  match hit with
  | some w => finishFill cfg addr .l2 (a.l2At (addrIndex addr))[w].data (a.setStat st)
  | none => finishFill cfg addr .mem (a.memRead cfg.dataW addr) (a.setStat st)

/-- The VC probe, after an L1 miss (R133): a hit swaps the line with `L1[index]` (R134); a miss goes on to L2. -/
def searchVC (cfg : Config) (addr : Addr) (a : Arch) : Except Refusal ReadDone := do
  let hit := vcFirst a (addrTag addr) (addrIndex addr)
  let st ← a.stat.probeVC cfg hit.isSome
  match hit with
  | some j =>
    let b ← vcSwap cfg (addrIndex addr) j (a.setStat st)
    return { arch := b, word := a.vc[j].data, record := { OutcomeRecord.blank with level := .vc }.withVc j false }
  | none => searchL2 cfg addr (a.setStat st)

/-- The L1 probe (R131): a hit moves nothing (R132); a miss goes on to VC. -/
def searchL1 (cfg : Config) (addr : Addr) (a : Arch) : Except Refusal ReadDone := do
  let hit := l1Match a (addrIndex addr) (addrTag addr)
  let st ← a.stat.probeL1 cfg hit
  if hit then
    return { arch := a.setStat st, word := (a.l1At (addrIndex addr)).data, record := OutcomeRecord.blank }
  else searchVC cfg addr (a.setStat st)

/-- READ(address) (R130). -/
def execRead (addr : Addr) (s : State) : Host.Outcome State Fault Refusal :=
  match searchL1 s.cfg addr s.arch with
  | .ok d => .next (s.complete d.arch (some d.word) d.record)
  | .error r => .refused r

end Sys2Proof.Machine
end

