-- ==== Sys2Proof/Machine/Write.lean ====
section
/-! DEFINITION. The WRITE operation (R160 to R169): every cached copy and the memory word take the data; nothing else
changes. -/

namespace Sys2Proof.Machine

/-- The L1 update (R161). -/
def writeL1 (i : Index) (t : Tag) (d : Word) (a : Arch) : Arch :=
  if l1Match a i t then a.setL1At i { a.l1At i with data := d } else a

/-- The VC update (R162). -/
def writeVC (i : Index) (t : Tag) (d : Word) (a : Arch) : Arch := a.setVc (updateMatching a.vc (vcKey t i) d)

/-- The L2 update (R163). -/
def writeL2 (i : Index) (t : Tag) (d : Word) (a : Arch) : Arch := a.setL2At i (updateMatching (a.l2At i) t d)

/-- The updates of every level, none conditional on another (R160, R166). -/
def writeCaches (addr : Addr) (d : Word) (a : Arch) : Arch :=
  writeL2 (addrIndex addr) (addrTag addr) d (writeVC (addrIndex addr) (addrTag addr) d
    (writeL1 (addrIndex addr) (addrTag addr) d a))

/-- The outcome record of a WRITE: which levels held the block (R169). -/
def writeRecord (addr : Addr) (a : Arch) : OutcomeRecord :=
  { OutcomeRecord.blank with
    wrL1 := l1Match a (addrIndex addr) (addrTag addr)
    wrVC := (vcFirst a (addrTag addr) (addrIndex addr)).isSome
    wrL2 := (l2First a (addrIndex addr) (addrTag addr)).isSome }

/-- WRITE(address, data) (R160, R168): the caches, then the memory word at the full address (R164); the response carries no
word (R167). -/
def execWrite (addr : Addr) (d : Word) (s : State) : Host.Outcome State Fault Refusal :=
  .next (s.complete ((writeCaches addr d s.arch).memWrite s.cfg.dataW addr d) none (writeRecord addr s.arch))

end Sys2Proof.Machine
end

