-- ==== Sys2Proof/Machine/Fsm.lean ====
section
/-! DEFINITION. The multi-cycle refinement (R190 to R215): the ports, the eviction cascade FSM and one rising clock edge of
it, over the same state as the transactional operations and through the same shared operations. The number of cycles an
access takes is open (R190, R279): the memory states wait for `mem_ready`, the other working states for `stall` to end. -/

namespace Sys2Proof.Machine

/-! ## State codes (R198) -/

/-- The 4-bit code of an FSM state (R198). -/
def FsmState.code : FsmState → BitVec 4
  | .idle => 0 | .l1 => 1 | .vc => 2 | .l2 => 3 | .memRd => 4 | .fill => 5
  | .vcPl => 6 | .l2Pl => 7 | .wrUpd => 8 | .memWr => 9 | .resp => 10

/-- The FSM state a code stands for; the unused codes 11 to 15 behave as `S_IDLE` (R198). -/
def FsmState.ofCode (c : BitVec 4) : FsmState :=
  match c.toNat with
  | 1 => .l1 | 2 => .vc | 3 => .l2 | 4 => .memRd | 5 => .fill
  | 6 => .vcPl | 7 => .l2Pl | 8 => .wrUpd | 9 => .memWr | 10 => .resp
  | _ => .idle

/-- The FSM state a machine is in. -/
def State.fsmState (s : State) : FsmState := FsmState.ofCode s.fsm.state

/-- No access is in progress: the architectural state is observable (R190) and a request can be accepted (R199). -/
def State.isIdle (s : State) : Bool := s.fsmState == .idle

/-! ## Ports -/

/-- The input ports at a rising edge (R191, R192, R194). `mem_rdata` is not among them: it is `MEM[mem_addr]`, and memory
is state (R194, R28). The last three fields are no ports: they choose what the spec leaves open. `stall` asks for one more cycle
in a working state, up to the bound of R213 (R190, R279), `wrLands` whether a memory write cut off by reset is performed (R264), and `lines` what the
lines' fields hold after a reset (R34). DESIGN CHOICE, log entry 13. -/
structure Pins where
  rst      : Bool
  reqValid : Bool
  reqRead  : Bool
  reqWrite : Bool
  reqAddr  : Addr
  reqWdata : Word
  memReady : Bool
  stall    : Bool
  wrLands  : Bool
  lines    : LineInit
deriving DecidableEq, Repr

/-- What `req_wdata` carries: it is `DATA_W` wires (R192). -/
def Pins.wdata (dataW : Nat) (p : Pins) : Word := wordOf dataW p.reqWdata

/-- The memory access the memory port asks for (R194): absent when `mem_valid = 0`. -/
inductive MemRequest where
  | read (addr : Addr)
  | write (addr : Addr) (data : Word)
deriving DecidableEq, Repr

/-- The output ports. An absent value is one the spec tells nobody to use: the response outside `S_RESP` (R193), its word
for anything but a READ (R193), the statistics while an access is in progress (R195, R173). DESIGN CHOICE, log entry 10.
The response is driven in `S_RESP` with `rst = 1` too, as R193 and R209 have it, though R214 gives an abandoned access no
response: DESIGN CHOICE, log entry 16. -/
structure Outputs where
  reqReady : Bool
  resp     : Option Response
  mem      : Option MemRequest
  stat     : Option Stats
deriving DecidableEq, Repr

/-- The word of the response in `S_RESP`: `r_data` for a READ (R193, R209), for anything else not to be used. -/
def Fsm.respWord (f : Fsm) : Option Word := if f.rRead && !f.rWrite then some f.rData else none

/-- The response driven in `S_RESP` (R209, R196). -/
def State.fsmResponse (s : State) : Response := mkResponse s.cfg s.fsm.respWord s.fsm.dbg

/-- What the output ports drive, given the reset pin (R192 to R196, R203, R208, R209). -/
def State.outputs (rst : Bool) (s : State) : Outputs :=
  { reqReady := s.isIdle && !rst
    resp := if s.fsmState = .resp then some s.fsmResponse else none
    mem := match s.fsmState with
      | .memRd => some (.read s.fsm.rAddr)
      | .memWr => some (.write s.fsm.rAddr s.fsm.rWdata)
      | _ => none
    stat := if s.isIdle && !rst then some s.arch.stat else none }

/-! ## One edge, state by state -/

/-- The registers with a next state, in its first cycle. -/
def Fsm.goTo (f : Fsm) (q : FsmState) : Fsm := { f with state := q.code, stalled := 0 }

/-- The machine with new hidden registers. -/
def State.setFsm (s : State) (f : Fsm) : State := { s with fsm := f }

/-- The machine with a new architectural state. -/
def State.setArch (s : State) (a : Arch) : State := { s with arch := a }

/-- `r_tag` (R197). -/
def Fsm.rTag (f : Fsm) : Tag := addrTag f.rAddr
/-- `r_index` (R197). -/
def Fsm.rIndex (f : Fsm) : Index := addrIndex f.rAddr

/-- The state after `S_IDLE` for a pair of flags; a reserved pair goes straight to the response (R199). -/
def afterIdle (isRead isWrite : Bool) : FsmState :=
  match isRead, isWrite with
  | true, false => .l1
  | false, true => .wrUpd
  | false, false => .resp
  | true, true => .resp

/-- `S_IDLE`: accept an offered request and start a blank outcome record, else stay (R199). A reserved request, to which R86
gives no fields, is answered with that blank record: DESIGN CHOICE, log entry 17. -/
def edgeIdle (p : Pins) (s : State) : State :=
  if p.reqValid then
    s.setFsm ({ s.fsm with
      rRead := p.reqRead, rWrite := p.reqWrite, rAddr := p.reqAddr, rWdata := p.wdata s.cfg.dataW
      dbg := .blank }.goTo (afterIdle p.reqRead p.reqWrite))
  else s

/-- `S_L1` (R200). -/
def edgeL1 (s : State) : Except Refusal State := do
  let f := s.fsm
  let hit := l1Match s.arch f.rIndex f.rTag
  let st ← s.arch.stat.probeL1 s.cfg hit
  let f' := if hit then { f with rData := (s.arch.l1At f.rIndex).data }.goTo .resp else f.goTo .vc
  return (s.setArch (s.arch.setStat st)).setFsm f'

/-- `S_VC`: the probe, and the swap on a hit (R201). -/
def edgeVC (s : State) : Except Refusal State := do
  let f := s.fsm
  let hit := vcFirst s.arch f.rTag f.rIndex
  let st ← s.arch.stat.probeVC s.cfg hit.isSome
  match hit with
  | some j =>
    let b ← vcSwap s.cfg f.rIndex j (s.arch.setStat st)
    let f' := { f with rData := s.arch.vc[j].data, dbg := { f.dbg with level := .vc }.withVc j false }
    return (s.setArch b).setFsm (f'.goTo .resp)
  | none => return (s.setArch (s.arch.setStat st)).setFsm (f.goTo .l2)

/-- `S_L2` (R202). -/
def edgeL2 (s : State) : Except Refusal State := do
  let f := s.fsm
  let hit := l2First s.arch f.rIndex f.rTag
  let st ← s.arch.stat.probeL2 s.cfg hit.isSome
  let f' := match hit with
    | some w => { f with rData := (s.arch.l2At f.rIndex)[w].data, dbg := { f.dbg with level := .l2 } }.goTo .fill
    | none => { f with dbg := { f.dbg with level := .mem } }.goTo .memRd
  return (s.setArch (s.arch.setStat st)).setFsm f'

/-- `S_MEMRD`: wait for the memory, then take its word (R203). -/
def edgeMemRd (p : Pins) (s : State) : State :=
  if p.memReady then s.setFsm ({ s.fsm with rData := s.arch.memRead s.cfg.dataW s.fsm.rAddr }.goTo .fill) else s

/-- `S_FILL`: capture the L1 victim and install the new line; under `skip` an invalid victim ends the access (R204). -/
def edgeFill (s : State) : State :=
  let f := s.fsm
  let victim := s.arch.l1At f.rIndex
  let q := if s.cfg.policy = .skip ∧ victim.valid = false then FsmState.resp else FsmState.vcPl
  (s.setArch (fillL1 f.rTag f.rIndex f.rData s.arch)).setFsm ({ f with v1 := victim }.goTo q)

/-- `S_VCPL`: the VC placement of the L1 victim (R205). -/
def edgeVcPl (s : State) : Except Refusal State := do
  let f := s.fsm
  let p ← placeInVc s.cfg f.v1 f.rIndex s.arch
  let f' := { f with v2 := p.victim, v2Real := p.real, dbg := f.dbg.withVc p.slot p.real }
  return (s.setArch p.arch).setFsm (f'.goTo (if p.real then .l2Pl else .resp))

/-- `S_L2PL`: the L2 placement of the VC victim (R206). -/
def edgeL2Pl (s : State) : Except Refusal State := do
  let f := s.fsm
  let q ← placeInL2 s.cfg f.v2 s.arch
  return (s.setArch q.arch).setFsm ({ f with dbg := f.dbg.withL2 q.set q.way q.real }.goTo .resp)

/-- `S_WRUPD`: every matching line takes the data (R207). -/
def edgeWrUpd (s : State) : State :=
  let f := s.fsm
  let r := writeRecord f.rAddr s.arch
  let dbg := { f.dbg with wrL1 := r.wrL1, wrVC := r.wrVC, wrL2 := r.wrL2 }
  (s.setArch (writeCaches f.rAddr f.rWdata s.arch)).setFsm ({ f with dbg := dbg }.goTo .memWr)

/-- `S_MEMWR`: wait for the memory, which then holds the data (R208). -/
def edgeMemWr (p : Pins) (s : State) : State :=
  if p.memReady then
    (s.setArch (s.arch.memWrite s.cfg.dataW s.fsm.rAddr s.fsm.rWdata)).setFsm (s.fsm.goTo .resp)
  else s

/-- `S_RESP`: the response is given, and the FSM returns to `S_IDLE` (R209). -/
def edgeResp (s : State) : State :=
  { s with resp := some s.fsmResponse, fsm := s.fsm.goTo .idle }

/-- An edge with `rst = 1` (R191, R214): the reset state; the access in progress is abandoned without a response; a memory
write not yet completed is performed or not, as the environment has it (R264). -/
def edgeReset (p : Pins) (s : State) : State :=
  let cut := s.fsmState = .memWr ∧ p.wrLands = true
  let a := if cut then s.arch.memWrite s.cfg.dataW s.fsm.rAddr s.fsm.rWdata else s.arch
  (s.setArch a).assertReset p.lines

/-- The outcome of an edge that can meet a counter bound. -/
def outcomeOf (r : Except Refusal State) : Host.Outcome State Fault Refusal :=
  match r with
  | .ok s => .next s
  | .error e => .refused e

/-- The states that may take further cycles on their own (R190, R279): not `S_IDLE`, nor the memory states, which wait for
the memory (R203, R208), nor `S_RESP`, which is one cycle (R193, R209). -/
def FsmState.canStall : FsmState → Bool
  | .l1 | .vc | .l2 | .fill | .vcPl | .l2Pl | .wrUpd => true
  | .idle | .memRd | .memWr | .resp => false

/-- The state stays for one more cycle: the environment asks for it and the bound is not reached (R190, R213). -/
def State.stays (p : Pins) (s : State) : Bool :=
  p.stall && s.fsmState.canStall && decide (s.fsm.stalled < s.cfg.maxStall)

/-- One rising edge of `clk` (R190, R191, R199 to R209). -/
def clock (p : Pins) (s : State) : Host.Outcome State Fault Refusal :=
  if p.rst then .next (edgeReset p s)
  else if s.stays p then .next (s.setFsm { s.fsm with stalled := s.fsm.stalled + 1 })
  else match s.fsmState with
    | .idle => .next (edgeIdle p s)
    | .l1 => outcomeOf (edgeL1 s)
    | .vc => outcomeOf (edgeVC s)
    | .l2 => outcomeOf (edgeL2 s)
    | .memRd => .next (edgeMemRd p s)
    | .fill => .next (edgeFill s)
    | .vcPl => outcomeOf (edgeVcPl s)
    | .l2Pl => outcomeOf (edgeL2Pl s)
    | .wrUpd => .next (edgeWrUpd s)
    | .memWr => .next (edgeMemWr p s)
    | .resp => .next (edgeResp s)

/-! ## Whole accesses -/

/-- The pins with no reset and no request, and the memory answering. -/
def Pins.answering : Pins :=
  { rst := false, reqValid := false, reqRead := false, reqWrite := false, reqAddr := 0, reqWdata := 0, memReady := true
    stall := false, wrLands := false, lines := .zero }

/-- The pins of the edge at which an operation is accepted: its fields are those of its request word (R192). -/
def Pins.offering (dataW : Nat) (i : Instr) : Pins :=
  { Pins.answering with
    reqValid := true
    reqRead := Sys2Proof.reqIsRead (encode dataW i), reqWrite := Sys2Proof.reqIsWrite (encode dataW i)
    reqAddr := Sys2Proof.reqAddr (encode dataW i), reqWdata := Sys2Proof.reqData (encode dataW i) }

/-- One pass of the FSM: edges from the given pins until the first that leaves it in `S_IDLE`, or a refusal; `none` if the
pins end while the access is still in progress. -/
def runToIdle : List Pins → State → Option (Host.Outcome State Fault Refusal)
  | [], _ => none
  | p :: ps, s =>
    match clock p s with
    | .next t => if t.isIdle then some (.next t) else runToIdle ps t
    | .fault r => some (.fault r)
    | .refused r => some (.refused r)

/-- What is seen at the edges of such a pass: at each, the input pins and what the outputs drive. -/
def passTrace : List Pins → State → List (Pins × Outputs)
  | [], _ => []
  | p :: ps, s =>
    (p, s.outputs p.rst) ::
      match clock p s with
      | .next t => if t.isIdle then [] else passTrace ps t
      | .fault _ => []
      | .refused _ => []

/-- The memory accesses of a pass: each completes at the edge where it is asked for and the memory answers (R194). -/
def memAccesses (tr : List (Pins × Outputs)) : List MemRequest :=
  tr.filterMap fun x => if x.1.memReady then x.2.mem else none

/-- The responses given in a pass, one for each cycle of `resp_valid` (R193). -/
def responses (tr : List (Pins × Outputs)) : List Response := tr.filterMap fun x => x.2.resp

end Sys2Proof.Machine
end

