-- ==== Sys2Proof/Machine/Step.lean ====
section
/-! DEFINITION. One step: between accesses, the oldest queued input is taken and has its whole effect at once (R8, R58);
with nothing queued the block waits with all state retained (R243). A pass of the FSM that `clock` has begun is carried on
by one edge, with the memory answering. DESIGN CHOICE, log entry 11. -/

namespace Sys2Proof.Machine

/-- A step between accesses. -/
def stepIdle (s : State) : Host.Outcome State Fault Refusal :=
  match fetchEvent s with
  | .quiet => .next s
  | .access i => exec i s.popInput
  | .reset lines => .next (s.popInput.assertReset lines)
  | .refuse r => .refused r

/-- One step of the machine. -/
def step (s : State) : Host.Outcome State Fault Refusal :=
  if s.isIdle then stepIdle s else clock Pins.answering s

/-- The state with a word of the operation table as the next request: at the head of the queue, and no access in
progress. The word is taken in the machine's own layout, which at the default `DATA_W` is the table's (R71). -/
def State.withFetchWord (s : State) (nbits w : Nat) : State :=
  { s with
    inbox := .word (w % 2 ^ nbits) :: s.inbox
    fsm := if s.isIdle then s.fsm else s.fsm.goTo .idle }

end Sys2Proof.Machine
end

