-- ==== Sys2Proof/Machine/Formats.lean ====
section
/-! DEFINITION. The packings the spec gives for dumps and ports: stored lines (R77, R78), the outcome record (R86). No
operation depends on one. -/

namespace Sys2Proof.Machine

/-- An L1 line packed: valid, tag, data; 39 bits at the default `DATA_W` (R77). -/
def packL1 (dataW : Nat) (l : L1Line) : BitVec (7 + dataW) :=
  (BitVec.ofBool l.valid ++ l.tag ++ BitVec.ofNat dataW l.data).cast (by omega)

/-- The L1 line such a word holds (R77). -/
def unpackL1 (dataW : Nat) (b : BitVec (7 + dataW)) : L1Line :=
  { valid := b.getLsbD (6 + dataW), tag := b.extractLsb' dataW 6, data := (b.extractLsb' 0 dataW).toNat }

/-- An L2 line, or at tag width 10 a VC line, for a finite `RECENCY_W = r`: valid, recency, tag, data (R77, R78). -/
def packAged {w : Nat} (dataW r : Nat) (l : AgedLine w) : BitVec (1 + r + w + dataW) :=
  BitVec.ofBool l.valid ++ BitVec.ofNat r l.recency ++ l.tag ++ BitVec.ofNat dataW l.data

/-- The line such a word holds (R77, R78). -/
def unpackAged {w : Nat} (dataW r : Nat) (b : BitVec (1 + r + w + dataW)) : AgedLine w :=
  { valid := b.getLsbD (r + w + dataW), recency := (b.extractLsb' (w + dataW) r).toNat
    tag := b.extractLsb' dataW w, data := (b.extractLsb' 0 dataW).toNat }

/-- The code of the level that answered (R86). -/
def Level.code : Level → BitVec 2
  | .l1 => 0 | .vc => 1 | .l2 => 2 | .mem => 3

/-- The 16 bits of the outcome record: level, L2/VC/L1 written, VC touched, VC slot, VC eviction, L2 set, L2 way (R86). -/
def OutcomeRecord.pack (r : OutcomeRecord) : BitVec 16 :=
  (r.level.code ++ BitVec.ofBool r.wrL2 ++ BitVec.ofBool r.wrVC ++ BitVec.ofBool r.wrL1 ++ BitVec.ofBool r.vcTouched
    ++ BitVec.ofFin (w := 2) r.vcSlot ++ BitVec.ofBool r.vcEvict ++ r.l2Set ++ BitVec.ofFin (w := 3) r.l2Way).cast (by decide)

/-- The debug port beside a response (R196): the 16 bits and the flag `l2_evict`. -/
def Response.debugPort (r : Response) : Option (BitVec 16 × Bool) := r.outcome.map fun o => (o.pack, o.l2Evict)

end Sys2Proof.Machine
end

