-- ==== Sys2Proof/Machine/Metrics.lean ====
section
/-! DEFINITION. The arithmetic of the metrics reporter (R176 to R185), a collaborator outside the block that reads the six
counters after a run. The values are exact rationals; `none` is the undefined value of R185. DEDUCED, log
entry 15. -/

namespace Sys2Proof.Machine

/-- A miss rate; over no access it is undefined (R177 to R179, R185). -/
def missRate (miss acc : Nat) : Option Rat := if acc = 0 then none else some ((miss : Rat) / (acc : Rat))

/-- R177. -/
def Stats.l1MissRate (st : Stats) : Option Rat := missRate st.missL1 st.accL1
/-- R178. -/
def Stats.vcMissRate (st : Stats) : Option Rat := missRate st.missVC st.accVC
/-- R179. -/
def Stats.l2MissRate (st : Stats) : Option Rat := missRate st.missL2 st.accL2

/-- The fixed constants (R180); they are inputs of the formulas and no latencies of the block (R186, R280). -/
def l1HitTime : Rat := 1
def vcHitTime : Rat := 1
def l2HitTime : Rat := 8
def l2MissPenalty : Rat := 100

/-- R181. -/
def Stats.vcMissPenalty (st : Stats) : Option Rat := do
  let r ← st.l2MissRate
  return l2HitTime + r * l2MissPenalty

/-- R182. -/
def Stats.l1MissPenalty (st : Stats) : Option Rat := do
  let r ← st.vcMissRate
  let p ← st.vcMissPenalty
  return vcHitTime + r * p

/-- The average access time (R183). -/
def Stats.aat (st : Stats) : Option Rat := do
  let r ← st.l1MissRate
  let p ← st.l1MissPenalty
  return l1HitTime + r * p

/-- The values of the reporter's one output line, `(L1_miss_rate, L2_miss_rate, AAT)` (R184). -/
def Stats.report (st : Stats) : Option Rat × Option Rat × Option Rat := (st.l1MissRate, st.l2MissRate, st.aat)

end Sys2Proof.Machine
end

