-- ==== Sys2Proof/Safety.lean ====
section
/-! DEFINITION. The terms in which claims about the machine are stated: the invariants of the stored state (R39, R175),
offset discipline and coherence (R65), states that differ only in what invalid lines hold (R35), room below the counter
bounds (R275), and the outcome of the replacement unit said without its code (R104 to R106). -/

namespace Sys2Proof.Machine

/-! ## The replacement unit, by its properties -/

/-- `k` is the first invalid slot of the set (R104). -/
def IsFirstFree {w n : Nat} (set : Vector (AgedLine w) n) (k : Fin n) : Prop :=
  set[k].valid = false ∧ ∀ j : Fin n, j < k → set[j].valid = true

/-- Every slot of the set is valid. -/
def IsFull {w n : Nat} (set : Vector (AgedLine w) n) : Prop := ∀ k : Fin n, set[k].valid = true

/-- `k` has the greatest recency of the set, and is the lowest slot that has it (R104). -/
def IsOldest {w n : Nat} (set : Vector (AgedLine w) n) (k : Fin n) : Prop :=
  ∀ j : Fin n, set[j].recency ≤ set[k].recency ∧ (j < k → set[j].recency < set[k].recency)

/-- The net effect of a placement: the slot holds the line with recency 0, every other valid line is older by one, every other
invalid slot is as it was (R105, R106). -/
def placedIn {w n : Nat} (set : Vector (AgedLine w) n) (slot : Fin n) (line : Line w) : Vector (AgedLine w) n :=
  Vector.ofFn fun k =>
    if k = slot then { toLine := line, recency := 0 }
    else (set[k]).older

/-! ## Invariants of the stored state (R39, R175) -/

/-- How many lines of a set are valid. -/
def validCount {w n : Nat} (set : Vector (AgedLine w) n) : Nat := ((List.finRange n).filter fun k => set[k].valid).length

/-- No block is valid in both L1 and VC, nor in two VC slots (R39 item 2). -/
def Arch.NoBlockTwice (a : Arch) : Prop :=
  (∀ (i : Index) (j : Fin 4), (a.l1At i).valid = true → a.vc[j].valid = true → a.vc[j].tag ≠ vcKey (a.l1At i).tag i) ∧
  (∀ j k : Fin 4, a.vc[j].valid = true → a.vc[k].valid = true → a.vc[j].tag = a.vc[k].tag → j = k)

/-- The L1 line of a valid VC line's index is valid (R39 item 3). -/
def Arch.VcBacked (a : Arch) : Prop :=
  ∀ j : Fin 4, a.vc[j].valid = true → (a.l1At (vcTagIndex a.vc[j].tag)).valid = true

/-- The L1 line of the index of a set with a valid way is valid (R39 item 4). -/
def Arch.L2Backed (a : Arch) : Prop :=
  ∀ (s : Index) (w : Fin 8), (a.l2At s)[w].valid = true → (a.l1At s).valid = true

/-- The recencies of the valid lines of a set are pairwise distinct (R39 item 5). -/
def DistinctRecency {w n : Nat} (set : Vector (AgedLine w) n) : Prop :=
  ∀ j k : Fin n, set[j].valid = true → set[k].valid = true → set[j].recency = set[k].recency → j = k

/-- The recency of a valid line is below the number of valid lines of its set: at most 7 in an L2 set (R39 item 6, R119). -/
def BoundedRecency {w n : Nat} (set : Vector (AgedLine w) n) : Prop :=
  ∀ k : Fin n, set[k].valid = true → set[k].recency < validCount set

/-- The invariants of the three stores (R39). -/
structure Arch.StoresInv (a : Arch) : Prop where
  noBlockTwice : a.NoBlockTwice
  vcBacked     : a.VcBacked
  l2Backed     : a.L2Backed
  vcDistinct   : DistinctRecency a.vc
  l2Distinct   : ∀ s : Index, DistinctRecency (a.l2At s)
  l2Bounded    : ∀ s : Index, BoundedRecency (a.l2At s)

/-- The relations between the counters (R175). -/
structure Stats.Related (st : Stats) : Prop where
  accVC_eq   : st.accVC = st.missL1
  accL2_eq   : st.accL2 = st.missVC
  missL2_le  : st.missL2 ≤ st.accL2
  missVC_le  : st.missVC ≤ st.accVC
  missL1_le  : st.missL1 ≤ st.accL1

/-- The word of every line, valid or not, has `DATA_W` bits (R11, R21). -/
structure Arch.WordsFit (dataW : Nat) (a : Arch) : Prop where
  l1 : ∀ i : Index, fitsWord dataW (a.l1At i).data = true
  vc : ∀ j : Fin 4, fitsWord dataW a.vc[j].data = true
  l2 : ∀ (s : Index) (w : Fin 8), fitsWord dataW (a.l2At s)[w].data = true

/-- The words of the latches have `DATA_W` bits (R197). -/
structure Fsm.WordsFit (dataW : Nat) (f : Fsm) : Prop where
  rWdata : fitsWord dataW f.rWdata = true
  rData  : fitsWord dataW f.rData = true
  v1     : fitsWord dataW f.v1.data = true
  v2     : fitsWord dataW f.v2.data = true

/-- Every word of the machine has `DATA_W` bits: in memory, in the lines, in the latches and in the response (R11). -/
structure State.WordsFit (s : State) : Prop where
  mem  : s.arch.mem.wf s.cfg.dataW = true
  arch : s.arch.WordsFit s.cfg.dataW
  fsm  : s.fsm.WordsFit s.cfg.dataW
  resp : ∀ r d, s.resp = some r → r.rdata = some d → fitsWord s.cfg.dataW d = true

/-- Every recency, of a valid line or not, fits `RECENCY_W`, and every counter fits `STAT_W` (R7, R25, R27). -/
structure State.CountsFit (s : State) : Prop where
  vc   : ∀ j : Fin 4, fitsWidth s.cfg.recencyW s.arch.vc[j].recency = true
  l2   : ∀ (k : Index) (w : Fin 8), fitsWidth s.cfg.recencyW (s.arch.l2At k)[w].recency = true
  stat : ∀ n ∈ s.arch.stat.readout, fitsWidth s.cfg.statW n = true

/-- The machine stands between accesses, is not built for `force_valid`, its words have `DATA_W` bits, and its stored state
meets R39 and R175. -/
structure State.Inv (s : State) : Prop where
  idle   : s.isIdle = true
  policy : s.cfg.policy ≠ .forceValid
  mem    : s.arch.mem.wf s.cfg.dataW = true
  words  : s.arch.WordsFit s.cfg.dataW
  stores : s.arch.StoresInv
  stat   : s.arch.stat.Related

/-! ## Room below the counter bounds (R174, R117, R275) -/

/-- Every valid line of the set can age once more. -/
def CanAge {w n : Nat} (cfg : Config) (set : Vector (AgedLine w) n) : Prop :=
  ∀ k : Fin n, set[k].valid = true → fitsWidth cfg.recencyW (set[k].recency + 1) = true

/-- Every counter can count once more and every valid line can age once more; with unbounded counters always so. That only valid
lines need the room is DEDUCED from R35, R106 and R275, log entry 5: an invalid slot's recency counts as 0 while it is placed into. -/
structure State.Headroom (s : State) : Prop where
  widths : s.cfg.wf = true
  stat   : ∀ n ∈ s.arch.stat.readout, fitsWidth s.cfg.statW (n + 1) = true
  vc     : CanAge s.cfg s.arch.vc
  l2     : ∀ i : Index, CanAge s.cfg (s.arch.l2At i)

/-! ## Lines that hold real data, and LINE_INIT (R35) -/

/-- Two lines alike but for what an invalid line holds. -/
def Line.Alike {w : Nat} (l m : Line w) : Prop := l.valid = m.valid ∧ (l.valid = true → l = m)

/-- As `Line.Alike`, with the recency. -/
def AgedLine.Alike {w : Nat} (l m : AgedLine w) : Prop := l.valid = m.valid ∧ (l.valid = true → l = m)

/-- Two architectural states alike but for what invalid lines hold. -/
structure Arch.Alike (a b : Arch) : Prop where
  l1   : ∀ i : Index, (a.l1At i).Alike (b.l1At i)
  vc   : ∀ j : Fin 4, (a.vc[j]).Alike (b.vc[j])
  l2   : ∀ (s : Index) (w : Fin 8), ((a.l2At s)[w]).Alike ((b.l2At s)[w])
  stat : a.stat = b.stat
  mem  : a.mem = b.mem

/-- Two machines alike but for what invalid lines hold. -/
structure State.Alike (s t : State) : Prop where
  arch  : s.arch.Alike t.arch
  cfg   : s.cfg = t.cfg
  fsm   : s.fsm = t.fsm
  inbox : s.inbox = t.inbox
  resp  : s.resp = t.resp

/-- Two outcomes of a step that agree: both go on, in alike states, or both stop for the same reason. -/
def OutcomesAlike (o p : Host.Outcome State Fault Refusal) : Prop :=
  match o, p with
  | .next s, .next t => s.Alike t
  | .refused q, .refused r => q = r
  | .fault q, .fault r => q = r
  | _, _ => False

/-! ## Offset discipline and coherence (R65) -/

/-- The one address used for a block, where `home` gives each block's offset (R65). -/
def homeAddr (home : VcTag → Offset) (b : VcTag) : Addr := (b ++ home b).cast (by decide)

/-- An address is the one its block is accessed through. -/
def Disciplined (home : VcTag → Offset) (a : Addr) : Prop := addrOffset a = home (vcKey (addrTag a) (addrIndex a))

/-- Every valid line that holds block `b` has the word of memory at the address used for `b` (R65). -/
structure Arch.Coherent (dataW : Nat) (home : VcTag → Offset) (a : Arch) : Prop where
  l1 : ∀ i : Index, (a.l1At i).valid = true → (a.l1At i).data = a.memRead dataW (homeAddr home (vcKey (a.l1At i).tag i))
  vc : ∀ j : Fin 4, a.vc[j].valid = true → a.vc[j].data = a.memRead dataW (homeAddr home a.vc[j].tag)
  l2 : ∀ (s : Index) (w : Fin 8), (a.l2At s)[w].valid = true →
    (a.l2At s)[w].data = a.memRead dataW (homeAddr home (vcKey (a.l2At s)[w].tag s))

/-- The address an operation accesses. -/
def addrOfInstr : Instr → Addr
  | .read a => a
  | .write a _ => a

/-! ## Levels and runs -/

/-- The level at which a READ is served (R130, R147). -/
def servedBy (a : Arch) (addr : Addr) : Level :=
  if l1Match a (addrIndex addr) (addrTag addr) then .l1
  else if anyMatch a.vc (vcKey (addrTag addr) (addrIndex addr)) then .vc
  else if anyMatch (a.l2At (addrIndex addr)) (addrTag addr) then .l2
  else .mem

/-- The counters after a READ served by a level (R145). -/
def Stats.afterRead (lv : Level) (st : Stats) : Stats :=
  match lv with
  | .l1 => { st with accL1 := st.accL1 + 1 }
  | .vc => { st with accL1 := st.accL1 + 1, missL1 := st.missL1 + 1, accVC := st.accVC + 1 }
  | .l2 => { st with
      accL1 := st.accL1 + 1, missL1 := st.missL1 + 1, accVC := st.accVC + 1, missVC := st.missVC + 1, accL2 := st.accL2 + 1 }
  | .mem =>
    { accL1 := st.accL1 + 1, missL1 := st.missL1 + 1, accVC := st.accVC + 1, missVC := st.missVC + 1, accL2 := st.accL2 + 1
      missL2 := st.missL2 + 1 }

/-- The counters a READ served by a level counts up (R145). -/
def Stats.countedBy (lv : Level) (st : Stats) : List Nat :=
  match lv with
  | .l1 => [st.accL1]
  | .vc => [st.accL1, st.missL1, st.accVC]
  | .l2 => [st.accL1, st.missL1, st.accVC, st.missVC, st.accL2]
  | .mem => [st.accL1, st.missL1, st.accVC, st.missVC, st.accL2, st.missL2]

/-- Slot `k` holds a valid line that a placement into `slot` ages: any other slot's, or the slot's own former line if the line
placed over it is valid, since the set ages before the slot's recency becomes 0 (R105, R106). -/
def AgedByPlacement {w n : Nat} (set : Vector (AgedLine w) n) (slot : Fin n) (placedValid : Bool) (k : Fin n) : Prop :=
  set[k].valid = true ∧ (k ≠ slot ∨ placedValid = true)

/-- The memory accesses an operation makes: one read for a READ that falls back to memory, one write for a WRITE, no other
(R51). -/
def memAccessesOf (i : Instr) (a : Arch) : List MemRequest :=
  match i with
  | .read addr => if servedBy a addr = .mem then [.read addr] else []
  | .write addr d => [.write addr d]

/-- Operations executed one after another, each completely before the next (R58). -/
def execAll : List Instr → State → Host.Outcome State Fault Refusal
  | [], s => .next s
  | i :: is, s =>
    match exec i s with
    | .next t => execAll is t
    | .fault r => .fault r
    | .refused r => .refused r

end Sys2Proof.Machine
end

