-- ==== Sys2Proof/Certificates/Slice0/Obligations.lean ====
section
/-! DEFINITION. The statements about the machine, for the provers. -/

open Sys2Proof Sys2Proof.Machine

/-! ## Encoding -/

/-- Request words of the spec's vectors V7 to V10 and of program P8, written out, decode to the operation they stand for, and a
word of the layout for 8-bit data does (R71; the spec's decision D18). -/
def Obligations.SampleRequestWordsDecode : Prop :=
  decode 32 0x204800000000#46 = .ok (.read 72#12) ∧
  decode 32 0x104800000005#46 = .ok (.write 72#12 5) ∧
  decode 32 0x10C8FFFFFFFF#46 = .ok (.write 200#12 0xFFFFFFFF) ∧
  decode 32 0x1088FFFFFFF9#46 = .ok (.write 136#12 0xFFFFFFF9) ∧
  decode 32 0x004800000000#46 = .error .reservedOp ∧
  decode 32 0x304800000000#46 = .error .reservedOp ∧
  decode 8 0x1048F9#22 = .ok (.write 72#12 0xF9)

/-- R71, R72: at every `DATA_W` the decoder reads back every operation the encoder writes, every operand bit kept. -/
def Obligations.DecodeOfEncodeIsTheOperation : Prop :=
  ∀ (dataW : Nat) (i : Instr), i.wf dataW = true → decode dataW (encode dataW i) = .ok i

/-- R70, R75, R76: at every positive `DATA_W` the tuple that stands for an operation is packed and decoded to that operation; the
data integer goes through two's complement and back. -/
def Obligations.TraceTupleOfAnOperationDecodesToIt : Prop :=
  ∀ dataW : Nat, 0 < dataW →
    (∀ i : Instr, i.wf dataW = true → decodeTrace dataW (i.toTrace dataW) = .ok i) ∧
    (∀ d : Word, d < 2 ^ dataW → dataOfInt dataW (intOfData dataW d) = d) ∧
    (∀ n : Int, -(2 ^ (dataW - 1)) ≤ n → n < 2 ^ (dataW - 1) →
      intOfData dataW (dataOfInt dataW n) = n ∧ (dataOfInt dataW n : Int) = n % 2 ^ dataW)

/-- R71, R72, R140: at every `DATA_W`, which words are which operation. A READ's data field may hold anything. -/
def Obligations.DecodedWordsAreExactlyThese : Prop :=
  ∀ dataW : Nat,
    (∀ (w : ReqWord dataW) (a : Addr), decode dataW w = .ok (.read a) ↔ ∃ d : Word, w = packReq dataW true false a d) ∧
    (∀ (w : ReqWord dataW) (a : Addr) (d : Word), decode dataW w = .ok (.write a d) ↔
      d < 2 ^ dataW ∧ w = packReq dataW false true a d) ∧
    (∀ (w : ReqWord dataW) (e : DecodeError), decode dataW w = .error e ↔
      e = .reservedOp ∧ ∃ (b : Bool) (a : Addr) (d : Word), w = packReq dataW b b a d)

/-- R71: where the fields of a request word stand for a `DATA_W`, as numbers: the data lowest, the address above it, then
`is_write`, then `is_read`. -/
def Obligations.RequestWordIsItsFieldsInPlace : Prop :=
  ∀ (dataW : Nat) (isRead isWrite : Bool) (addr : Addr) (data : Word), data < 2 ^ dataW →
    (packReq dataW isRead isWrite addr data).toNat =
      isRead.toNat * 2 ^ (dataW + 13) + isWrite.toNat * 2 ^ (dataW + 12) + addr.toNat * 2 ^ dataW + data

/-- R74, R100: the fields of an address, as the spec's shifts and masks give them, and the address from its fields. -/
def Obligations.AddressFieldsAreTheShiftsAndMasks : Prop :=
  ∀ a : Addr, (addrTag a).toNat = a.toNat / 64 ∧ (addrIndex a).toNat = a.toNat / 4 % 16 ∧ (addrOffset a).toNat = a.toNat % 4 ∧
    addrOf (addrTag a) (addrIndex a) (addrOffset a) = a

/-- R79, R80, R81: `vc_tag = (tag << 4) | index`, and its two halves give tag and index back, both ways. -/
def Obligations.VcTagRoundTrip : Prop :=
  (∀ (t : Tag) (i : Index), (vcKey t i).toNat = t.toNat * 16 + i.toNat ∧ vcTagTag (vcKey t i) = t ∧ vcTagIndex (vcKey t i) = i) ∧
  (∀ v : VcTag, vcKey (vcTagTag v) (vcTagIndex v) = v)

/-- R77, R78 (the spec's decision D19): at every `DATA_W` a stored line is recovered from its packing, a word that fits and a
recency from a field of finite width that holds it. -/
def Obligations.LinePackingsRoundTrip : Prop :=
  (∀ (dataW : Nat) (l : L1Line), l.data < 2 ^ dataW → unpackL1 dataW (packL1 dataW l) = l) ∧
  (∀ (dataW r : Nat) (l : L2Line), l.data < 2 ^ dataW → l.recency < 2 ^ r → unpackAged dataW r (packAged dataW r l) = l) ∧
  (∀ (dataW r : Nat) (l : VcLine), l.data < 2 ^ dataW → l.recency < 2 ^ r → unpackAged dataW r (packAged dataW r l) = l)

/-! ## Reset and the step -/

/-- R32, R33, R34, R36, R260: after reset, whatever `LINE_INIT` and `MEM_INIT` are, every line is invalid with its other
fields as `LINE_INIT` has them (of its data the `DATA_W` bits of the field, of its recency the `RECENCY_W` bits: R11, R25), every
counter is 0, memory is `MEM_INIT` and the FSM is in `S_IDLE`. That `LINE_INIT` and `MEM_INIT` are arguments are the spec's
decisions D6 and D5; that of the numbers given the bits that fit are taken is the model's choice (log entries 1 and 3), and so is
that the parameters stand in the state (log entry 6). -/
def Obligations.ResetLeavesEveryLineInvalidAndCountersZero : Prop :=
  ∀ (cfg : Config) (lines : LineInit) (mem : Memory),
    let s := State.resetWith cfg lines mem
    (∀ i : Fin 16, s.arch.l1[i] = { lines.l1[i] with data := lines.l1[i].data % 2 ^ cfg.dataW, valid := false }) ∧
    (∀ j : Fin 4, s.arch.vc[j] =
      { tag := lines.vc[j].tag, data := lines.vc[j].data % 2 ^ cfg.dataW, valid := false
        recency := recencyOf cfg.recencyW lines.vc[j].recency }) ∧
    (∀ (k : Fin 16) (w : Fin 8), s.arch.l2[k][w] =
      { tag := lines.l2[k][w].tag, data := lines.l2[k][w].data % 2 ^ cfg.dataW, valid := false
        recency := recencyOf cfg.recencyW lines.l2[k][w].recency }) ∧
    s.arch.stat = { accL1 := 0, missL1 := 0, accVC := 0, missVC := 0, accL2 := 0, missL2 := 0 } ∧
    s.arch.mem = mem ∧ s.fsmState = .idle ∧ s.cfg = cfg

/-- The reset state meets the invariant, for any `LINE_INIT`, any `MEM_INIT` in canonical form (log entry 2), and a policy other
than `force_valid`. -/
def Obligations.ResetMeetsTheInvariant : Prop :=
  ∀ (cfg : Config) (lines : LineInit) (mem : Memory), cfg.policy ≠ .forceValid → mem.wf cfg.dataW = true →
    (State.resetWith cfg lines mem).Inv

/-- R261, R36 (the spec's decision D23): a reset between accesses gives every line and counter its reset value, keeps
memory, and leaves the rest of the queue. The queue is the model's choice (log entry 7), and so is that no response is pending
afterwards (log entry 12). -/
def Obligations.ResetInputKeepsOnlyMemory : Prop :=
  ∀ (s : State) (lines : LineInit) (rest : List Input), s.isIdle = true → s.inbox = .reset lines :: rest →
    ∃ t, step s = .next t ∧ t.arch = (State.resetWith s.cfg lines s.arch.mem).arch ∧ t.isIdle = true ∧ t.inbox = rest ∧
      t.cfg = s.cfg ∧ t.resp = none

/-- R58, R70: between accesses a step takes the oldest queued request and is the whole effect of the operation it decodes to,
a request word and a trace tuple alike. The queue is the model's choice (log entry 7). -/
def Obligations.StepRunsTheDecodedOperation : Prop :=
  (∀ (s : State) (w : Nat) (rest : List Input) (i : Instr), s.isIdle = true → s.inbox = .word w :: rest →
    w < 2 ^ (14 + s.cfg.dataW) → decode s.cfg.dataW (BitVec.ofNat (14 + s.cfg.dataW) w) = .ok i →
    step s = exec i { s with inbox := rest }) ∧
  (∀ (s : State) (t : TraceOp) (rest : List Input) (i : Instr), s.isIdle = true → s.inbox = .trace t :: rest →
    decodeTrace s.cfg.dataW t = .ok i → step s = exec i { s with inbox := rest }) ∧
  (∀ (s : State) (nbits w : Nat) (i : Instr), s.isIdle = true → s.cfg.dataW = 32 → decodeTableWord nbits w = some i →
    step (s.withFetchWord nbits w) = exec i s)

/-- R73, R75, R76, R230 (the spec's decisions D17, D29, D1): what is no operation is refused by its name. The order in which
two reasons are looked at is the model's (log entry 8), and so is the refusal of a number with more bits than a request word
(log entry 9, DESIGN CHOICE). -/
def Obligations.StepRefusesWhatIsNoOperation : Prop :=
  (∀ (s : State) (w : Nat) (rest : List Input), s.isIdle = true → s.inbox = .word w :: rest →
    w < 2 ^ (14 + s.cfg.dataW) → w.testBit (13 + s.cfg.dataW) = w.testBit (12 + s.cfg.dataW) →
    step s = .refused .reservedOp) ∧
  (∀ (s : State) (w : Nat) (rest : List Input), s.isIdle = true → s.inbox = .word w :: rest →
    2 ^ (14 + s.cfg.dataW) ≤ w → step s = .refused .notARequestWord) ∧
  (∀ (s : State) (t : TraceOp) (rest : List Input), s.isIdle = true → s.inbox = .trace t :: rest →
    let top : Int := 2 ^ (s.cfg.dataW - 1)
    (t.address < 0 ∨ 4095 < t.address → step s = .refused .addressOutOfRange) ∧
    (0 ≤ t.address ∧ t.address ≤ 4095 ∧ (t.data < -top ∨ top ≤ t.data) → step s = .refused .dataOutOfRange) ∧
    (0 ≤ t.address ∧ t.address ≤ 4095 ∧ -top ≤ t.data ∧ t.data < top ∧ t.isRead = t.isWrite →
      step s = .refused .reservedOp))

/-- R199, R243 (the spec's decision D23): with no request the block waits and keeps all its state. -/
def Obligations.WaitingStepRetainsAllState : Prop :=
  ∀ s : State, s.isIdle = true → s.inbox = [] → step s = .next s

/-- R7: no step changes a parameter. -/
def Obligations.StepNeverChangesAParameter : Prop :=
  ∀ s t : State, step s = .next t → t.cfg = s.cfg

/-! ## READ -/

/-- R131, R132: an L1 hit counts `accL1`, returns the line's word, and changes nothing else. -/
def Obligations.ReadL1HitOnlyCounts : Prop :=
  ∀ (addr : Addr) (s : State),
    (s.arch.l1At (addrIndex addr)).valid = true → (s.arch.l1At (addrIndex addr)).tag = addrTag addr →
    fitsWidth s.cfg.statW (s.arch.stat.accL1 + 1) = true →
    exec (.read addr) s = .next { s with
      arch := { s.arch with stat := { s.arch.stat with accL1 := s.arch.stat.accL1 + 1 } }
      resp := some { rdata := some (s.arch.l1At (addrIndex addr)).data
                     outcome := if s.cfg.debugPort then some .blank else none } }

/-- R133, R134: an L1 miss that hits in VC, lowest matching slot `j`, swaps that line with `L1[index]`, re-tagging both with
the request's index; VC ages and slot `j` gets recency 0; L2 and memory are untouched. -/
def Obligations.ReadVcHitSwapsTheLines : Prop :=
  ∀ (addr : Addr) (s : State) (j : Fin 4), s.Headroom →
    let i := addrIndex addr
    let old := s.arch.l1At i
    ¬(old.valid = true ∧ old.tag = addrTag addr) →
    (s.arch.vc[j].valid = true ∧ s.arch.vc[j].tag = vcKey (addrTag addr) i) →
    (∀ k : Fin 4, k < j → ¬(s.arch.vc[k].valid = true ∧ s.arch.vc[k].tag = vcKey (addrTag addr) i)) →
    ∃ record, exec (.read addr) s = .next { s with
      arch :=
        { s.arch with
          l1 := s.arch.l1.set i.toFin { tag := addrTag addr, data := s.arch.vc[j].data, valid := true }
          vc := placedIn s.arch.vc j
            { tag := vcKey old.tag i, data := old.data
              valid := if s.cfg.policy = .forceValid then true else old.valid }
          stat := { s.arch.stat with
            accL1 := s.arch.stat.accL1 + 1, missL1 := s.arch.stat.missL1 + 1, accVC := s.arch.stat.accVC + 1 } }
      resp := some { rdata := some s.arch.vc[j].data, outcome := record } }

/-- R135, R136, R137, R138, R139: a READ that misses in L1 and VC returns the word of the lowest matching L2 way, or the
memory word at the full address if no way matches; that word and the request's tag are then in `L1[index]`, valid; the
counters of the levels searched count; memory is untouched. That the lowest of several matching ways answers is the spec's
decision D15; what `Headroom` asks at a finite `RECENCY_W` follows log entry 5 (DEDUCED). -/
def Obligations.ReadMissFillsL1FromL2OrMemory : Prop :=
  ∀ (addr : Addr) (s : State), s.Headroom →
    let i := addrIndex addr
    let tag := addrTag addr
    let st := s.arch.stat
    ¬((s.arch.l1At i).valid = true ∧ (s.arch.l1At i).tag = tag) →
    (∀ k : Fin 4, ¬(s.arch.vc[k].valid = true ∧ s.arch.vc[k].tag = vcKey tag i)) →
    ∃ t record, exec (.read addr) s = .next t ∧
      t.cfg = s.cfg ∧ t.fsm = s.fsm ∧ t.inbox = s.inbox ∧ t.arch.mem = s.arch.mem ∧
      (∀ w : Fin 8, ((s.arch.l2At i)[w].valid = true ∧ (s.arch.l2At i)[w].tag = tag) →
        (∀ v : Fin 8, v < w → ¬((s.arch.l2At i)[v].valid = true ∧ (s.arch.l2At i)[v].tag = tag)) →
        t.resp = some { rdata := some (s.arch.l2At i)[w].data, outcome := record } ∧
        t.arch.l1 = s.arch.l1.set i.toFin { tag := tag, data := (s.arch.l2At i)[w].data, valid := true } ∧
        t.arch.stat = { st with accL1 := st.accL1 + 1, missL1 := st.missL1 + 1, accVC := st.accVC + 1
                                missVC := st.missVC + 1, accL2 := st.accL2 + 1 }) ∧
      ((∀ w : Fin 8, ¬((s.arch.l2At i)[w].valid = true ∧ (s.arch.l2At i)[w].tag = tag)) →
        t.resp = some { rdata := some (s.arch.memRead s.cfg.dataW addr), outcome := record } ∧
        t.arch.l1 = s.arch.l1.set i.toFin { tag := tag, data := s.arch.memRead s.cfg.dataW addr, valid := true } ∧
        t.arch.stat = { accL1 := st.accL1 + 1, missL1 := st.missL1 + 1, accVC := st.accVC + 1
                        missVC := st.missVC + 1, accL2 := st.accL2 + 1, missL2 := st.missL2 + 1 })

/-- R104, R105, R106, R107, R109: on a miss in L1 and VC with an invalid VC slot, the former `L1[index]` goes into the first
such slot, re-tagged, with the valid flag the policy gives it; VC ages; L2 is untouched. (Not under `skip` with an invalid
victim, which is the next statement but one. What `Headroom` asks at a finite `RECENCY_W` follows log entry 5, DEDUCED.) -/
def Obligations.CascadeFillsTheFirstFreeVcSlot : Prop :=
  ∀ (addr : Addr) (s : State) (k : Fin 4), s.Headroom →
    let i := addrIndex addr
    let old := s.arch.l1At i
    ¬(old.valid = true ∧ old.tag = addrTag addr) →
    (∀ k : Fin 4, ¬(s.arch.vc[k].valid = true ∧ s.arch.vc[k].tag = vcKey (addrTag addr) i)) →
    ¬(s.cfg.policy = .skip ∧ old.valid = false) →
    IsFirstFree s.arch.vc k →
    ∃ t, exec (.read addr) s = .next t ∧
      t.arch.vc = placedIn s.arch.vc k
        { tag := vcKey old.tag i, data := old.data, valid := if s.cfg.policy = .forceValid then true else old.valid } ∧
      t.arch.l2 = s.arch.l2

/-- R104 to R109, R142: on a miss in L1 and VC with VC full, the former `L1[index]` takes the slot of the oldest VC line, and
that line goes to the L2 set its tag names, re-tagged to 6 bits, into the first invalid way or over the oldest way, whose
line is discarded; both sets age; the other L2 sets are untouched. What `Headroom` asks at a finite `RECENCY_W` follows log entry 5
(DEDUCED). -/
def Obligations.CascadeMovesTheOldestVcLineToL2 : Prop :=
  ∀ (addr : Addr) (s : State) (j : Fin 4) (w : Fin 8), s.Headroom →
    let i := addrIndex addr
    let old := s.arch.l1At i
    let out := s.arch.vc[j]
    let set := s.arch.l2At (vcTagIndex out.tag)
    ¬(old.valid = true ∧ old.tag = addrTag addr) →
    (∀ k : Fin 4, ¬(s.arch.vc[k].valid = true ∧ s.arch.vc[k].tag = vcKey (addrTag addr) i)) →
    ¬(s.cfg.policy = .skip ∧ old.valid = false) →
    IsFull s.arch.vc → IsOldest s.arch.vc j →
    (IsFirstFree set w ∨ (IsFull set ∧ IsOldest set w)) →
    ∃ t, exec (.read addr) s = .next t ∧
      t.arch.vc = placedIn s.arch.vc j
        { tag := vcKey old.tag i, data := old.data, valid := if s.cfg.policy = .forceValid then true else old.valid } ∧
      t.arch.l2 = s.arch.l2.set (vcTagIndex out.tag).toFin
        (placedIn set w { tag := vcTagTag out.tag, data := out.data, valid := true })

/-- R109 (the spec's decision D4): under `skip` an invalid L1 line is not moved: VC and L2 stay as they are. -/
def Obligations.SkipPolicyMovesNoInvalidLine : Prop :=
  ∀ (addr : Addr) (s : State), s.Headroom →
    let i := addrIndex addr
    s.cfg.policy = .skip → (s.arch.l1At i).valid = false →
    (∀ k : Fin 4, ¬(s.arch.vc[k].valid = true ∧ s.arch.vc[k].tag = vcKey (addrTag addr) i)) →
    ∃ t, exec (.read addr) s = .next t ∧ t.arch.vc = s.arch.vc ∧ t.arch.l2 = s.arch.l2

/-- R130, R174, R117: a READ whose counters and recencies have room completes, with a word. That at a finite `RECENCY_W` only
VALID lines need room rests on the model's reading of R106, R35 and R275 (log entry 5, DEDUCED): an invalid slot's recency counts
as 0 while it is placed into; a literal R105 with R117 would refuse if that slot's stale recency were at its maximum. -/
def Obligations.ReadCompletesWithRoomBelowTheBounds : Prop :=
  ∀ (addr : Addr) (s : State), s.Headroom →
    ∃ t r word, exec (.read addr) s = .next t ∧ t.resp = some r ∧ r.rdata = some word

/-- R130, R117, R174: a READ that does not complete has exceeded a finite width, and says which: a counter of a level searched
cannot count, or a valid line of VC or of an L2 set cannot age. That a recency refusal comes only of a VALID line rests on the
model's reading of R106, R35 and R275 (log entry 5, DEDUCED); a literal R105 with R117 would refuse for an invalid slot's stale
recency too. (`cfg.wf`: R7 makes widths positive; at width 0 a line cannot
even be placed.) -/
def Obligations.ReadStopsOnlyAtAFiniteBound : Prop :=
  ∀ (addr : Addr) (s : State),
    (∃ t, exec (.read addr) s = .next t) ∨
    (exec (.read addr) s = .refused .statOverflow ∧ s.cfg.statW ≠ none ∧
      ∃ n ∈ s.arch.stat.countedBy (servedBy s.arch addr), fitsWidth s.cfg.statW (n + 1) = false) ∨
    (exec (.read addr) s = .refused .recencyOverflow ∧ s.cfg.recencyW ≠ none ∧
      (s.cfg.wf = true →
        (∃ k : Fin 4, s.arch.vc[k].valid = true ∧ fitsWidth s.cfg.recencyW (s.arch.vc[k].recency + 1) = false) ∨
        (∃ (i : Index) (w : Fin 8), (s.arch.l2At i)[w].valid = true ∧
          fitsWidth s.cfg.recencyW ((s.arch.l2At i)[w].recency + 1) = false)))

/-- R117, R174 (the spec's decisions D2, D3): an increment past a finite bound is refused, it neither wraps nor saturates. First
the counters: any counter of a level searched. Then, the counters having room, the recencies: of a line that the placement of a
VC hit, the VC placement of a fill, or the L2 placement of a fill ages. -/
def Obligations.OverflowIsRefused : Prop :=
  (∀ (addr : Addr) (s : State) (b n : Nat), s.cfg.statW = some b →
    n ∈ s.arch.stat.countedBy (servedBy s.arch addr) → 2 ^ b ≤ n + 1 → exec (.read addr) s = .refused .statOverflow) ∧
  (∀ (addr : Addr) (s : State) (b : Nat), s.cfg.recencyW = some b →
    (∀ n ∈ s.arch.stat.countedBy (servedBy s.arch addr), fitsWidth s.cfg.statW (n + 1) = true) →
    let old := s.arch.l1At (addrIndex addr)
    let stays := validInVc s.cfg.policy old.valid
    (∀ j k : Fin 4, servedBy s.arch addr = .vc → vcFirst s.arch (addrTag addr) (addrIndex addr) = some j →
      AgedByPlacement s.arch.vc j stays k → 2 ^ b ≤ s.arch.vc[k].recency + 1 →
      exec (.read addr) s = .refused .recencyOverflow) ∧
    (∀ k : Fin 4, servedBy s.arch addr = .l2 ∨ servedBy s.arch addr = .mem →
      ¬(s.cfg.policy = .skip ∧ old.valid = false) →
      AgedByPlacement s.arch.vc (selectSlot (n := 3) s.arch.vc).1 stays k → 2 ^ b ≤ s.arch.vc[k].recency + 1 →
      exec (.read addr) s = .refused .recencyOverflow) ∧
    (∀ (j : Fin 4) (w : Fin 8), servedBy s.arch addr = .l2 ∨ servedBy s.arch addr = .mem →
      ¬(s.cfg.policy = .skip ∧ old.valid = false) → IsFull s.arch.vc → IsOldest s.arch.vc j →
      let set := s.arch.l2At (vcTagIndex s.arch.vc[j].tag)
      AgedByPlacement set (selectSlot (n := 7) set).1 true w → 2 ^ b ≤ set[w].recency + 1 →
      exec (.read addr) s = .refused .recencyOverflow))

/-- R139, R137, R134, R132: whatever level serves it, a READ leaves its block valid in `L1[index]` with the word it
returns. -/
def Obligations.ReadLeavesItsWordInL1 : Prop :=
  ∀ (addr : Addr) (s t : State), exec (.read addr) s = .next t →
    ∃ word outcome, t.resp = some { rdata := some word, outcome := outcome } ∧
      t.arch.l1At (addrIndex addr) = { tag := addrTag addr, data := word, valid := true }

/-- R146: the same READ again is an L1 hit: the same word, `accL1` one more, and nothing moves. -/
def Obligations.SecondReadHitsL1 : Prop :=
  ∀ (addr : Addr) (s t : State), exec (.read addr) s = .next t →
    fitsWidth t.cfg.statW (t.arch.stat.accL1 + 1) = true →
    ∃ u, exec (.read addr) t = .next u ∧
      u.arch = { t.arch with stat := { t.arch.stat with accL1 := t.arch.stat.accL1 + 1 } } ∧
      u.resp.bind Response.rdata = t.resp.bind Response.rdata

/-- R38, R132 to R142: the frame of READ. Other L1 lines, memory, the parameters, the hidden registers and the queue are
unchanged. On an L1 hit so are L1, VC and L2. On a VC hit only the hit slot takes another line, the other VC slots only age, and
L2 is unchanged. On a fill, unless `skip` leaves an invalid victim where it is, only the VC slot `select_slot` chooses takes
another line and the other slots only age; L2 is unchanged if that slot was free, else only the set its line's tag names is
written, there only the way `select_slot` chooses takes another line, and the other ways only age. -/
def Obligations.ReadFrame : Prop :=
  ∀ (addr : Addr) (s t : State), exec (.read addr) s = .next t →
    let old := s.arch.l1At (addrIndex addr)
    let slot := selectSlot (n := 3) s.arch.vc
    let k := vcTagIndex s.arch.vc[slot.1].tag
    t.cfg = s.cfg ∧ t.fsm = s.fsm ∧ t.inbox = s.inbox ∧
    (∀ a : Nat, t.arch.mem.read s.cfg.dataW a = s.arch.mem.read s.cfg.dataW a) ∧
    (∀ i : Index, i ≠ addrIndex addr → t.arch.l1At i = s.arch.l1At i) ∧
    (servedBy s.arch addr = .l1 → t.arch.l1 = s.arch.l1 ∧ t.arch.vc = s.arch.vc ∧ t.arch.l2 = s.arch.l2) ∧
    (servedBy s.arch addr = .vc → t.arch.l2 = s.arch.l2 ∧
      ∃ j : Fin 4, vcFirst s.arch (addrTag addr) (addrIndex addr) = some j ∧ t.arch.vc[j].recency = 0 ∧
        ∀ v : Fin 4, v ≠ j → t.arch.vc[v] = (s.arch.vc[v]).older) ∧
    (servedBy s.arch addr = .l2 ∨ servedBy s.arch addr = .mem →
      (s.cfg.policy = .skip ∧ old.valid = false → t.arch.vc = s.arch.vc ∧ t.arch.l2 = s.arch.l2) ∧
      (¬(s.cfg.policy = .skip ∧ old.valid = false) →
        t.arch.vc[slot.1].recency = 0 ∧ (∀ v : Fin 4, v ≠ slot.1 → t.arch.vc[v] = (s.arch.vc[v]).older) ∧
        (slot.2 = false → t.arch.l2 = s.arch.l2) ∧
        (slot.2 = true →
          (∀ i : Index, i ≠ k → t.arch.l2At i = s.arch.l2At i) ∧
          (t.arch.l2At k)[(selectSlot (n := 7) (s.arch.l2At k)).1].recency = 0 ∧
          (∀ w : Fin 8, w ≠ (selectSlot (n := 7) (s.arch.l2At k)).1 → (t.arch.l2At k)[w] = ((s.arch.l2At k)[w]).older))))

/-- R86, R148 (the spec's decisions D7, D21): with a debug port the outcome record of a READ names the level that served it, the
VC slot that took the former `L1[index]`, and, if a valid VC line was displaced, where in L2 it went and whether it discarded a
valid line there; what does not apply is 0. -/
def Obligations.ReadOutcomeRecordSaysWhatMoved : Prop :=
  ∀ (addr : Addr) (s t : State), exec (.read addr) s = .next t → s.cfg.debugPort = true →
    ∃ r, t.resp.bind Response.outcome = some r ∧ r.level = servedBy s.arch addr ∧
      r.wrL1 = false ∧ r.wrVC = false ∧ r.wrL2 = false ∧
      (r.vcTouched = false → t.arch.vc = s.arch.vc ∧ r = { OutcomeRecord.blank with level := servedBy s.arch addr }) ∧
      (r.vcTouched = true → (t.arch.vc[r.vcSlot]).toLine =
        toVc s.cfg.policy (s.arch.l1At (addrIndex addr)) (addrIndex addr)) ∧
      (r.vcEvict = false → t.arch.l2 = s.arch.l2 ∧ r.l2Set = 0 ∧ r.l2Way = 0 ∧ r.l2Evict = false) ∧
      (r.vcEvict = true → r.vcTouched = true ∧ (s.arch.vc[r.vcSlot]).valid = true ∧
        r.l2Set = vcTagIndex (s.arch.vc[r.vcSlot]).tag ∧
        ((t.arch.l2At r.l2Set)[r.l2Way]).toLine = fromVc (s.arch.vc[r.vcSlot]).toLine ∧
        r.l2Evict = ((s.arch.l2At r.l2Set)[r.l2Way]).valid)

/-- R51: a READ that hits makes no memory access, and one that falls back reads the word at its address alone: with any other
memory that agrees there, it does the same. -/
def Obligations.ReadUsesOnlyItsOwnMemoryWord : Prop :=
  ∀ (addr : Addr) (s t : State) (m : Memory), exec (.read addr) s = .next t →
    (servedBy s.arch addr = .mem → m.read s.cfg.dataW addr.toNat = s.arch.mem.read s.cfg.dataW addr.toNat) →
    exec (.read addr) { s with arch := { s.arch with mem := m } } = .next { t with arch := { t.arch with mem := m } }

/-! ## WRITE -/

/-- R160 to R164, R166: a WRITE completes from every state; it puts the data into the L1 line, every VC line and every L2 way
that hold the block, and into the memory word at the full address. That every level is updated and not only the first is the
spec's decision D14. -/
def Obligations.WriteUpdatesEveryCopyAndMemory : Prop :=
  ∀ (addr : Addr) (d : Word) (s : State),
    let i := addrIndex addr
    let tag := addrTag addr
    ∃ t, exec (.write addr d) s = .next t ∧
      ((s.arch.l1At i).valid = true ∧ (s.arch.l1At i).tag = tag → (t.arch.l1At i).data = d) ∧
      (∀ j : Fin 4, s.arch.vc[j].valid = true ∧ s.arch.vc[j].tag = vcKey tag i → t.arch.vc[j].data = d) ∧
      (∀ w : Fin 8, (s.arch.l2At i)[w].valid = true ∧ (s.arch.l2At i)[w].tag = tag → (t.arch.l2At i)[w].data = d) ∧
      t.arch.mem.read s.cfg.dataW addr.toNat = d

/-- R161 to R165: the frame of WRITE. No tag, valid flag or recency changes and no counter; a line that does not hold the
block keeps its data; every other memory word reads as before; the parameters, the hidden registers and the queue are
unchanged. -/
def Obligations.WriteChangesOnlyData : Prop :=
  ∀ (addr : Addr) (d : Word) (s t : State), exec (.write addr d) s = .next t →
    let i := addrIndex addr
    let tag := addrTag addr
    (∀ k : Index, t.arch.l1At k = { s.arch.l1At k with
      data := if k = i ∧ (s.arch.l1At k).valid = true ∧ (s.arch.l1At k).tag = tag then d else (s.arch.l1At k).data }) ∧
    (∀ j : Fin 4, t.arch.vc[j] = { s.arch.vc[j] with
      data := if s.arch.vc[j].valid = true ∧ s.arch.vc[j].tag = vcKey tag i then d else s.arch.vc[j].data }) ∧
    (∀ (k : Index) (w : Fin 8), (t.arch.l2At k)[w] = { (s.arch.l2At k)[w] with
      data := if k = i ∧ (s.arch.l2At k)[w].valid = true ∧ (s.arch.l2At k)[w].tag = tag then d
              else (s.arch.l2At k)[w].data }) ∧
    t.arch.stat = s.arch.stat ∧
    (∀ a : Nat, a ≠ addr.toNat → t.arch.mem.read s.cfg.dataW a = s.arch.mem.read s.cfg.dataW a) ∧
    t.cfg = s.cfg ∧ t.fsm = s.fsm ∧ t.inbox = s.inbox

/-- R61: a WRITE is seen by a later READ of the same address, whatever level serves it. -/
def Obligations.ReadAfterWriteReturnsTheData : Prop :=
  ∀ (addr : Addr) (d : Word) (s t u : State), exec (.write addr d) s = .next t → exec (.read addr) t = .next u →
    u.resp.bind Response.rdata = some d

/-- R55: a WRITE is idempotent: repeated, it changes no line, no counter and no word of memory. -/
def Obligations.WriteIsIdempotent : Prop :=
  ∀ (addr : Addr) (d : Word) (s t : State), exec (.write addr d) s = .next t →
    ∃ u, exec (.write addr d) t = .next u ∧ u.arch = t.arch

/-- R83, R167, R169: the response to a WRITE carries no word; its outcome record, if there is a debug port, says which levels
held the block. -/
def Obligations.WriteResponseCarriesNoWord : Prop :=
  ∀ (addr : Addr) (d : Word) (s : State), ∃ t r, exec (.write addr d) s = .next t ∧ t.resp = some r ∧ r.rdata = none ∧
    (s.cfg.debugPort = false → r.outcome = none) ∧
    (s.cfg.debugPort = true → r.outcome = some { OutcomeRecord.blank with
      wrL1 := (s.arch.l1At (addrIndex addr)).valid && (s.arch.l1At (addrIndex addr)).tag == addrTag addr
      wrVC := decide (∃ j : Fin 4, s.arch.vc[j].valid = true ∧ s.arch.vc[j].tag = vcKey (addrTag addr) (addrIndex addr))
      wrL2 := decide (∃ w : Fin 8, (s.arch.l2At (addrIndex addr))[w].valid = true ∧
        (s.arch.l2At (addrIndex addr))[w].tag = addrTag addr) })

/-! ## Counters -/

/-- R171, R145: after a READ each counter of a level searched is one more, after a WRITE none is; a reserved request has no
next state. -/
def Obligations.CountersCountTheLevelsSearched : Prop :=
  (∀ (addr : Addr) (s t : State), exec (.read addr) s = .next t →
    t.arch.stat = s.arch.stat.afterRead (servedBy s.arch addr)) ∧
  (∀ (addr : Addr) (d : Word) (s t : State), exec (.write addr d) s = .next t → t.arch.stat = s.arch.stat) ∧
  (∀ (s : State) (a : Addr) (d : Word) (b : Bool) (rest : List Input), s.isIdle = true →
    s.inbox = .word (packReq s.cfg.dataW b b a d).toNat :: rest → step s = .refused .reservedOp)

/-- R172: the counters start at zero, and no step but a reset lowers one, in the middle of an access as between accesses. -/
def Obligations.CountersNeverDecreaseWithoutReset : Prop :=
  (∀ (cfg : Config) (lines : LineInit) (mem : Memory), (State.resetWith cfg lines mem).arch.stat =
    { accL1 := 0, missL1 := 0, accVC := 0, missVC := 0, accL2 := 0, missL2 := 0 }) ∧
  (∀ s t : State, step s = .next t → (s.isIdle = true → ∀ lines rest, s.inbox ≠ .reset lines :: rest) →
    s.arch.stat.accL1 ≤ t.arch.stat.accL1 ∧ s.arch.stat.missL1 ≤ t.arch.stat.missL1 ∧
    s.arch.stat.accVC ≤ t.arch.stat.accVC ∧ s.arch.stat.missVC ≤ t.arch.stat.missVC ∧
    s.arch.stat.accL2 ≤ t.arch.stat.accL2 ∧ s.arch.stat.missL2 ≤ t.arch.stat.missL2)

/-- R177 to R183, R185: the reporter's average access time as the expanded formula gives it. A rate is undefined exactly if its
own access count is 0, and every quantity computed from an undefined rate is undefined (the spec's decision D27). -/
def Obligations.AverageAccessTimeFormula : Prop :=
  ∀ st : Stats,
    (st.accL1 ≠ 0 → st.accVC ≠ 0 → st.accL2 ≠ 0 →
      st.aat = some (1 + (st.missL1 : Rat) / st.accL1 *
        (1 + (st.missVC : Rat) / st.accVC * (8 + (st.missL2 : Rat) / st.accL2 * 100)))) ∧
    (st.l1MissRate = none ↔ st.accL1 = 0) ∧ (st.vcMissRate = none ↔ st.accVC = 0) ∧ (st.l2MissRate = none ↔ st.accL2 = 0) ∧
    (st.vcMissPenalty = none ↔ st.accL2 = 0) ∧
    (st.l1MissPenalty = none ↔ st.accVC = 0 ∨ st.accL2 = 0) ∧
    (st.aat = none ↔ st.accL1 = 0 ∨ st.accVC = 0 ∨ st.accL2 = 0)

/-! ## Invariants and whole-machine rules -/

/-- R39, R175, R119: every step keeps the invariant: canonical memory, words of `DATA_W` bits, no block
twice in L1 and VC, valid VC and L2 lines backed by a valid L1 line, distinct recencies, bounded L2 recencies, the relations of
the counters. -/
def Obligations.StepKeepsTheInvariant : Prop :=
  ∀ s t : State, s.Inv → step s = .next t → t.Inv

/-- R11, R21, R192, R197: every word stays a word of `DATA_W` bits: in memory, in the lines, in the latches and in the response.
It is so after reset, whatever `LINE_INIT` is, and every clock edge, whatever the pins carry, and every step keeps it. (Memory in
canonical form is the model's, log entry 2; how a word is held is, log entry 1.) -/
def Obligations.WordsKeepTheirWidth : Prop :=
  (∀ (cfg : Config) (lines : LineInit) (mem : Memory), mem.wf cfg.dataW = true → (State.resetWith cfg lines mem).WordsFit) ∧
  (∀ (p : Pins) (s t : State), s.WordsFit → clock p s = .next t → t.WordsFit) ∧
  (∀ s t : State, s.WordsFit → step s = .next t → t.WordsFit)

/-- R7, R25, R27, R117, R174 (the spec's decisions D2, D3): at a finite `RECENCY_W` the recency of every VC and L2 line, valid or
not, stays below `2 ^ RECENCY_W`, and at a finite `STAT_W` every counter below `2 ^ STAT_W`. It is so after reset, whatever
`LINE_INIT` is, and every clock edge, whatever the pins carry, and every step keeps it. (That of the recency a reset gives the
bits that fit are taken is the model's, log entry 3.) -/
def Obligations.CountsKeepTheirWidth : Prop :=
  (∀ (cfg : Config) (lines : LineInit) (mem : Memory), (State.resetWith cfg lines mem).CountsFit) ∧
  (∀ (p : Pins) (s t : State), s.CountsFit → clock p s = .next t → t.CountsFit) ∧
  (∀ s t : State, s.CountsFit → step s = .next t → t.CountsFit)

/-- R39 item 6, R119: between accesses a valid L2 line has recency at most 7. -/
def Obligations.L2RecencyIsAtMostSeven : Prop :=
  ∀ s : State, s.Inv → ∀ (k : Index) (w : Fin 8), (s.arch.l2At k)[w].valid = true → (s.arch.l2At k)[w].recency ≤ 7

/-- R118: VC recency has no bound: some run from reset takes a valid VC line past any given recency. -/
def Obligations.VcRecencyHasNoBound : Prop :=
  ∀ n : Nat, ∃ (is : List Instr) (t : State) (j : Fin 4), execAll is State.reset = .next t ∧
    t.arch.vc[j].valid = true ∧ n ≤ t.arch.vc[j].recency

/-- R39 item 1, R37: no operation clears the valid flag of an L1 line or of an L2 way, under any policy. -/
def Obligations.L1AndL2LinesStayValid : Prop :=
  ∀ (i : Instr) (s t : State), exec i s = .next t →
    (∀ k : Index, (s.arch.l1At k).valid = true → (t.arch.l1At k).valid = true) ∧
    (∀ (k : Index) (w : Fin 8), (s.arch.l2At k)[w].valid = true → (t.arch.l2At k)[w].valid = true)

/-- R35: what an invalid line holds never shows. Two machines alike but for that, neither built for `force_valid`, take steps
that agree: the same refusal, or the same response, counters, memory, valid flags and valid lines again. -/
def Obligations.InvalidLinesNeverShow : Prop :=
  ∀ s t : State, s.Alike t → s.isIdle = true → s.cfg.policy ≠ .forceValid → OutcomesAlike (step s) (step t)

/-- R65: if every block is accessed through one address, memory and every valid copy agree, operation after operation, and a
READ returns the memory word of its address. -/
def Obligations.DisciplinedAccessesStayCoherent : Prop :=
  ∀ (home : VcTag → Offset) (i : Instr) (s t : State), s.cfg.policy ≠ .forceValid →
    s.arch.Coherent s.cfg.dataW home → Disciplined home (addrOfInstr i) → exec i s = .next t →
    t.arch.Coherent s.cfg.dataW home ∧
    (∀ a : Addr, i = .read a → t.resp.bind Response.rdata = some (s.arch.memRead s.cfg.dataW a)) ∧
    (∀ a : Addr, i = .read a → t.arch.memRead s.cfg.dataW a = s.arch.memRead s.cfg.dataW a) ∧
    (∀ (a : Addr) (d : Word), i = .write a d → t.arch.memRead s.cfg.dataW a = d)

/-- R65: after reset, with any memory, every valid copy agrees with memory, since there is none. -/
def Obligations.ResetIsCoherent : Prop :=
  ∀ (home : VcTag → Offset) (cfg : Config) (lines : LineInit) (mem : Memory),
    (State.resetWith cfg lines mem).arch.Coherent cfg.dataW home

/-- R86, R242: the debug port only looks on: with it or without it an access has the same effect and returns the same word;
the outcome record is there exactly when the port is. -/
def Obligations.DebugPortFeedsNothingBack : Prop :=
  ∀ (i : Instr) (s t : State) (b : Bool), exec i s = .next t →
    ∃ u, exec i { s with cfg := { s.cfg with debugPort := b } } = .next u ∧ u.arch = t.arch ∧
      u.resp.bind Response.rdata = t.resp.bind Response.rdata ∧ (u.resp.bind Response.outcome).isSome = b

/-- Two memories in canonical form that read alike at every address 0..4095 are the same data (R28, R50; the form is the
model's, log entry 2). -/
def Obligations.CanonicalMemoriesThatReadAlikeAreEqual : Prop :=
  ∀ (dataW : Nat) (m n : Memory), m.wf dataW = true → n.wf dataW = true →
    (∀ a : Nat, a < 4096 → m.read dataW a = n.read dataW a) → m = n

/-! ## The refinement -/

/-- R211 (the spec's refinement, D8, D24): from `S_IDLE`, a pass of the FSM over an accepted operation, with any memory
latency and any stalls, ends with the architectural state, the response and the stop, if any, of the transactional
operation, whose data is what the `DATA_W` wires of `req_wdata` carry. If it completes, it has made the operation's memory accesses and no other,
and given its response in one cycle. -/
def Obligations.FsmPassEqualsTheOperation : Prop :=
  ∀ (i : Instr) (s : State) (p : Pins) (ps : List Pins) (o : Host.Outcome State Fault Refusal),
    s.isIdle = true → p.rst = false → p.reqValid = true →
    decodeFields p.reqRead p.reqWrite p.reqAddr (p.reqWdata % 2 ^ s.cfg.dataW) = .ok i → (∀ q ∈ ps, q.rst = false) →
    runToIdle (p :: ps) s = some o →
    (∃ t r, o = .next t ∧ exec i s = .next { t with fsm := s.fsm } ∧ t.resp = some r ∧
      responses (passTrace (p :: ps) s) = [r] ∧ memAccesses (passTrace (p :: ps) s) = memAccessesOf i s.arch) ∨
    (∃ r, o = .refused r ∧ exec i s = .refused r)

/-- R213, R210 (the spec's decision D25; the bound `maxStall` on stalls is the model's parameter, log entry 13): the pass ends
once the memory has answered at `8 * (maxStall + 1)` of the edges after the one that accepts the request. -/
def Obligations.FsmPassEndsWhenMemoryAnswers : Prop :=
  ∀ (s : State) (p : Pins) (ps : List Pins), s.isIdle = true → p.rst = false → p.reqValid = true →
    (∀ q ∈ ps, q.rst = false) → 8 * (s.cfg.maxStall + 1) ≤ (ps.filter Pins.memReady).length →
    ∃ o, runToIdle (p :: ps) s = some o

/-- R213 (the spec's decision D25): a state that works on its own is left after a bounded number of cycles, `maxStall + 1` (log
entry 13); the memory states are left at an edge where the memory answers, and stay until then; `S_RESP` is left at the next
edge. -/
def Obligations.FsmStatesAreLeft : Prop :=
  (∀ (s : State) (p : Pins), s.fsmState.canStall = true → p.rst = false → s.cfg.maxStall ≤ s.fsm.stalled →
    (∃ t, clock p s = .next t ∧ t.fsmState ≠ s.fsmState ∧ t.fsm.stalled = 0) ∨ ∃ r, clock p s = .refused r) ∧
  (∀ (s t : State) (p : Pins), s.fsmState.canStall = true → p.rst = false → s.fsm.stalled < s.cfg.maxStall →
    clock p s = .next t → t.fsmState = s.fsmState → p.stall = true ∧ t = s.setFsm { s.fsm with stalled := s.fsm.stalled + 1 }) ∧
  (∀ (s : State) (p : Pins), s.fsmState = .memRd ∨ s.fsmState = .memWr → p.rst = false →
    (p.memReady = false → clock p s = .next s) ∧
    (p.memReady = true → ∃ t, clock p s = .next t ∧ t.fsmState = if s.fsmState = .memRd then .fill else .resp)) ∧
  (∀ (s : State) (p : Pins), s.fsmState = .resp → p.rst = false → ∃ t, clock p s = .next t ∧ t.fsmState = .idle)

/-- R192 to R195 (the spec's decisions D20, D23, D25, D26): what the ports drive. A request can be accepted, and the counters can
be sampled, exactly in `S_IDLE` without reset; a response is given exactly in `S_RESP`, with the word of a READ and the record
where there is a debug port; memory is asked exactly in `S_MEMRD` and `S_MEMWR`, at the accepted address. The response under reset
is the model's choice (log entry 16), and so is an absent value where any may stand (log entry 10). -/
def Obligations.PortsFollowTheFsmState : Prop :=
  ∀ (s : State) (rst : Bool),
    ((s.outputs rst).reqReady = true ↔ s.fsmState = .idle ∧ rst = false) ∧
    (∀ st : Stats, (s.outputs rst).stat = some st ↔ s.fsmState = .idle ∧ rst = false ∧ st = s.arch.stat) ∧
    (∀ r : Response, (s.outputs rst).resp = some r ↔ s.fsmState = .resp ∧
      r = { rdata := if s.fsm.rRead = true ∧ s.fsm.rWrite = false then some s.fsm.rData else none
            outcome := if s.cfg.debugPort then some s.fsm.dbg else none }) ∧
    (∀ m : MemRequest, (s.outputs rst).mem = some m ↔
      (s.fsmState = .memRd ∧ m = .read s.fsm.rAddr) ∨ (s.fsmState = .memWr ∧ m = .write s.fsm.rAddr s.fsm.rWdata))

/-- R192, R212 (the spec's decision D23): while an access is in progress no request is accepted: `req_ready` is 0 and the
request ports are not looked at. -/
def Obligations.FsmAcceptsOneRequestAtATime : Prop :=
  ∀ (s : State) (p q : Pins), s.isIdle = false →
    p.rst = q.rst → p.memReady = q.memReady → p.stall = q.stall → p.wrLands = q.wrLands → p.lines = q.lines →
    clock p s = clock q s ∧ (s.outputs p.rst).reqReady = false

/-- R191, R214, R264 (the spec's decision D28): an edge with `rst = 1` abandons the access without a response and gives lines
and counters their reset values; memory is kept, but for a WRITE in `S_MEMWR`, which may or may not have been performed. That a
response already given is taken away too is the model's choice (log entry 12). -/
def Obligations.FsmResetAbandonsTheAccess : Prop :=
  ∀ (s : State) (p : Pins), p.rst = true →
    ∃ t m, clock p s = .next t ∧ t.isIdle = true ∧ t.resp = none ∧
      t.arch = (State.resetWith s.cfg p.lines m).arch ∧ t.cfg = s.cfg ∧ t.inbox = s.inbox ∧
      (m = s.arch.mem ∨ (s.fsmState = .memWr ∧ p.wrLands = true ∧ m = s.arch.mem.write s.cfg.dataW s.fsm.rAddr.toNat s.fsm.rWdata))

/-- R199, R209, R210 (the spec's decision D17): a reserved request goes from `S_IDLE` to `S_RESP` and back, changes no
architectural state, and its response carries no word. That the word is absent, where the spec lets any stand, is the model's
choice (log entry 10). -/
def Obligations.FsmAnswersReservedRequestsWithoutEffect : Prop :=
  ∀ (s : State) (p q : Pins), s.isIdle = true → p.rst = false → p.reqValid = true → p.reqRead = p.reqWrite → q.rst = false →
    ∃ t u r, clock p s = .next t ∧ t.fsmState = .resp ∧ t.arch = s.arch ∧
      clock q t = .next u ∧ u.isIdle = true ∧ u.arch = s.arch ∧ u.resp = some r ∧ r.rdata = none

/-- R198 (the spec's decision D24): the unused codes 11 to 15 behave as `S_IDLE`: ready, and waiting if no request comes. -/
def Obligations.UnusedFsmCodesBehaveAsIdle : Prop :=
  ∀ (s : State) (p : Pins), 11 ≤ s.fsm.state.toNat →
    s.fsmState = .idle ∧ (s.outputs false).reqReady = true ∧
    (p.rst = false → p.reqValid = false → clock p s = .next s) ∧
    (p.rst = false → p.reqValid = true → p.reqRead = true → p.reqWrite = false →
      ∃ t, clock p s = .next t ∧ t.fsmState = .l1 ∧ t.arch = s.arch)
end

