-- ==== Sys2Proof/Laws/Sets.lean ====
section
/-! SUPPORT. One lemma per shared operation on a recency set: the scan, the tag matcher, the choice of a slot, aging,
placement, and the update of matching lines. Later proofs cite these and unfold nothing. -/

namespace Sys2Proof.Machine

variable {w n : Nat}

/-! ## The scan -/

theorem finRange_pairwise_lt (n : Nat) : (List.finRange n).Pairwise (· < ·) := by
  rw [List.pairwise_iff_getElem]
  intro i j hi hj hij
  simpa using hij

theorem firstIdx_eq_some {p : Fin n → Bool} {k : Fin n} :
    firstIdx n p = some k ↔ p k = true ∧ ∀ j : Fin n, j < k → p j = false := by
  unfold firstIdx
  constructor
  · intro h
    obtain ⟨hk, as, bs, hsplit, hall⟩ := List.find?_eq_some_iff_append.mp h
    refine ⟨hk, fun j hj => ?_⟩
    have hmem : j ∈ as ++ k :: bs := hsplit ▸ List.mem_finRange j
    have hp : (as ++ k :: bs).Pairwise (· < ·) := hsplit ▸ finRange_pairwise_lt n
    rw [List.mem_append, List.mem_cons] at hmem
    rcases hmem with hm | rfl | hm
    · simpa using hall j hm
    · exact absurd hj (lt_irrefl _)
    · have := List.rel_of_pairwise_cons (List.pairwise_append.mp hp).2.1 hm
      exact absurd (lt_trans hj this) (lt_irrefl _)
  · rintro ⟨hk, hall⟩
    cases hf : (List.finRange n).find? p with
    | none =>
      have := List.find?_eq_none.mp hf k (List.mem_finRange k)
      simp [hk] at this
    | some j =>
      obtain ⟨hj, as, bs, hsplit, hbefore⟩ := List.find?_eq_some_iff_append.mp hf
      congr 1
      rcases lt_trichotomy j k with h | h | h
      · simp [hall j h] at hj
      · exact h
      · have hmem : k ∈ as ++ j :: bs := hsplit ▸ List.mem_finRange k
        have hp : (as ++ j :: bs).Pairwise (· < ·) := hsplit ▸ finRange_pairwise_lt n
        rw [List.mem_append, List.mem_cons] at hmem
        rcases hmem with hm | rfl | hm
        · have := hbefore k hm
          simp [hk] at this
        · rfl
        · have := List.rel_of_pairwise_cons (List.pairwise_append.mp hp).2.1 hm
          exact absurd (lt_trans h this) (lt_irrefl _)

theorem firstIdx_eq_none {p : Fin n → Bool} : firstIdx n p = none ↔ ∀ k : Fin n, p k = false := by
  simp [firstIdx, List.find?_eq_none, Bool.not_eq_true]

theorem firstIdx_congr {p q : Fin n → Bool} (h : ∀ k, p k = q k) : firstIdx n p = firstIdx n q := by
  rw [funext h]

/-! ## The tag matcher -/

theorem l1Match_iff {a : Arch} {i : Index} {t : Tag} :
    l1Match a i t = true ↔ (a.l1At i).valid = true ∧ (a.l1At i).tag = t := by
  simp [l1Match]

theorem setMatch_iff {set : Vector (AgedLine w) n} {key : BitVec w} {k : Fin n} :
    setMatch set key k = true ↔ set[k].valid = true ∧ set[k].tag = key := by
  simp [setMatch]

theorem firstMatch_eq_some {set : Vector (AgedLine w) n} {key : BitVec w} {k : Fin n} :
    firstMatch set key = some k ↔ (set[k].valid = true ∧ set[k].tag = key) ∧
      ∀ j : Fin n, j < k → ¬(set[j].valid = true ∧ set[j].tag = key) := by
  unfold firstMatch
  rw [firstIdx_eq_some]
  simp only [← setMatch_iff, Bool.not_eq_true]

theorem firstMatch_eq_none {set : Vector (AgedLine w) n} {key : BitVec w} :
    firstMatch set key = none ↔ ∀ k : Fin n, ¬(set[k].valid = true ∧ set[k].tag = key) := by
  unfold firstMatch
  rw [firstIdx_eq_none]
  simp only [← setMatch_iff, Bool.not_eq_true]

/-! ## The choice of a slot -/

theorem freeSlot_eq_some {set : Vector (AgedLine w) n} {k : Fin n} :
    freeSlot set = some k ↔ IsFirstFree set k := by
  unfold freeSlot IsFirstFree
  rw [firstIdx_eq_some]
  simp

theorem freeSlot_eq_none {set : Vector (AgedLine w) n} : freeSlot set = none ↔ IsFull set := by
  unfold freeSlot IsFull
  rw [firstIdx_eq_none]
  simp

/-- Of the slots seen, none is older than `best`, and none before it is as old. -/
def BestSeen (set : Vector (AgedLine w) n) (seen : Fin n → Prop) (best : Fin n) : Prop :=
  ∀ j : Fin n, seen j → set[j].recency ≤ set[best].recency ∧ (j < best → set[j].recency < set[best].recency)

theorem BestSeen.olderSlot {set : Vector (AgedLine w) n} {seen : Fin n → Prop} {best : Fin n} (h : BestSeen set seen best)
    {k : Fin n} (hk : best < k ∨ best = k) : BestSeen set (fun j => seen j ∨ j = k) (olderSlot set best k) := by
  unfold Machine.olderSlot
  split
  · rename_i hlt
    rintro j (hj | rfl)
    · have := (h j hj).1
      exact ⟨by omega, fun _ => by omega⟩
    · exact ⟨le_refl _, fun hh => absurd hh (lt_irrefl _)⟩
  · rename_i hnlt
    rintro j (hj | rfl)
    · exact h j hj
    · refine ⟨by omega, fun hh => ?_⟩
      rcases hk with h1 | h1
      · exact absurd (lt_trans h1 hh) (lt_irrefl _)
      · exact absurd (h1 ▸ hh) (lt_irrefl _)

/-- The scan keeps the best slot seen. -/
theorem BestSeen.foldl {set : Vector (AgedLine w) n} (ks : List (Fin n)) {seen : Fin n → Prop} {best : Fin n}
    (hks : ks.Pairwise (· < ·)) (hbefore : ∀ k ∈ ks, best < k ∨ best = k) (h : BestSeen set seen best) :
    BestSeen set (fun j => seen j ∨ j ∈ ks) (ks.foldl (Machine.olderSlot set) best) := by
  induction ks generalizing seen best with
  | nil => simpa using h
  | cons k ks ih =>
    have hp := List.pairwise_cons.mp hks
    have hk := hbefore k List.mem_cons_self
    have step := ih hp.2 (best := Machine.olderSlot set best k) ?_ (h.olderSlot hk)
    · intro j hj
      refine step j ?_
      rcases hj with hj | hj
      · exact .inl (.inl hj)
      · rcases List.mem_cons.mp hj with rfl | hj
        · exact .inl (.inr rfl)
        · exact .inr hj
    · intro j hj
      unfold Machine.olderSlot
      split
      · exact .inl (hp.1 j hj)
      · exact hbefore j (List.mem_cons_of_mem _ hj)

theorem oldestSlot_isOldest (set : Vector (AgedLine w) (n + 1)) : IsOldest set (oldestSlot set) := by
  have h : BestSeen set (fun k => k = 0) (0 : Fin (n + 1)) := by
    rintro j rfl
    exact ⟨le_refl _, fun hh => absurd hh (lt_irrefl _)⟩
  intro j
  refine BestSeen.foldl (List.finRange (n + 1)) (finRange_pairwise_lt _) (fun k _ => ?_) h j (.inr (List.mem_finRange j))
  rcases eq_or_ne (0 : Fin (n + 1)) k with h | h
  · exact .inr h
  · exact .inl (Fin.pos_of_ne_zero (Ne.symm h))

theorem IsOldest.unique {set : Vector (AgedLine w) n} {j k : Fin n} (hj : IsOldest set j) (hk : IsOldest set k) : j = k := by
  rcases lt_trichotomy j k with h | h | h
  · have := (hk j).2 h; have := (hj k).1; omega
  · exact h
  · have := (hj k).2 h; have := (hk j).1; omega

theorem IsFirstFree.unique {set : Vector (AgedLine w) n} {j k : Fin n} (hj : IsFirstFree set j) (hk : IsFirstFree set k) :
    j = k := by
  rcases lt_trichotomy j k with h | h | h
  · have := hk.2 j h; rw [hj.1] at this; cases this
  · exact h
  · have := hj.2 k h; rw [hk.1] at this; cases this

theorem IsFirstFree.not_full {set : Vector (AgedLine w) n} {k : Fin n} (h : IsFirstFree set k) : ¬IsFull set := by
  intro hf
  have := hf k
  rw [h.1] at this
  cases this

/-- All that `select_slot` answers (R104). -/
theorem selectSlot_cases (set : Vector (AgedLine w) (n + 1)) :
    (∃ k, selectSlot set = (k, false) ∧ IsFirstFree set k) ∨
    (∃ k, selectSlot set = (k, true) ∧ IsFull set ∧ IsOldest set k) := by
  unfold selectSlot
  split
  · rename_i k h
    exact .inl ⟨k, rfl, freeSlot_eq_some.mp h⟩
  · rename_i h
    exact .inr ⟨_, rfl, freeSlot_eq_none.mp h, oldestSlot_isOldest set⟩

theorem selectSlot_of_firstFree {set : Vector (AgedLine w) (n + 1)} {k : Fin (n + 1)} (h : IsFirstFree set k) :
    selectSlot set = (k, false) := by
  unfold selectSlot
  rw [freeSlot_eq_some.mpr h]

theorem selectSlot_of_full {set : Vector (AgedLine w) (n + 1)} {k : Fin (n + 1)} (hf : IsFull set) (h : IsOldest set k) :
    selectSlot set = (k, true) := by
  unfold selectSlot
  rw [freeSlot_eq_none.mpr hf, (oldestSlot_isOldest set).unique h]

/-! ## Aging and placement -/

@[simp] theorem AgedLine.older_toLine (l : AgedLine w) : l.older.toLine = l.toLine := by
  unfold AgedLine.older
  split <;> rfl

theorem AgedLine.older_of_valid {l : AgedLine w} (h : l.valid = true) : l.older = { l with recency := l.recency + 1 } :=
  if_pos h

theorem AgedLine.older_of_invalid {l : AgedLine w} (h : l.valid = false) : l.older = l := by
  simp [AgedLine.older, h]

@[simp] theorem placedIn_same (set : Vector (AgedLine w) n) (k : Fin n) (l : Line w) :
    (placedIn set k l)[k] = { toLine := l, recency := 0 } := by
  simp [placedIn]

theorem placedIn_other (set : Vector (AgedLine w) n) {k j : Fin n} (l : Line w) (h : j ≠ k) :
    (placedIn set k l)[j] = (set[j]).older := by
  simp [placedIn, h]

theorem placedIn_other_toLine (set : Vector (AgedLine w) n) {k j : Fin n} (l : Line w) (h : j ≠ k) :
    ((placedIn set k l)[j]).toLine = (set[j]).toLine := by
  rw [placedIn_other _ _ h, AgedLine.older_toLine]

theorem age_eq_ok {cfg : Config} {set v : Vector (AgedLine w) n} :
    age cfg set = .ok v ↔ CanAge cfg set ∧
      v = Vector.ofFn fun k => (set[k]).older := by
  unfold age CanAge
  split
  · rename_i h
    simp only [Except.ok.injEq]
    exact ⟨fun e => ⟨h, e.symm⟩, fun e => e.2.symm⟩
  · rename_i h
    exact ⟨fun e => (nomatch e), fun e => absurd e.1 h⟩

theorem age_eq_error {cfg : Config} {set : Vector (AgedLine w) n} (h : ¬CanAge cfg set) :
    age cfg set = .error .recencyOverflow := by
  unfold age
  exact if_neg h

theorem set_getElem_fin (set : Vector (AgedLine w) n) (slot k : Fin n) (l : AgedLine w) :
    (set.set slot l)[k] = if k = slot then l else set[k] := by
  by_cases h : k = slot
  · subst h; simp
  · have : slot.val ≠ k.val := fun e => h (Fin.ext e.symm)
    simp [h, this]

/-- All that a placement answers: its net effect, or an overflow of the recency (R105, R117). -/
theorem place_cases (cfg : Config) (set : Vector (AgedLine w) n) (slot : Fin n) (line : Line w) :
    (CanAge cfg (writtenSet set slot line) ∧ place cfg set slot line = .ok (placedIn set slot line)) ∨
    (¬CanAge cfg (writtenSet set slot line) ∧ cfg.recencyW ≠ none ∧ place cfg set slot line = .error .recencyOverflow) := by
  by_cases h : CanAge cfg (writtenSet set slot line)
  · refine .inl ⟨h, ?_⟩
    unfold place
    rw [age_eq_ok.mpr ⟨h, rfl⟩]
    simp only [bind, Except.bind, pure, Except.pure, Except.ok.injEq]
    apply Vector.ext
    intro k hk
    refine (set_getElem_fin _ slot ⟨k, hk⟩ _).trans ?_
    by_cases hks : (⟨k, hk⟩ : Fin n) = slot
    · subst hks; simp [placedIn]
    · have hne : slot.val ≠ k := fun e => hks (Fin.ext e.symm)
      simp [placedIn, writtenSet, hks, hne]
  · refine .inr ⟨h, fun hn => h fun k _ => by simp [fitsWidth, hn], ?_⟩
    unfold place
    rw [age_eq_error h]
    rfl

theorem canAge_writtenSet {cfg : Config} {set : Vector (AgedLine w) n} (slot : Fin n) (line : Line w) (hw : cfg.wf = true)
    (h : CanAge cfg set) : CanAge cfg (writtenSet set slot line) := by
  intro k hk
  unfold writtenSet at hk ⊢
  rw [set_getElem_fin] at hk ⊢
  by_cases hks : k = slot
  · subst hks
    rw [if_pos rfl]
    by_cases hv : set[k].valid = true
    · rw [if_pos hv]; exact h k hv
    · have hpos : fitsWidth cfg.recencyW (0 + 1) = true := by
        simp only [Config.wf, Bool.and_eq_true] at hw
        have := hw.1.2
        unfold fitsWidth
        unfold positiveWidth at this
        split
        · rfl
        · rename_i b hb
          simp only [hb, decide_eq_true_eq] at this ⊢
          exact Nat.one_lt_two_pow (by omega)
      rw [if_neg hv]; exact hpos
  · rw [if_neg hks] at hk ⊢
    exact h k hk

/-- A line that a placement ages past a finite width stops it (R117). -/
theorem not_canAge_writtenSet {cfg : Config} {set : Vector (AgedLine w) n} {slot k : Fin n} {line : Line w}
    (hk : AgedByPlacement set slot line.valid k) (h : fitsWidth cfg.recencyW (set[k].recency + 1) = false) :
    ¬CanAge cfg (writtenSet set slot line) := by
  intro hc
  have hk' := hc k
  unfold writtenSet at hk'
  rw [set_getElem_fin] at hk'
  by_cases hks : k = slot
  · subst hks
    have hv : line.valid = true := hk.2.resolve_left fun hne => hne rfl
    simp only [if_true, hk.1] at hk'
    rw [h] at hk'
    cases hk' hv
  · rw [if_neg hks] at hk'
    rw [h] at hk'
    cases hk' hk.1

theorem place_of_canAge {cfg : Config} {set : Vector (AgedLine w) n} (slot : Fin n) (line : Line w) (hw : cfg.wf = true)
    (h : CanAge cfg set) : place cfg set slot line = .ok (placedIn set slot line) := by
  rcases place_cases cfg set slot line with h' | h'
  · exact h'.2
  · exact absurd (canAge_writtenSet slot line hw h) h'.1

theorem place_eq_ok {cfg : Config} {set v : Vector (AgedLine w) n} {slot : Fin n} {line : Line w}
    (h : place cfg set slot line = .ok v) : v = placedIn set slot line := by
  rcases place_cases cfg set slot line with h' | h'
  · rw [h'.2] at h; exact (Except.ok.inj h).symm
  · rw [h'.2.2] at h; cases h

/-- A placement keeps every recency inside a finite `RECENCY_W` (R25, R117). -/
theorem place_fits {cfg : Config} {set v : Vector (AgedLine w) n} {slot : Fin n} {line : Line w}
    (h : place cfg set slot line = .ok v) (hf : ∀ k : Fin n, fitsWidth cfg.recencyW set[k].recency = true) (k : Fin n) :
    fitsWidth cfg.recencyW v[k].recency = true := by
  rcases place_cases cfg set slot line with ⟨hc, h'⟩ | ⟨-, -, h'⟩ <;> rw [h'] at h <;> cases h
  by_cases hk : k = slot
  · subst hk
    rw [placedIn_same]
    cases cfg.recencyW <;> simp [fitsWidth]
  rw [placedIn_other set line hk]
  cases hv : set[k].valid with
  | false => rw [AgedLine.older_of_invalid hv]; exact hf k
  | true =>
    have hs : (writtenSet set slot line)[k] = set[k] := by unfold writtenSet; rw [set_getElem_fin, if_neg hk]
    have := hc k
    rw [hs] at this
    rw [AgedLine.older_of_valid hv]
    exact this hv

/-! ## The update of matching lines -/

theorem updateMatching_getElem (set : Vector (AgedLine w) n) (key : BitVec w) (d : Word) (k : Fin n) :
    (updateMatching set key d)[k] = { set[k] with
      data := if set[k].valid = true ∧ set[k].tag = key then d else set[k].data } := by
  simp only [updateMatching, Fin.getElem_fin, Vector.getElem_ofFn]
  by_cases h : set[k].valid = true ∧ set[k].tag = key
  · have := setMatch_iff.mpr h
    simp only [Fin.getElem_fin] at h
    simp [this, h]
  · have := mt setMatch_iff.mp h
    simp only [Fin.getElem_fin] at h
    simp [this, h]

end Sys2Proof.Machine
end

