-- ==== Sys2Proof/Laws/State.lean ====
section
/-! SUPPORT. One lemma per field per update of the state, each true by `rfl` and a simp lemma, so that no later proof unfolds a
record update. -/

namespace Sys2Proof.Machine

/-! ## Updates of the architectural state -/

@[simp] theorem Arch.setL1At_l1 (a : Arch) (i : Index) (l : L1Line) : (a.setL1At i l).l1 = a.l1.set i.toFin l := rfl
@[simp] theorem Arch.setL1At_vc (a : Arch) (i : Index) (l : L1Line) : (a.setL1At i l).vc = a.vc := rfl
@[simp] theorem Arch.setL1At_l2 (a : Arch) (i : Index) (l : L1Line) : (a.setL1At i l).l2 = a.l2 := rfl
@[simp] theorem Arch.setL1At_stat (a : Arch) (i : Index) (l : L1Line) : (a.setL1At i l).stat = a.stat := rfl
@[simp] theorem Arch.setL1At_mem (a : Arch) (i : Index) (l : L1Line) : (a.setL1At i l).mem = a.mem := rfl

@[simp] theorem Arch.setVc_l1 (a : Arch) (v : VcSet) : (a.setVc v).l1 = a.l1 := rfl
@[simp] theorem Arch.setVc_vc (a : Arch) (v : VcSet) : (a.setVc v).vc = v := rfl
@[simp] theorem Arch.setVc_l2 (a : Arch) (v : VcSet) : (a.setVc v).l2 = a.l2 := rfl
@[simp] theorem Arch.setVc_stat (a : Arch) (v : VcSet) : (a.setVc v).stat = a.stat := rfl
@[simp] theorem Arch.setVc_mem (a : Arch) (v : VcSet) : (a.setVc v).mem = a.mem := rfl

@[simp] theorem Arch.setL2At_l1 (a : Arch) (k : Index) (set : L2Set) : (a.setL2At k set).l1 = a.l1 := rfl
@[simp] theorem Arch.setL2At_vc (a : Arch) (k : Index) (set : L2Set) : (a.setL2At k set).vc = a.vc := rfl
@[simp] theorem Arch.setL2At_l2 (a : Arch) (k : Index) (set : L2Set) : (a.setL2At k set).l2 = a.l2.set k.toFin set := rfl
@[simp] theorem Arch.setL2At_stat (a : Arch) (k : Index) (set : L2Set) : (a.setL2At k set).stat = a.stat := rfl
@[simp] theorem Arch.setL2At_mem (a : Arch) (k : Index) (set : L2Set) : (a.setL2At k set).mem = a.mem := rfl

@[simp] theorem Arch.setStat_l1 (a : Arch) (st : Stats) : (a.setStat st).l1 = a.l1 := rfl
@[simp] theorem Arch.setStat_vc (a : Arch) (st : Stats) : (a.setStat st).vc = a.vc := rfl
@[simp] theorem Arch.setStat_l2 (a : Arch) (st : Stats) : (a.setStat st).l2 = a.l2 := rfl
@[simp] theorem Arch.setStat_stat (a : Arch) (st : Stats) : (a.setStat st).stat = st := rfl
@[simp] theorem Arch.setStat_mem (a : Arch) (st : Stats) : (a.setStat st).mem = a.mem := rfl

@[simp] theorem Arch.memWrite_l1 (a : Arch) (dw : Nat) (addr : Addr) (d : Word) : (a.memWrite dw addr d).l1 = a.l1 := rfl
@[simp] theorem Arch.memWrite_vc (a : Arch) (dw : Nat) (addr : Addr) (d : Word) : (a.memWrite dw addr d).vc = a.vc := rfl
@[simp] theorem Arch.memWrite_l2 (a : Arch) (dw : Nat) (addr : Addr) (d : Word) : (a.memWrite dw addr d).l2 = a.l2 := rfl
@[simp] theorem Arch.memWrite_stat (a : Arch) (dw : Nat) (addr : Addr) (d : Word) : (a.memWrite dw addr d).stat = a.stat := rfl
@[simp] theorem Arch.memWrite_mem (a : Arch) (dw : Nat) (addr : Addr) (d : Word) : (a.memWrite dw addr d).mem = a.mem.write dw addr.toNat d := rfl

/-! ## Updates of the machine -/

@[simp] theorem State.setArch_arch (s : State) (a : Arch) : (s.setArch a).arch = a := rfl
@[simp] theorem State.setArch_cfg (s : State) (a : Arch) : (s.setArch a).cfg = s.cfg := rfl
@[simp] theorem State.setArch_fsm (s : State) (a : Arch) : (s.setArch a).fsm = s.fsm := rfl
@[simp] theorem State.setArch_inbox (s : State) (a : Arch) : (s.setArch a).inbox = s.inbox := rfl
@[simp] theorem State.setArch_resp (s : State) (a : Arch) : (s.setArch a).resp = s.resp := rfl

@[simp] theorem State.setFsm_arch (s : State) (f : Fsm) : (s.setFsm f).arch = s.arch := rfl
@[simp] theorem State.setFsm_cfg (s : State) (f : Fsm) : (s.setFsm f).cfg = s.cfg := rfl
@[simp] theorem State.setFsm_fsm (s : State) (f : Fsm) : (s.setFsm f).fsm = f := rfl
@[simp] theorem State.setFsm_inbox (s : State) (f : Fsm) : (s.setFsm f).inbox = s.inbox := rfl
@[simp] theorem State.setFsm_resp (s : State) (f : Fsm) : (s.setFsm f).resp = s.resp := rfl

@[simp] theorem State.popInput_arch (s : State) : (s.popInput).arch = s.arch := rfl
@[simp] theorem State.popInput_cfg (s : State) : (s.popInput).cfg = s.cfg := rfl
@[simp] theorem State.popInput_fsm (s : State) : (s.popInput).fsm = s.fsm := rfl
@[simp] theorem State.popInput_inbox (s : State) : (s.popInput).inbox = s.inbox.tail := rfl
@[simp] theorem State.popInput_resp (s : State) : (s.popInput).resp = s.resp := rfl

@[simp] theorem State.complete_arch (s : State) (a : Arch) (d : Option Word) (r : OutcomeRecord) : (s.complete a d r).arch = a := rfl
@[simp] theorem State.complete_cfg (s : State) (a : Arch) (d : Option Word) (r : OutcomeRecord) : (s.complete a d r).cfg = s.cfg := rfl
@[simp] theorem State.complete_fsm (s : State) (a : Arch) (d : Option Word) (r : OutcomeRecord) : (s.complete a d r).fsm = s.fsm := rfl
@[simp] theorem State.complete_inbox (s : State) (a : Arch) (d : Option Word) (r : OutcomeRecord) : (s.complete a d r).inbox = s.inbox := rfl
@[simp] theorem State.complete_resp (s : State) (a : Arch) (d : Option Word) (r : OutcomeRecord) : (s.complete a d r).resp = some (mkResponse s.cfg d r) := rfl

@[simp] theorem State.assertReset_arch (s : State) (lines : LineInit) : (s.assertReset lines).arch = .afterReset s.cfg lines s.arch.mem := rfl
@[simp] theorem State.assertReset_cfg (s : State) (lines : LineInit) : (s.assertReset lines).cfg = s.cfg := rfl
@[simp] theorem State.assertReset_fsm (s : State) (lines : LineInit) : (s.assertReset lines).fsm = { s.fsm with state := 0, stalled := 0 } := rfl
@[simp] theorem State.assertReset_inbox (s : State) (lines : LineInit) : (s.assertReset lines).inbox = s.inbox := rfl
@[simp] theorem State.assertReset_resp (s : State) (lines : LineInit) : (s.assertReset lines).resp = none := rfl

@[simp] theorem mkResponse_rdata (cfg : Config) (d : Option Word) (r : OutcomeRecord) : (mkResponse cfg d r).rdata = d := rfl
@[simp] theorem mkResponse_outcome (cfg : Config) (d : Option Word) (r : OutcomeRecord) :
    (mkResponse cfg d r).outcome = if cfg.debugPort then some r else none := rfl

/-! ## The stores by index field -/

theorem toFin_inj {w : Nat} {i j : BitVec w} : i.toFin = j.toFin ↔ i = j :=
  ⟨fun h => BitVec.eq_of_toFin_eq h, fun h => h ▸ rfl⟩

@[simp] theorem Arch.setL1At_l1At_same (a : Arch) (i : Index) (l : L1Line) : (a.setL1At i l).l1At i = l := by
  simp [Arch.l1At, Arch.setL1At]

theorem Arch.setL1At_l1At_other (a : Arch) {i j : Index} (l : L1Line) (h : j ≠ i) :
    (a.setL1At i l).l1At j = a.l1At j := by
  have : i.toNat ≠ j.toNat := fun e => h (BitVec.eq_of_toNat_eq e).symm
  simp [Arch.l1At, Arch.setL1At, this]

@[simp] theorem Arch.setL2At_l2At_same (a : Arch) (k : Index) (set : L2Set) : (a.setL2At k set).l2At k = set := by
  simp [Arch.l2At, Arch.setL2At]

theorem Arch.setL2At_l2At_other (a : Arch) {k j : Index} (set : L2Set) (h : j ≠ k) :
    (a.setL2At k set).l2At j = a.l2At j := by
  have : k.toNat ≠ j.toNat := fun e => h (BitVec.eq_of_toNat_eq e).symm
  simp [Arch.l2At, Arch.setL2At, this]

@[simp] theorem Arch.setL1At_l2At (a : Arch) (i : Index) (l : L1Line) (j : Index) : (a.setL1At i l).l2At j = a.l2At j := rfl
@[simp] theorem Arch.setL1At_memRead (a : Arch) (i : Index) (l : L1Line) (dw : Nat) (addr : Addr) : (a.setL1At i l).memRead dw addr = a.memRead dw addr := rfl
@[simp] theorem Arch.setVc_l1At (a : Arch) (v : VcSet) (j : Index) : (a.setVc v).l1At j = a.l1At j := rfl
@[simp] theorem Arch.setVc_l2At (a : Arch) (v : VcSet) (j : Index) : (a.setVc v).l2At j = a.l2At j := rfl
@[simp] theorem Arch.setVc_memRead (a : Arch) (v : VcSet) (dw : Nat) (addr : Addr) : (a.setVc v).memRead dw addr = a.memRead dw addr := rfl
@[simp] theorem Arch.setL2At_l1At (a : Arch) (k : Index) (set : L2Set) (j : Index) : (a.setL2At k set).l1At j = a.l1At j := rfl
@[simp] theorem Arch.setL2At_memRead (a : Arch) (k : Index) (set : L2Set) (dw : Nat) (addr : Addr) : (a.setL2At k set).memRead dw addr = a.memRead dw addr := rfl
@[simp] theorem Arch.setStat_l1At (a : Arch) (st : Stats) (j : Index) : (a.setStat st).l1At j = a.l1At j := rfl
@[simp] theorem Arch.setStat_l2At (a : Arch) (st : Stats) (j : Index) : (a.setStat st).l2At j = a.l2At j := rfl
@[simp] theorem Arch.setStat_memRead (a : Arch) (st : Stats) (dw : Nat) (addr : Addr) : (a.setStat st).memRead dw addr = a.memRead dw addr := rfl
@[simp] theorem Arch.memWrite_l1At (a : Arch) (dw : Nat) (addr : Addr) (d : Word) (j : Index) : (a.memWrite dw addr d).l1At j = a.l1At j := rfl
@[simp] theorem Arch.memWrite_l2At (a : Arch) (dw : Nat) (addr : Addr) (d : Word) (j : Index) : (a.memWrite dw addr d).l2At j = a.l2At j := rfl

/-! ## The arrays after reset -/

@[simp] theorem Arch.afterReset_l1At (cfg : Config) (lines : LineInit) (m : Memory) (i : Index) :
    (Arch.afterReset cfg lines m).l1At i = (lines.l1[i.toFin]).invalid cfg.dataW := by
  simp [Arch.afterReset, Arch.l1At]

@[simp] theorem Arch.afterReset_vc (cfg : Config) (lines : LineInit) (m : Memory) (j : Fin 4) :
    (Arch.afterReset cfg lines m).vc[j] = (lines.vc[j]).invalid cfg := by
  simp [Arch.afterReset]

@[simp] theorem Arch.afterReset_l2At (cfg : Config) (lines : LineInit) (m : Memory) (k : Index) (w : Fin 8) :
    ((Arch.afterReset cfg lines m).l2At k)[w] = (lines.l2[k.toFin][w]).invalid cfg := by
  simp [Arch.afterReset, Arch.l2At]

@[simp] theorem Arch.afterReset_stat (cfg : Config) (lines : LineInit) (m : Memory) : (Arch.afterReset cfg lines m).stat = .zero := rfl
@[simp] theorem Arch.afterReset_mem (cfg : Config) (lines : LineInit) (m : Memory) : (Arch.afterReset cfg lines m).mem = m := rfl

@[simp] theorem Line.invalid_valid {w : Nat} (dw : Nat) (l : Line w) : (l.invalid dw).valid = false := rfl
@[simp] theorem AgedLine.invalid_valid {w : Nat} (cfg : Config) (l : AgedLine w) : (l.invalid cfg).valid = false := rfl

@[simp] theorem Line.invalid_data {w : Nat} (dw : Nat) (l : Line w) : (l.invalid dw).data = wordOf dw l.data := rfl
@[simp] theorem AgedLine.invalid_data {w : Nat} (cfg : Config) (l : AgedLine w) :
    (l.invalid cfg).data = wordOf cfg.dataW l.data := rfl
@[simp] theorem AgedLine.invalid_recency {w : Nat} (cfg : Config) (l : AgedLine w) :
    (l.invalid cfg).recency = recencyOf cfg.recencyW l.recency := rfl

/-- What a port or a line field carries has its width. -/
@[simp] theorem wordOf_fits (dw d : Nat) : fitsWord dw (wordOf dw d) = true := decide_eq_true (Nat.mod_lt _ (Nat.two_pow_pos dw))

/-- A word that has the width goes through whole. -/
theorem wordOf_of_fits {dw d : Nat} (h : fitsWord dw d = true) : wordOf dw d = d := Nat.mod_eq_of_lt (of_decide_eq_true h)

/-- What a recency field holds has its width. -/
@[simp] theorem recencyOf_fits (w : Option Nat) (n : Nat) : fitsWidth w (recencyOf w n) = true := by
  cases w with
  | none => rfl
  | some b => exact decide_eq_true (Nat.mod_lt _ (Nat.two_pow_pos b))

/-- A recency that has the width is held whole. -/
theorem recencyOf_of_fits {w : Option Nat} {n : Nat} (h : fitsWidth w n = true) : recencyOf w n = n := by
  cases w with
  | none => rfl
  | some b => exact Nat.mod_eq_of_lt (of_decide_eq_true h)

@[simp] theorem Pins.wdata_fits (dw : Nat) (p : Pins) : fitsWord dw (p.wdata dw) = true := wordOf_fits _ _

/-! ## The FSM state register -/

@[simp] theorem FsmState.ofCode_code (q : FsmState) : FsmState.ofCode q.code = q := by cases q <;> rfl

@[simp] theorem Fsm.goTo_state (f : Fsm) (q : FsmState) : (f.goTo q).state = q.code := rfl
@[simp] theorem Fsm.goTo_stalled (f : Fsm) (q : FsmState) : (f.goTo q).stalled = 0 := rfl

@[simp] theorem State.setFsm_goTo_fsmState (s : State) (f : Fsm) (q : FsmState) : (s.setFsm (f.goTo q)).fsmState = q := by
  simp [State.fsmState, State.setFsm, Fsm.goTo]

@[simp] theorem State.popInput_isIdle (s : State) : s.popInput.isIdle = s.isIdle := rfl
@[simp] theorem State.complete_isIdle (s : State) (a : Arch) (d : Option Word) (r : OutcomeRecord) :
    (s.complete a d r).isIdle = s.isIdle := rfl
@[simp] theorem State.assertReset_isIdle (s : State) (lines : LineInit) : (s.assertReset lines).isIdle = true := rfl

end Sys2Proof.Machine
end

