-- ==== Sys2Proof/Laws/Access.lean ====
section
/-! SUPPORT. What the cascade, a READ and a WRITE can do, each said once: the inversion lemmas that every invariant and frame
is derived from. -/

namespace Sys2Proof.Machine

/-! ## The statistics counter -/

/-- The counters after an L1 probe. -/
def Stats.withL1 (hit : Bool) (st : Stats) : Stats :=
  { st with accL1 := st.accL1 + 1, missL1 := if hit then st.missL1 else st.missL1 + 1 }
/-- The counters after a VC probe. -/
def Stats.withVC (hit : Bool) (st : Stats) : Stats :=
  { st with accVC := st.accVC + 1, missVC := if hit then st.missVC else st.missVC + 1 }
/-- The counters after an L2 probe. -/
def Stats.withL2 (hit : Bool) (st : Stats) : Stats :=
  { st with accL2 := st.accL2 + 1, missL2 := if hit then st.missL2 else st.missL2 + 1 }

theorem countOne_cases (cfg : Config) (n : Nat) :
    (fitsWidth cfg.statW (n + 1) = true ∧ countOne cfg n = .ok (n + 1)) ∨
    (cfg.statW ≠ none ∧ fitsWidth cfg.statW (n + 1) = false ∧ countOne cfg n = .error .statOverflow) := by
  unfold countOne
  by_cases h : fitsWidth cfg.statW (n + 1) = true
  · exact .inl ⟨h, if_pos h⟩
  · refine .inr ⟨fun hn => h (by simp [fitsWidth, hn]), by simpa using h, if_neg h⟩

theorem countMiss_cases (cfg : Config) (hit : Bool) (n : Nat) :
    countMiss cfg hit n = .ok (if hit then n else n + 1) ∨
    (cfg.statW ≠ none ∧ fitsWidth cfg.statW (n + 1) = false ∧ countMiss cfg hit n = .error .statOverflow) := by
  cases hit
  · rcases countOne_cases cfg n with h | h
    · exact .inl h.2
    · exact .inr h
  · exact .inl rfl

theorem probeL1_cases (cfg : Config) (hit : Bool) (st : Stats) :
    st.probeL1 cfg hit = .ok (st.withL1 hit) ∨
    (cfg.statW ≠ none ∧ (fitsWidth cfg.statW (st.accL1 + 1) = false ∨ fitsWidth cfg.statW (st.missL1 + 1) = false) ∧
      st.probeL1 cfg hit = .error .statOverflow) := by
  rcases countOne_cases cfg st.accL1 with h | h
  · rcases countMiss_cases cfg hit st.missL1 with h' | h'
    · exact .inl (by simp [Stats.probeL1, Stats.withL1, h.2, h', bind, Except.bind, pure, Except.pure])
    · exact .inr ⟨h'.1, .inr h'.2.1, by simp [Stats.probeL1, h.2, h'.2.2, bind, Except.bind]⟩
  · exact .inr ⟨h.1, .inl h.2.1, by simp [Stats.probeL1, h.2.2, bind, Except.bind]⟩

theorem probeVC_cases (cfg : Config) (hit : Bool) (st : Stats) :
    st.probeVC cfg hit = .ok (st.withVC hit) ∨
    (cfg.statW ≠ none ∧ (fitsWidth cfg.statW (st.accVC + 1) = false ∨ fitsWidth cfg.statW (st.missVC + 1) = false) ∧
      st.probeVC cfg hit = .error .statOverflow) := by
  rcases countOne_cases cfg st.accVC with h | h
  · rcases countMiss_cases cfg hit st.missVC with h' | h'
    · exact .inl (by simp [Stats.probeVC, Stats.withVC, h.2, h', bind, Except.bind, pure, Except.pure])
    · exact .inr ⟨h'.1, .inr h'.2.1, by simp [Stats.probeVC, h.2, h'.2.2, bind, Except.bind]⟩
  · exact .inr ⟨h.1, .inl h.2.1, by simp [Stats.probeVC, h.2.2, bind, Except.bind]⟩

theorem probeL2_cases (cfg : Config) (hit : Bool) (st : Stats) :
    st.probeL2 cfg hit = .ok (st.withL2 hit) ∨
    (cfg.statW ≠ none ∧ (fitsWidth cfg.statW (st.accL2 + 1) = false ∨ fitsWidth cfg.statW (st.missL2 + 1) = false) ∧
      st.probeL2 cfg hit = .error .statOverflow) := by
  rcases countOne_cases cfg st.accL2 with h | h
  · rcases countMiss_cases cfg hit st.missL2 with h' | h'
    · exact .inl (by simp [Stats.probeL2, Stats.withL2, h.2, h', bind, Except.bind, pure, Except.pure])
    · exact .inr ⟨h'.1, .inr h'.2.1, by simp [Stats.probeL2, h.2, h'.2.2, bind, Except.bind]⟩
  · exact .inr ⟨h.1, .inl h.2.1, by simp [Stats.probeL2, h.2.2, bind, Except.bind]⟩

/-! ## The cascade (R109) -/

/-- All that a cascade from an `L1[i]` that held `v` can leave. -/
inductive CascadeCase (cfg : Config) (v : L1Line) (i : Index) (x : Traced) : Traced → Prop where
  | skipped (hskip : cfg.policy = .skip ∧ v.valid = false) : CascadeCase cfg v i x x
  | free (k : Fin 4) (hmove : ¬(cfg.policy = .skip ∧ v.valid = false)) (hfree : IsFirstFree x.arch.vc k) :
      CascadeCase cfg v i x
        { arch := x.arch.setVc (placedIn x.arch.vc k (toVc cfg.policy v i)), record := x.record.withVc k false }
  | evict (j : Fin 4) (w : Fin 8) (real : Bool) (hmove : ¬(cfg.policy = .skip ∧ v.valid = false))
      (hfull : IsFull x.arch.vc) (hold : IsOldest x.arch.vc j)
      (hway : (IsFirstFree (x.arch.l2At (vcTagIndex x.arch.vc[j].tag)) w ∧ real = false) ∨
        (IsFull (x.arch.l2At (vcTagIndex x.arch.vc[j].tag)) ∧
          IsOldest (x.arch.l2At (vcTagIndex x.arch.vc[j].tag)) w ∧ real = true)) :
      CascadeCase cfg v i x
        { arch := (x.arch.setVc (placedIn x.arch.vc j (toVc cfg.policy v i))).setL2At (vcTagIndex x.arch.vc[j].tag)
            (placedIn (x.arch.l2At (vcTagIndex x.arch.vc[j].tag)) w (fromVc x.arch.vc[j].toLine))
          record := (x.record.withVc j true).withL2 (vcTagIndex x.arch.vc[j].tag) w real }

/-- A cascade does one of these, or exceeds a finite recency width; with room it does not. -/
theorem cascade_cases (cfg : Config) (v : L1Line) (i : Index) (x : Traced) :
    (∃ y, cascade cfg v i x = .ok y ∧ CascadeCase cfg v i x y) ∨
    (cfg.recencyW ≠ none ∧ cascade cfg v i x = .error .recencyOverflow ∧
      ¬(cfg.wf = true ∧ CanAge cfg x.arch.vc ∧ ∀ k, CanAge cfg (x.arch.l2At k))) := by
  by_cases hs : cfg.policy = .skip ∧ v.valid = false
  · exact .inl ⟨x, if_pos hs, .skipped hs⟩
  · unfold cascade
    rw [if_neg hs]
    rcases selectSlot_cases (n := 3) x.arch.vc with ⟨k, hk, hfree⟩ | ⟨j, hj, hfull, hold⟩
    · rcases place_cases cfg x.arch.vc k (toVc cfg.policy v i) with hp | hp
      · refine .inl ⟨_, ?_, .free k hs hfree⟩
        simp [placeInVc, hk, hp.2, bind, Except.bind, pure, Except.pure]
      · refine .inr ⟨hp.2.1, ?_, fun h => hp.1 (canAge_writtenSet _ _ h.1 h.2.1)⟩
        simp [placeInVc, hk, hp.2.2, bind, Except.bind]
    · rcases place_cases cfg x.arch.vc j (toVc cfg.policy v i) with hp | hp
      · rcases selectSlot_cases (n := 7) (x.arch.l2At (vcTagIndex x.arch.vc[j].tag)) with ⟨w, hw, hsel⟩ | ⟨w, hw, hsel⟩
        all_goals
          rcases place_cases cfg (x.arch.l2At (vcTagIndex x.arch.vc[j].tag)) w (fromVc x.arch.vc[j].toLine) with hq | hq
          · refine .inl ⟨_, ?_, .evict j w _ hs hfull hold (by first | exact .inl ⟨hsel, rfl⟩ | exact .inr ⟨hsel.1, hsel.2, rfl⟩)⟩
            simp only [Fin.getElem_fin] at hw hq
            simp [placeInVc, placeInL2, fromVcSet, hj, hp.2, hw, hq.2, bind, Except.bind, pure, Except.pure]
          · refine .inr ⟨hq.2.1, ?_, fun h => hq.1 (canAge_writtenSet _ _ h.1 (h.2.2 _))⟩
            simp only [Fin.getElem_fin] at hw hq
            simp [placeInVc, placeInL2, fromVcSet, hj, hp.2, hw, hq.2.2, bind, Except.bind, pure, Except.pure]
      · refine .inr ⟨hp.2.1, ?_, fun h => hp.1 (canAge_writtenSet _ _ h.1 h.2.1)⟩
        simp [placeInVc, hj, hp.2.2, bind, Except.bind]

/-! ## READ -/

/-- Where the word of a fill comes from (R136, R138). -/
def FillSource (cfg : Config) (a : Arch) (addr : Addr) (lv : Level) (d : Word) : Prop :=
  (∃ w, lv = .l2 ∧ l2First a (addrIndex addr) (addrTag addr) = some w ∧ d = (a.l2At (addrIndex addr))[w].data) ∨
  (lv = .mem ∧ l2First a (addrIndex addr) (addrTag addr) = none ∧ d = a.memRead cfg.dataW addr)

/-- All that a READ can leave (R130). -/
inductive ReadCase (cfg : Config) (addr : Addr) (a : Arch) : ReadDone → Prop where
  | l1Hit (h1 : l1Match a (addrIndex addr) (addrTag addr) = true) :
      ReadCase cfg addr a
        { arch := a.setStat (a.stat.afterRead .l1), word := (a.l1At (addrIndex addr)).data, record := .blank }
  | vcHit (j : Fin 4) (h1 : l1Match a (addrIndex addr) (addrTag addr) = false)
      (h2 : vcFirst a (addrTag addr) (addrIndex addr) = some j) :
      ReadCase cfg addr a
        { arch := (((a.setStat (a.stat.afterRead .vc)).setL1At (addrIndex addr)
            { tag := vcTagTag a.vc[j].tag, data := a.vc[j].data, valid := true }).setVc
              (placedIn a.vc j (toVc cfg.policy (a.l1At (addrIndex addr)) (addrIndex addr))))
          word := a.vc[j].data, record := { OutcomeRecord.blank with level := .vc }.withVc j false }
  | fill (lv : Level) (d : Word) (y : Traced) (h1 : l1Match a (addrIndex addr) (addrTag addr) = false)
      (h2 : vcFirst a (addrTag addr) (addrIndex addr) = none) (hsrc : FillSource cfg a addr lv d)
      (hy : CascadeCase cfg (a.l1At (addrIndex addr)) (addrIndex addr)
        { arch := fillL1 (addrTag addr) (addrIndex addr) d (a.setStat (a.stat.afterRead lv))
          record := { OutcomeRecord.blank with level := lv } } y) :
      ReadCase cfg addr a { arch := y.arch, word := d, record := y.record }

/-- Why a READ from `a` can stop: a finite width is exceeded, of a counter (R174) or of a recency (R117). -/
def ReadStops (cfg : Config) (a : Arch) (r : Refusal) : Prop :=
  (cfg.statW ≠ none ∧ r = .statOverflow ∧ ∃ n ∈ a.stat.readout, fitsWidth cfg.statW (n + 1) = false) ∨
  (cfg.recencyW ≠ none ∧ r = .recencyOverflow ∧ ¬(cfg.wf = true ∧ CanAge cfg a.vc ∧ ∀ k, CanAge cfg (a.l2At k)))

theorem finishFill_cases {cfg : Config} {addr : Addr} {a : Arch} {lv : Level} {d : Word}
    (h1 : l1Match a (addrIndex addr) (addrTag addr) = false) (h2 : vcFirst a (addrTag addr) (addrIndex addr) = none)
    (hsrc : FillSource cfg a addr lv d) :
    (∃ x, finishFill cfg addr lv d (a.setStat (a.stat.afterRead lv)) = .ok x ∧ ReadCase cfg addr a x) ∨
    (∃ r, finishFill cfg addr lv d (a.setStat (a.stat.afterRead lv)) = .error r ∧ ReadStops cfg a r) := by
  rcases cascade_cases cfg (a.l1At (addrIndex addr)) (addrIndex addr)
    { arch := fillL1 (addrTag addr) (addrIndex addr) d (a.setStat (a.stat.afterRead lv))
      record := { OutcomeRecord.blank with level := lv } } with ⟨y, hy, hc⟩ | ⟨hn, hy, hroom⟩
  · exact .inl ⟨_, by simp [finishFill, fillAndCascade, hy, bind, Except.bind, pure, Except.pure],
      .fill lv d y h1 h2 hsrc hc⟩
  · exact .inr ⟨_, by simp [finishFill, fillAndCascade, hy, bind, Except.bind], .inr ⟨hn, rfl, hroom⟩⟩

theorem searchL2_cases {cfg : Config} {addr : Addr} {a : Arch}
    (h1 : l1Match a (addrIndex addr) (addrTag addr) = false) (h2 : vcFirst a (addrTag addr) (addrIndex addr) = none) :
    (∃ x, searchL2 cfg addr (a.setStat ((a.stat.withL1 false).withVC false)) = .ok x ∧ ReadCase cfg addr a x) ∨
    (∃ r, searchL2 cfg addr (a.setStat ((a.stat.withL1 false).withVC false)) = .error r ∧ ReadStops cfg a r) := by
  have hl2 : l2First (a.setStat ((a.stat.withL1 false).withVC false)) (addrIndex addr) (addrTag addr) =
      l2First a (addrIndex addr) (addrTag addr) := rfl
  unfold searchL2
  simp only [hl2, Arch.setStat_stat]
  rcases probeL2_cases cfg (l2First a (addrIndex addr) (addrTag addr)).isSome ((a.stat.withL1 false).withVC false) with
    hp | ⟨hn, hf, hp⟩
  · simp only [hp, bind, Except.bind]
    cases h3 : l2First a (addrIndex addr) (addrTag addr) with
    | some w => exact finishFill_cases h1 h2 (lv := .l2) (.inl ⟨w, rfl, h3, rfl⟩)
    | none => exact finishFill_cases h1 h2 (lv := .mem) (.inr ⟨rfl, h3, rfl⟩)
  · refine .inr ⟨.statOverflow, by simp only [hp, bind, Except.bind], .inl ⟨hn, rfl, ?_⟩⟩
    rcases hf with hf | hf
    · exact ⟨a.stat.accL2, by simp [Stats.readout], hf⟩
    · exact ⟨a.stat.missL2, by simp [Stats.readout], hf⟩

theorem searchVC_cases {cfg : Config} {addr : Addr} {a : Arch}
    (h1 : l1Match a (addrIndex addr) (addrTag addr) = false) :
    (∃ x, searchVC cfg addr (a.setStat (a.stat.withL1 false)) = .ok x ∧ ReadCase cfg addr a x) ∨
    (∃ r, searchVC cfg addr (a.setStat (a.stat.withL1 false)) = .error r ∧ ReadStops cfg a r) := by
  have hvc : vcFirst (a.setStat (a.stat.withL1 false)) (addrTag addr) (addrIndex addr) =
      vcFirst a (addrTag addr) (addrIndex addr) := rfl
  unfold searchVC
  simp only [hvc, Arch.setStat_stat]
  rcases probeVC_cases cfg (vcFirst a (addrTag addr) (addrIndex addr)).isSome (a.stat.withL1 false) with
    hp | ⟨hn, hf, hp⟩
  · simp only [hp, bind, Except.bind]
    cases h2 : vcFirst a (addrTag addr) (addrIndex addr) with
    | some j =>
      rcases place_cases cfg a.vc j (toVc cfg.policy (a.l1At (addrIndex addr)) (addrIndex addr)) with hq | hq
      · refine .inl ⟨_, ?_, .vcHit j h1 h2⟩
        simp only [vcSwap, Arch.setStat_vc, Arch.setStat_l1At, hq.2, bind, Except.bind]
        rfl
      · refine .inr ⟨.recencyOverflow, ?_, .inr ⟨hq.2.1, rfl, fun h => hq.1 (canAge_writtenSet _ _ h.1 h.2.1)⟩⟩
        simp only [vcSwap, Arch.setStat_vc, Arch.setStat_l1At, hq.2.2, bind, Except.bind]
    | none => exact searchL2_cases h1 h2
  · refine .inr ⟨.statOverflow, by simp only [hp, bind, Except.bind], .inl ⟨hn, rfl, ?_⟩⟩
    rcases hf with hf | hf
    · exact ⟨a.stat.accVC, by simp [Stats.readout], hf⟩
    · exact ⟨a.stat.missVC, by simp [Stats.readout], hf⟩

/-- A READ does one of the things `ReadCase` lists, or stops at a finite width. -/
theorem searchL1_cases (cfg : Config) (addr : Addr) (a : Arch) :
    (∃ x, searchL1 cfg addr a = .ok x ∧ ReadCase cfg addr a x) ∨
    (∃ r, searchL1 cfg addr a = .error r ∧ ReadStops cfg a r) := by
  unfold searchL1
  rcases probeL1_cases cfg (l1Match a (addrIndex addr) (addrTag addr)) a.stat with hp | ⟨hn, hf, hp⟩
  · simp only [hp, bind, Except.bind]
    cases h1 : l1Match a (addrIndex addr) (addrTag addr) with
    | true => exact .inl ⟨_, rfl, .l1Hit h1⟩
    | false => exact searchVC_cases h1
  · refine .inr ⟨.statOverflow, by simp only [hp, bind, Except.bind], .inl ⟨hn, rfl, ?_⟩⟩
    rcases hf with hf | hf
    · exact ⟨a.stat.accL1, by simp [Stats.readout], hf⟩
    · exact ⟨a.stat.missL1, by simp [Stats.readout], hf⟩

/-- All that READ answers. -/
theorem execRead_cases (addr : Addr) (s : State) :
    (∃ x, execRead addr s = .next (s.complete x.arch (some x.word) x.record) ∧ ReadCase s.cfg addr s.arch x) ∨
    (∃ r, execRead addr s = .refused r ∧ ReadStops s.cfg s.arch r) := by
  unfold execRead
  rcases searchL1_cases s.cfg addr s.arch with ⟨x, hx, hc⟩ | ⟨r, hr, hc⟩
  · exact .inl ⟨x, by rw [hx], hc⟩
  · exact .inr ⟨r, by rw [hr], hc⟩

theorem execRead_next {addr : Addr} {s t : State} (h : execRead addr s = .next t) :
    ∃ x, t = s.complete x.arch (some x.word) x.record ∧ ReadCase s.cfg addr s.arch x := by
  rcases execRead_cases addr s with ⟨x, hx, hc⟩ | ⟨r, hr, -⟩
  · rw [hx] at h
    cases h
    exact ⟨x, rfl, hc⟩
  · rw [hr] at h
    cases h

/-- With room below the bounds a READ does not stop. -/
theorem Headroom.not_stops {s : State} (h : s.Headroom) (r : Refusal) : ¬ReadStops s.cfg s.arch r := by
  rintro (⟨-, -, n, hn, hf⟩ | ⟨-, -, hf⟩)
  · rw [h.stat n hn] at hf; cases hf
  · exact hf ⟨h.widths, h.vc, h.l2⟩

/-! ## WRITE -/

theorem writeL1_l1At (i j : Index) (t : Tag) (d : Word) (a : Arch) :
    (writeL1 i t d a).l1At j = { a.l1At j with
      data := if j = i ∧ (a.l1At j).valid = true ∧ (a.l1At j).tag = t then d else (a.l1At j).data } := by
  unfold writeL1
  by_cases h : l1Match a i t = true
  · rw [if_pos h]
    have h' := l1Match_iff.mp h
    by_cases hij : j = i
    · subst hij; simp [h']
    · simp [Arch.setL1At_l1At_other _ _ hij, hij]
  · rw [if_neg h]
    have h' := mt l1Match_iff.mpr h
    by_cases hij : j = i
    · subst hij; simp [h']
    · simp [hij]

@[simp] theorem writeL1_vc (i : Index) (t : Tag) (d : Word) (a : Arch) : (writeL1 i t d a).vc = a.vc := by
  unfold writeL1; split <;> rfl
@[simp] theorem writeL1_l2 (i : Index) (t : Tag) (d : Word) (a : Arch) : (writeL1 i t d a).l2 = a.l2 := by
  unfold writeL1; split <;> rfl
@[simp] theorem writeL1_l2At (i k : Index) (t : Tag) (d : Word) (a : Arch) : (writeL1 i t d a).l2At k = a.l2At k := by
  unfold writeL1; split <;> rfl
@[simp] theorem writeL1_stat (i : Index) (t : Tag) (d : Word) (a : Arch) : (writeL1 i t d a).stat = a.stat := by
  unfold writeL1; split <;> rfl
@[simp] theorem writeL1_mem (i : Index) (t : Tag) (d : Word) (a : Arch) : (writeL1 i t d a).mem = a.mem := by
  unfold writeL1; split <;> rfl

theorem writeCaches_l1At (addr : Addr) (d : Word) (a : Arch) (j : Index) :
    (writeCaches addr d a).l1At j = { a.l1At j with
      data := if j = addrIndex addr ∧ (a.l1At j).valid = true ∧ (a.l1At j).tag = addrTag addr then d
              else (a.l1At j).data } := by
  rw [← writeL1_l1At]
  rfl

theorem writeCaches_vc (addr : Addr) (d : Word) (a : Arch) (j : Fin 4) :
    (writeCaches addr d a).vc[j] = { a.vc[j] with
      data := if a.vc[j].valid = true ∧ a.vc[j].tag = vcKey (addrTag addr) (addrIndex addr) then d else a.vc[j].data } := by
  rw [← updateMatching_getElem]
  simp [writeCaches, writeL2, writeVC]

theorem writeCaches_l2At (addr : Addr) (d : Word) (a : Arch) (k : Index) (w : Fin 8) :
    ((writeCaches addr d a).l2At k)[w] = { (a.l2At k)[w] with
      data := if k = addrIndex addr ∧ (a.l2At k)[w].valid = true ∧ (a.l2At k)[w].tag = addrTag addr then d
              else (a.l2At k)[w].data } := by
  unfold writeCaches writeL2
  by_cases hk : k = addrIndex addr
  · subst hk
    rw [Arch.setL2At_l2At_same, updateMatching_getElem]
    simp [writeVC]
  · rw [Arch.setL2At_l2At_other _ _ hk]
    simp [writeVC, hk]

@[simp] theorem writeCaches_stat (addr : Addr) (d : Word) (a : Arch) : (writeCaches addr d a).stat = a.stat := by
  simp [writeCaches, writeL2, writeVC]
@[simp] theorem writeCaches_mem (addr : Addr) (d : Word) (a : Arch) : (writeCaches addr d a).mem = a.mem := by
  simp [writeCaches, writeL2, writeVC]

theorem execWrite_next {addr : Addr} {d : Word} {s t : State} (h : execWrite addr d s = .next t) :
    t = s.complete ((writeCaches addr d s.arch).memWrite s.cfg.dataW addr d) none (writeRecord addr s.arch) := by
  unfold execWrite at h
  cases h
  rfl

end Sys2Proof.Machine
end

