-- ==== Sys2Proof/Laws/Encoding.lean ====
section
/-! SUPPORT. The fields of a packed request word and of a re-encoded tag, each recovered. -/

namespace Sys2Proof

variable {dw : Nat}

@[simp] theorem reqIsRead_packReq (b c : Bool) (a : Addr) (d : Word) : reqIsRead (packReq dw b c a d) = b := by
  have h1 : ¬13 + dw < dw := by omega
  have h2 : 13 + dw - dw = 13 := by omega
  simp only [reqIsRead, packReq, BitVec.getLsbD_cast, BitVec.getLsbD_append]
  simp [h1, h2]

@[simp] theorem reqIsWrite_packReq (b c : Bool) (a : Addr) (d : Word) : reqIsWrite (packReq dw b c a d) = c := by
  have h1 : ¬12 + dw < dw := by omega
  have h2 : 12 + dw - dw = 12 := by omega
  simp only [reqIsWrite, packReq, BitVec.getLsbD_cast, BitVec.getLsbD_append]
  simp [h1, h2]

@[simp] theorem reqAddr_packReq (b c : Bool) (a : Addr) (d : Word) : reqAddr (packReq dw b c a d) = a := by
  apply BitVec.eq_of_getLsbD_eq
  intro i hi
  have h1 : ¬dw + i < dw := by omega
  have h2 : dw + i - dw = i := by omega
  simp only [reqAddr, packReq, BitVec.getLsbD_extractLsb', BitVec.getLsbD_cast, BitVec.getLsbD_append]
  simp [hi, h2]

/-- The data field keeps the low `DATA_W` bits; a word that fits is kept whole. -/
@[simp] theorem reqData_packReq (b c : Bool) (a : Addr) (d : Word) : reqData (packReq dw b c a d) = d % 2 ^ dw := by
  rw [← BitVec.toNat_ofNat]
  unfold reqData
  congr 1
  apply BitVec.eq_of_getLsbD_eq
  intro i hi
  simp only [packReq, BitVec.getLsbD_extractLsb', BitVec.getLsbD_cast, BitVec.getLsbD_append]
  simp [hi]

theorem mod_of_fits {d : Word} (h : fitsWord dw d = true) : d % 2 ^ dw = d := Nat.mod_eq_of_lt (of_decide_eq_true h)

theorem reqData_fits (w : ReqWord dw) : fitsWord dw (reqData w) = true := decide_eq_true (BitVec.isLt _)

/-- A request word is its four fields (R71). -/
theorem packReq_fields (w : ReqWord dw) : packReq dw (reqIsRead w) (reqIsWrite w) (reqAddr w) (reqData w) = w := by
  apply BitVec.eq_of_getLsbD_eq
  intro i hi
  simp only [packReq, reqIsRead, reqIsWrite, reqAddr, reqData, BitVec.ofNat_toNat, BitVec.setWidth_eq, BitVec.getLsbD_cast,
    BitVec.getLsbD_append, BitVec.getLsbD_extractLsb', BitVec.getLsbD_ofBool]
  by_cases h1 : i < dw
  · simp [h1]
  · by_cases h2 : i - dw < 12
    · have h4 : dw + (i - dw) = i := by omega
      simp [h1, h2, h4]
    · rcases (by omega : i = 12 + dw ∨ i = 13 + dw) with rfl | rfl
      · have h5 : 12 + dw - dw = 12 := by omega
        simp [h1, h5]
      · have h5 : 13 + dw - dw = 13 := by omega
        simp [h1, h5]

/-- Two packed words of data that fits are equal only field by field. -/
theorem packReq_inj {b c b' c' : Bool} {a a' : Addr} {d d' : Word} (hd : fitsWord dw d = true) (hd' : fitsWord dw d' = true)
    (h : packReq dw b c a d = packReq dw b' c' a' d') : b = b' ∧ c = c' ∧ a = a' ∧ d = d' :=
  ⟨by simpa using congrArg reqIsRead h, by simpa using congrArg reqIsWrite h, by simpa using congrArg reqAddr h,
    by simpa [mod_of_fits hd, mod_of_fits hd'] using congrArg reqData h⟩

/-- What a request word decodes to is well-formed (R76). -/
theorem decode_wf {w : ReqWord dw} {i : Instr} (h : decode dw w = .ok i) : i.wf dw = true := by
  unfold decode decodeFields at h
  split at h <;> cases h
  · rfl
  · exact reqData_fits w

theorem dataOfInt_fits (d : Int) : fitsWord dw (dataOfInt dw d) = true := decide_eq_true (BitVec.isLt _)

namespace Machine

@[simp] theorem vcTagTag_vcKey (t : Tag) (i : Index) : vcTagTag (vcKey t i) = t := by
  apply BitVec.eq_of_getLsbD_eq
  intro k hk
  simp only [vcTagTag, vcKey, BitVec.getLsbD_extractLsb', BitVec.getLsbD_cast, BitVec.getLsbD_append]
  simp [hk]

@[simp] theorem vcTagIndex_vcKey (t : Tag) (i : Index) : vcTagIndex (vcKey t i) = i := by
  apply BitVec.eq_of_getLsbD_eq
  intro k hk
  simp only [vcTagIndex, vcKey, BitVec.getLsbD_extractLsb', BitVec.getLsbD_cast, BitVec.getLsbD_append]
  simp [hk]

@[simp] theorem vcKey_parts (v : VcTag) : vcKey (vcTagTag v) (vcTagIndex v) = v := by
  apply BitVec.eq_of_getLsbD_eq
  intro k hk
  simp only [vcTagTag, vcTagIndex, vcKey, BitVec.getLsbD_cast, BitVec.getLsbD_append, BitVec.getLsbD_extractLsb']
  by_cases h : k < 4
  · simp [h]
  · have h1 : k - 4 < 6 := by omega
    have h2 : 4 + (k - 4) = k := by omega
    simp [h, h1, h2]

/-- Two VC keys are equal only if tag and index are. -/
theorem vcKey_inj {t t' : Tag} {i i' : Index} : vcKey t i = vcKey t' i' ↔ t = t' ∧ i = i' :=
  ⟨fun h => ⟨by simpa using congrArg vcTagTag h, by simpa using congrArg vcTagIndex h⟩, fun ⟨h, h'⟩ => h ▸ h' ▸ rfl⟩

end Machine

end Sys2Proof
end

