-- ==== Sys2Proof/Laws/Memory.lean ====
section
/-! SUPPORT. The laws of the backing memory: a read after a write, and that a write keeps the canonical form. -/

namespace Sys2Proof.Machine

/-! ## Lists of cells -/

variable {dw : Nat}

theorem cellsWf_cons {lo : Nat} {c : Nat × Word} {rest : List (Nat × Word)} :
    cellsWf dw lo (c :: rest) = true ↔
      lo ≤ c.1 ∧ c.1 < 4096 ∧ (fitsWord dw c.2 = true ∧ c.2 ≠ memUnlisted dw c.1) ∧ cellsWf dw (c.1 + 1) rest = true := by
  simp [cellsWf, and_assoc]

theorem cellsWf_mono {lo lo' : Nat} {cells : List (Nat × Word)} (h : lo' ≤ lo) (hw : cellsWf dw lo cells = true) :
    cellsWf dw lo' cells = true := by
  cases cells with
  | nil => rfl
  | cons c rest =>
    rw [cellsWf_cons] at *
    exact ⟨by omega, hw.2⟩

/-- Below the first address of a rising list nothing is listed. -/
theorem lookupCell_eq_none_of_lt {lo addr : Nat} {cells : List (Nat × Word)} (hw : cellsWf dw lo cells = true)
    (h : addr < lo) : lookupCell addr cells = none := by
  induction cells generalizing lo with
  | nil => rfl
  | cons c rest ih =>
    rw [cellsWf_cons] at hw
    have : c.1 ≠ addr := by omega
    simp only [lookupCell, this, if_false]
    exact ih hw.2.2.2 (by omega)

theorem lookupCell_insertCell_same (addr : Nat) (v : Word) (cells : List (Nat × Word)) :
    lookupCell addr (insertCell addr v cells) = some v := by
  induction cells with
  | nil => simp [insertCell, lookupCell]
  | cons c rest ih =>
    unfold insertCell
    split
    · simp [lookupCell]
    · split
      · simp [lookupCell]
      · rename_i h
        simp [lookupCell, Ne.symm h, ih]

theorem lookupCell_insertCell_other {addr other : Nat} (v : Word) (cells : List (Nat × Word)) (h : other ≠ addr) :
    lookupCell other (insertCell addr v cells) = lookupCell other cells := by
  induction cells with
  | nil => simp [insertCell, lookupCell, Ne.symm h]
  | cons c rest ih =>
    unfold insertCell
    split
    · simp [lookupCell, Ne.symm h]
    · split
      · rename_i h'
        simp [lookupCell, h', h' ▸ Ne.symm h]
      · simp [lookupCell, ih]

theorem lookupCell_eraseCell_other {addr other : Nat} (cells : List (Nat × Word)) (h : other ≠ addr) :
    lookupCell other (eraseCell addr cells) = lookupCell other cells := by
  induction cells with
  | nil => rfl
  | cons c rest ih =>
    unfold eraseCell
    split
    · rename_i h'
      simp [lookupCell, h', Ne.symm h, ih]
    · simp [lookupCell, ih]

theorem lookupCell_eraseCell_same (addr : Nat) (cells : List (Nat × Word)) :
    lookupCell addr (eraseCell addr cells) = none := by
  induction cells with
  | nil => rfl
  | cons c rest ih =>
    unfold eraseCell
    split
    · exact ih
    · rename_i h
      simp [lookupCell, h, ih]

theorem cellsWf_insertCell {lo addr : Nat} {v : Word} {cells : List (Nat × Word)} (hw : cellsWf dw lo cells = true)
    (hlo : lo ≤ addr) (ha : addr < 4096) (hv : fitsWord dw v = true ∧ v ≠ memUnlisted dw addr) : cellsWf dw lo (insertCell addr v cells) = true := by
  induction cells generalizing lo with
  | nil => simp [insertCell, cellsWf, hlo, ha, hv.1, hv.2]
  | cons c rest ih =>
    have hw' := cellsWf_cons.mp hw
    unfold insertCell
    split
    · rename_i h
      exact cellsWf_cons.mpr ⟨hlo, ha, hv, cellsWf_cons.mpr ⟨h, hw'.2⟩⟩
    · split
      · rename_i h
        exact cellsWf_cons.mpr ⟨hlo, ha, hv, h ▸ hw'.2.2.2⟩
      · exact cellsWf_cons.mpr ⟨hw'.1, hw'.2.1, hw'.2.2.1, ih hw'.2.2.2 (by omega)⟩

theorem cellsWf_eraseCell {lo addr : Nat} {cells : List (Nat × Word)} (hw : cellsWf dw lo cells = true) :
    cellsWf dw lo (eraseCell addr cells) = true := by
  induction cells generalizing lo with
  | nil => rfl
  | cons c rest ih =>
    have hw' := cellsWf_cons.mp hw
    unfold eraseCell
    split
    · exact ih (cellsWf_mono (by omega) hw'.2.2.2)
    · exact cellsWf_cons.mpr ⟨hw'.1, hw'.2.1, hw'.2.2.1, ih hw'.2.2.2⟩

/-! ## Memory -/

theorem memUnlisted_fits (addr : Nat) : fitsWord dw (memUnlisted dw addr) = true :=
  decide_eq_true (Nat.mod_lt _ (Nat.two_pow_pos dw))

theorem Memory.read_write_other (m : Memory) {addr other : Nat} (v : Word) (h : other ≠ addr) :
    (m.write dw addr v).read dw other = m.read dw other := by
  unfold Memory.read Memory.write
  split <;> simp [lookupCell_eraseCell_other _ h, lookupCell_insertCell_other _ _ h]

theorem Memory.read_write_same (m : Memory) (addr : Nat) (v : Word) : (m.write dw addr v).read dw addr = v := by
  unfold Memory.read Memory.write
  split
  · rename_i h
    simp [lookupCell_eraseCell_same, h]
  · simp [lookupCell_insertCell_same]

/-- A write of a word that fits keeps the canonical form. -/
theorem Memory.wf_write {m : Memory} (hw : m.wf dw = true) {addr : Nat} {v : Word} (hv : fitsWord dw v = true)
    (ha : addr < 4096) : (m.write dw addr v).wf dw = true := by
  unfold Memory.wf Memory.write at *
  split
  · exact cellsWf_eraseCell hw
  · rename_i h
    exact cellsWf_insertCell hw (Nat.zero_le _) ha ⟨hv, h⟩

theorem fitsWord_lookupCell {lo addr : Nat} {cells : List (Nat × Word)} {v : Word} (hw : cellsWf dw lo cells = true)
    (h : lookupCell addr cells = some v) : fitsWord dw v = true := by
  induction cells generalizing lo with
  | nil => cases h
  | cons c rest ih =>
    have hw' := cellsWf_cons.mp hw
    unfold lookupCell at h
    split at h
    · cases h; exact hw'.2.2.1.1
    · exact ih hw'.2.2.2 h

/-- Every word of a memory in canonical form fits. -/
theorem Memory.fits_read {m : Memory} (hw : m.wf dw = true) (addr : Nat) : fitsWord dw (m.read dw addr) = true := by
  unfold Memory.read
  cases h : lookupCell addr m.cells with
  | none => exact memUnlisted_fits addr
  | some v => exact fitsWord_lookupCell hw h

theorem Memory.wf_nil : ({ cells := [] } : Memory).wf dw = true := rfl

end Sys2Proof.Machine
end

