-- ==== Sys2Proof/Laws/PerInstr.lean ====
section
/-! SUPPORT. Statements made per operation, as syntax: the tuple of a well-formed operation is inside the requester's contract
(R272), and its request word has its flags (R72). -/

namespace Sys2Proof

variable {dw : Nat}

theorem TraceOp.wf_of {t : TraceOp} (h : t.isRead ≠ t.isWrite) (ha : 0 ≤ t.address ∧ t.address < 2 ^ 12)
    (hd : -(2 ^ (dw - 1)) ≤ t.data ∧ t.data < 2 ^ (dw - 1)) : t.wf dw = true := by
  simp only [TraceOp.wf, Bool.and_eq_true]
  exact ⟨⟨bne_iff_ne.mpr h, decide_eq_true ha⟩, decide_eq_true hd⟩

namespace Laws.Contract

/-- At every `DATA_W` the tuple of the operation, if that is well-formed, is legal, and its request word is not a reserved
one. -/
def Statement (i : Instr) : Prop :=
  ∀ dw : Nat, i.wf dw = true → (i.toTrace dw).wf dw = true ∧ reqIsRead (encode dw i) ≠ reqIsWrite (encode dw i)

theorem read (a : Addr) : Statement (.read a) := fun dw _ =>
  ⟨TraceOp.wf_of (by simp [Instr.toTrace, TraceOp.rd]) (by have := a.isLt; simp [Instr.toTrace, TraceOp.rd]; omega)
    (by
      have : (0 : Int) < 2 ^ (dw - 1) := Int.pow_pos (by decide)
      simp only [Instr.toTrace, TraceOp.rd]
      omega), by simp [encode]⟩

theorem write (a : Addr) (d : Word) : Statement (.write a d) := fun dw _ =>
  ⟨TraceOp.wf_of (by simp [Instr.toTrace, TraceOp.wr]) (by have := a.isLt; simp [Instr.toTrace, TraceOp.wr]; omega)
    ⟨BitVec.le_toInt _, BitVec.toInt_lt⟩, by simp [encode]⟩

end Laws.Contract

end Sys2Proof
end

