-- ==== Sys2Proof/Tests/Slice0.lean ====
section
/-! SUPPORT. Tests against the spec's own vectors (spec/95_test_vectors.md: V1 to V38, X1 to X3, P1 to P8), and for every
statement with hypotheses a witness that meets them. -/

namespace Sys2Proof.Tests

open Sys2Proof.Machine

/-! ## Helpers -/

/-- The outcome is a next state in which `p` holds. -/
def after (o : Host.Outcome State Fault Refusal) (p : State → Bool) : Bool :=
  match o with
  | .next t => p t
  | _ => false

/-- The outcome is that refusal. -/
def refusedWith (o : Host.Outcome State Fault Refusal) (r : Refusal) : Bool :=
  match o with
  | .refused q => q == r
  | _ => false

theorem next_of_after {o : Host.Outcome State Fault Refusal} {p : State → Bool} (h : after o p = true) :
    ∃ t, o = .next t ∧ p t = true := by
  cases o with
  | next t => exact ⟨t, rfl, h⟩
  | fault r => cases r
  | refused r => cases h

/-- A valid line in `L1[i]`. -/
def withL1 (i : Index) (t d : Nat) (s : State) : State :=
  s.setArch (s.arch.setL1At i { tag := BitVec.ofNat 6 t, data := d, valid := true })

/-- A valid line in `VC[j]`. -/
def withVc (j : Fin 4) (t d r : Nat) (s : State) : State :=
  s.setArch (s.arch.setVc (s.arch.vc.set j
    { tag := BitVec.ofNat 10 t, data := d, valid := true, recency := r }))

/-- A valid line in `L2[k]`, way `w`. -/
def withL2 (k : Index) (w : Fin 8) (t d r : Nat) (s : State) : State :=
  s.setArch (s.arch.setL2At k ((s.arch.l2At k).set w
    { tag := BitVec.ofNat 6 t, data := d, valid := true, recency := r }))

/-- The machine built for other parameters. -/
def withCfg (c : Config) (s : State) : State := { s with cfg := c }

/-- The machine with one input queued. -/
def withInput (x : Input) (s : State) : State := { s with inbox := [x] }

/-- A line of a VC or L2 set as the spec's tables write it: tag, data, recency; `none` if invalid. -/
def show3 {w : Nat} (l : AgedLine w) : Option (Nat × Nat × Nat) :=
  if l.valid then some (l.tag.toNat, l.data, l.recency) else none

/-- The four slots of VC. -/
def vcList (s : State) : List (Option (Nat × Nat × Nat)) := [show3 s.arch.vc[0], show3 s.arch.vc[1], show3 s.arch.vc[2], show3 s.arch.vc[3]]

/-- `L1[i]`, if valid. -/
def l1Show (s : State) (i : Index) : Option (Nat × Nat) :=
  if (s.arch.l1At i).valid then some ((s.arch.l1At i).tag.toNat, (s.arch.l1At i).data) else none

/-- The word of the latest response. -/
def word (s : State) : Option Nat := s.resp.bind Response.rdata

/-- `L1[2]` holds tag 1 (V26). -/
def hitState : State := State.reset |> withL1 2 1 1072
/-- V27. -/
def vcState : State := State.reset |> withL1 2 2 1136 |> withVc 0 18 1072 0
/-- VC full with blocks {1,2} to {4,2}, `L1[2]` holds tag 5 (V21, X3 after fill 5). -/
def fullState : State :=
  State.reset |> withL1 2 5 1328 |> withVc 0 18 1072 3 |> withVc 1 34 1136 2 |> withVc 2 50 1200 1 |> withVc 3 66 1264 0
/-- V28. -/
def l2State : State :=
  State.reset |> withL1 2 6 1392 |> withVc 0 82 1328 0 |> withVc 1 34 1136 3 |> withVc 2 50 1200 2 |> withVc 3 66 1264 1
    |> withL2 2 0 1 1072 0
/-- V24. -/
def fullL2State : State :=
  State.reset |> withL1 2 13 1840 |> withVc 0 146 1584 3 |> withVc 1 162 1648 2 |> withVc 2 178 1712 1 |> withVc 3 194 1776 0
    |> withL2 2 0 1 1072 7 |> withL2 2 1 2 1136 6 |> withL2 2 2 3 1200 5 |> withL2 2 3 4 1264 4 |> withL2 2 4 5 1328 3
    |> withL2 2 5 6 1392 2 |> withL2 2 6 7 1456 1 |> withL2 2 7 8 1520 0

/-! ## One step of each operation -/

theorem test_read_memory : after (exec (.read 72) State.reset) (fun t =>
    word t == some 1072 && l1Show t 2 == some (1, 1072) && t.arch.stat.readout == [1, 1, 1, 1, 1, 1]) = true := by decide

theorem test_read_l2_hit : after (exec (.read 72) l2State) (fun t =>
    vcList t == [some (82, 1328, 1), some (98, 1392, 0), some (50, 1200, 3), some (66, 1264, 2)] &&
    show3 (t.arch.l2At 2)[0] == some (1, 1072, 1) && show3 (t.arch.l2At 2)[1] == some (2, 1136, 0)) = true := by decide

theorem test_write_updates_l1_and_l2 : after (exec (.write 72 77) (hitState |> withL2 2 0 1 1072 1)) (fun t =>
    l1Show t 2 == some (1, 77) && show3 (t.arch.l2At 2)[0] == some (1, 77, 1) && t.arch.mem.read 32 72 == 77) = true := by decide

theorem test_write_absent_installs_nothing : after (exec (.write 136 0xFFFFFFF9) hitState) (fun t =>
    l1Show t 2 == some (1, 1072) && vcList t == [none, none, none, none] && t.arch.mem.read 32 136 == 0xFFFFFFF9 &&
    t.arch.mem.read 32 72 == 1072) = true := by decide

/-! ## Encoding: request words written out from R71 and R72 -/

/-- V7: flags 10, tag 000001, index 0010, offset 00, data 0. -/
theorem test_decode_read_word : decode 32 0b10_000001_0010_00_00000000000000000000000000000000#46 = .ok (.read 72) := by decide
/-- A READ's data field is ignored (R140); tag 63, index 15, offset 3 (V2). -/
theorem test_decode_read_ignores_data :
    decode 32 0b10_111111_1111_11_10000000000000000000000000000001#46 = .ok (.read 4095) := by decide
/-- V9: flags 01, address 200, data -1. -/
theorem test_decode_write_word :
    decode 32 0b01_000011_0010_00_11111111111111111111111111111111#46 = .ok (.write 200 0xFFFFFFFF) := by decide
/-- V10. -/
theorem test_decode_reserved : decode 32 0b00_000001_0010_00_00000000000000000000000000000000#46 = .error .reservedOp ∧
    decode 32 0b11_000001_0010_00_00000000000000000000000000000000#46 = .error .reservedOp := by decide
/-- V7, V8. -/
theorem test_encode : encode 32 (.read 72) = 0x204800000000#46 ∧ encode 32 (.write 72 5) = 0x104800000005#46 := by decide
/-- V9. -/
theorem test_trace_tuple : TraceOp.toReq 32 (.wr 200 (-1)) = .ok 0x10C8FFFFFFFF#46 := by decide
/-- V8, V9. -/
theorem test_trace_line : (TraceOp.wr 200 (-1)).line = "0,1,200,-1" ∧ (TraceOp.rd 72).line = "1,0,72,0" := by decide
theorem test_table_word : decodeTableWord 48 0x204800000000 = some (.read 72) ∧
    decodeTableWord 48 0x104800000005 = some (.write 72 5) ∧ decodeTableWord 48 0x304800000000 = none := by decide
/-- V2 to V4. -/
theorem test_split : split 4095 = (63, 15, 3) ∧ split 72 = (1, 2, 0) ∧ split 73 = (1, 2, 1) := by decide
/-- V13 to V16. -/
theorem test_vc_tag : vcKey 6 2 = 98 ∧ (vcTagTag 98, vcTagIndex 98) = (6, 2) ∧ (vcTagTag 1008, vcTagIndex 1008) = (63, 0) ∧
    (vcTagTag 15, vcTagIndex 15) = (0, 15) := by decide

/-! ## WellFormed: each check refuses an ill-formed term -/

theorem test_wf_refuses_no_flag : ({ isRead := false, isWrite := false, address := 0, data := 0 } : TraceOp).wf 32 = false := by decide
theorem test_wf_refuses_both_flags : ({ isRead := true, isWrite := true, address := 0, data := 0 } : TraceOp).wf 32 = false := by decide
theorem test_wf_refuses_low_address : (TraceOp.rd (-1)).wf 32 = false ∧ (TraceOp.rd 0).wf 32 = true := by decide
theorem test_wf_refuses_high_address : (TraceOp.rd 4096).wf 32 = false ∧ (TraceOp.rd 4095).wf 32 = true := by decide
theorem test_wf_refuses_low_data : (TraceOp.wr 0 (-2147483649)).wf 32 = false ∧ (TraceOp.wr 0 (-2147483648)).wf 32 = true := by decide
theorem test_wf_refuses_high_data : (TraceOp.wr 0 2147483648).wf 32 = false ∧ (TraceOp.wr 0 2147483647).wf 32 = true := by decide
theorem test_wf_refuses_wide_data : (Instr.write 0 256).wf 8 = false ∧ (Instr.write 0 255).wf 8 = true := by decide
theorem test_wf_refuses_empty_width : ({ Config.default with dataW := 0 } : Config).wf = false ∧ ({ Config.default with recencyW := some 0 } : Config).wf = false ∧
    ({ Config.default with statW := some 0 } : Config).wf = false ∧ Config.default.wf = true := by decide

/-! ## Shared operations -/

/-- V20b, V20d: a tie goes to the lowest slot. -/
theorem test_select_oldest : selectSlot (n := 3)
    (State.reset |> withVc 0 18 0 1 |> withVc 1 34 0 5 |> withVc 2 50 0 5 |> withVc 3 66 0 2).arch.vc = (1, true) := by decide
/-- V19: an invalid slot wins over any recency. -/
theorem test_select_free : selectSlot (n := 3)
    (State.reset |> withVc 0 18 0 9 |> withVc 1 34 0 1 |> withVc 2 50 0 4).arch.vc = (3, false) := by decide
/-- X3, fill 6 (V21). -/
theorem test_cascade_into_l2 : after (exec (.read 392) fullState) (fun t =>
    vcList t == [some (82, 1328, 0), some (34, 1136, 3), some (50, 1200, 2), some (66, 1264, 1)] &&
    show3 (t.arch.l2At 2)[0] == some (1, 1072, 0)) = true := by decide
/-- V23, P5 step 6: an invalid victim with VC full. -/
theorem test_cascade_invalid_victim : after (exec (.read 76) fullState) (fun t =>
    vcList t == [none, some (34, 1136, 3), some (50, 1200, 2), some (66, 1264, 1)] &&
    show3 (t.arch.l2At 2)[0] == some (1, 1072, 0)) = true := by decide
/-- V33, step 1. -/
theorem test_force_valid : after (exec (.read 72) (withCfg { Config.default with policy := .forceValid } State.reset)) (fun t =>
    vcList t == [some (2, 0, 0), none, none, none]) = true := by decide
/-- R86, R148, on V27: level 1, slot 0 touched, packed as 01 000 1 00 0 0000 000. -/
theorem test_outcome_record : after (exec (.read 72) (withCfg { Config.default with debugPort := true } vcState)) (fun t =>
    t.resp.bind Response.debugPort == some (0b01_000_1_00_0_0000_000#16, false)) = true := by decide
/-- V34, V37. -/
theorem test_average_access_time :
    ({ accL1 := 2, missL1 := 1, accVC := 1, missVC := 1, accL2 := 1, missL2 := 1 } : Stats).aat = some (111 / 2) ∧
    ({ accL1 := 2, missL1 := 0, accVC := 0, missVC := 0, accL2 := 0, missL2 := 0 } : Stats).aat = none := by
  constructor <;>
    norm_num [Stats.aat, Stats.l1MissRate, Stats.l1MissPenalty, Stats.vcMissPenalty, Stats.vcMissRate, Stats.l2MissRate, missRate,
      l1HitTime, vcHitTime, l2HitTime, l2MissPenalty]

/-- R71, R76 at `DATA_W` 8: the tuple `0,1,72,-7` through an 8-bit machine, and a word out of its range. -/
theorem test_eight_bit_machine :
    let s := withCfg { Config.default with dataW := 8 } State.reset
    after (step (s |> withInput (.trace (.wr 72 (-7))))) (fun t => t.arch.mem.read 8 72 == 249) = true ∧
    after (step (s |> withInput (.word 0x1048F9))) (fun t => t.arch.mem.read 8 72 == 249) = true ∧
    refusedWith (step (s |> withInput (.trace (.wr 72 128)))) .dataOutOfRange = true ∧ intOfData 8 249 = -7 := by decide

/-- R192 at `DATA_W` 8: `req_wdata` has no ninth wire. R11: nor has the data field of a line after reset. -/
theorem test_eight_wires :
    let s := withCfg { Config.default with dataW := 8 } State.reset
    after (clock { Pins.offering 8 (.write 72 0) with reqWdata := 300 } s) (fun t => t.fsm.rWdata == 44) = true ∧
    ((State.resetWith s.cfg { LineInit.zero with l1 := Vector.replicate 16 { tag := 0, data := 300, valid := true } }
      { cells := [] }).arch.l1At 2).data = 44 := by decide

/-- R25 with a 2-bit `RECENCY_W`: the recency field of a line after reset has no third bit. -/
theorem test_two_bit_recency :
    (State.resetWith { Config.default with recencyW := some 2 }
      { LineInit.zero with vc := Vector.replicate 4 { tag := 0, data := 0, valid := true, recency := 7 } }
      { cells := [] }).arch.vc[(1 : Fin 4)] = { tag := 0, data := 0, valid := false, recency := 3 } := by decide

/-! ## Steps and edges -/

theorem test_step_runs_the_fetched_word : after (step (State.reset.withFetchWord 48 0x204800000000)) (fun t =>
    word t == some 1072 && l1Show t 2 == some (1, 1072) && t.inbox == []) = true := by decide
theorem test_step_runs_a_trace_tuple : after (step (State.reset |> withInput (.trace (.wr 72 5)))) (fun t =>
    t.arch.mem.read 32 72 == 5 && l1Show t 2 == none && t.arch.stat.readout == [0, 0, 0, 0, 0, 0]) = true := by decide
theorem test_step_resets : after (step (hitState |> withInput (.reset .zero))) (fun t => l1Show t 2 == none) = true := by decide
/-- R199: the edge that accepts a READ. -/
theorem test_edge_accepts : after (clock (Pins.offering 32 (.read 72)) State.reset) (fun t =>
    t.fsmState == .l1 && t.fsm.rAddr == 72 && !(t.outputs false).reqReady && (t.outputs false).stat == none) = true := by decide
/-- R204: `S_FILL` captures the victim, installs the line and goes on to `S_VCPL`. -/
theorem test_edge_fill : after (clock Pins.answering
    (hitState.setFsm { Fsm.powerOn with state := 5, rRead := true, rAddr := 136, rData := 1136 })) (fun t =>
    t.fsmState == .vcPl && t.fsm.v1.tag == 1 && l1Show t 2 == some (2, 1136)) = true := by decide

/-! ## Witnesses: the hypotheses of each statement, met together -/

theorem goes_on {o : Host.Outcome State Fault Refusal} (h : after o (fun _ => true) = true) : ∃ t, o = .next t :=
  let ⟨t, ht, _⟩ := next_of_after h
  ⟨t, ht⟩

/-- With unbounded counters there is always room. -/
theorem headroom_of_unbounded (s : State) (h : s.cfg.wf = true) (h1 : s.cfg.statW = none) (h2 : s.cfg.recencyW = none) :
    s.Headroom :=
  ⟨h, fun _ _ => by rw [h1]; rfl, fun _ _ => by rw [h2]; rfl, fun _ _ _ => by rw [h2]; rfl⟩

theorem witness_DecodeOfEncodeIsTheOperation : (Instr.read 4095).wf 32 = true ∧ (Instr.write 0 0x80000000).wf 32 = true := by decide
theorem witness_TraceTupleOfAnOperationDecodesToIt : (Instr.write 4095 0x7FFFFFFF).wf 32 = true ∧
    (-(2 ^ 31) ≤ (-2147483648 : Int) ∧ (-2147483648 : Int) < 2 ^ 31) ∧
    (-(2 ^ 31) ≤ (2147483647 : Int) ∧ (2147483647 : Int) < 2 ^ 31) := by decide
theorem witness_DecodedWordsAreExactlyThese : decode 32 (packReq 32 true false 0 7) = .ok (.read 0) ∧
    decode 32 (packReq 32 false true 4095 7) = .ok (.write 4095 7) ∧ decode 32 (packReq 32 true true 0 0) = .error .reservedOp := by decide
/-- With 8-bit data, and `is_read` at bit 21. -/
theorem witness_RequestWordIsItsFieldsInPlace : 255 < 2 ^ 8 ∧
    (packReq 8 true false 4095 255).toNat = 1 * 2 ^ 21 + 0 * 2 ^ 20 + 4095 * 2 ^ 8 + 255 := by decide
theorem witness_LinePackingsRoundTrip :
    (({ tag := 63, data := 255, valid := true, recency := 7 } : L2Line).data < 2 ^ 8 ∧
      ({ tag := 63, data := 255, valid := true, recency := 7 } : L2Line).recency < 2 ^ 3) ∧
    (({ tag := 1023, data := 0, valid := true, recency := 0 } : VcLine).data < 2 ^ 0 ∧
      ({ tag := 1023, data := 0, valid := true, recency := 0 } : VcLine).recency < 2 ^ 0) ∧
    ({ tag := 63, data := 0xFFFFFFFF, valid := false } : L1Line).data < 2 ^ 32 := by decide
theorem witness_ResetMeetsTheInvariant : Config.default.policy ≠ .forceValid ∧
    ({ cells := [(0, 5), (4095, 7)] } : Memory).wf 32 = true := by decide
theorem witness_ResetInputKeepsOnlyMemory :
    (hitState |> withInput (.reset .zero)).isIdle = true ∧ (hitState |> withInput (.reset .zero)).inbox = .reset .zero :: [] := by
  decide
theorem witness_StepRunsTheDecodedOperation_word : (State.reset |> withInput (.word 0x204800000000)).isIdle = true ∧
    (State.reset |> withInput (.word 0x204800000000)).inbox = .word 0x204800000000 :: [] ∧ 0x204800000000 < 2 ^ 46 ∧
    decode 32 (BitVec.ofNat (14 + 32) 0x204800000000) = .ok (.read 72) := by decide
theorem witness_StepRunsTheDecodedOperation_trace : (State.reset |> withInput (.trace (.wr 4095 (-1)))).isIdle = true ∧
    (State.reset |> withInput (.trace (.wr 4095 (-1)))).inbox = .trace (.wr 4095 (-1)) :: [] ∧
    decodeTrace 32 (.wr 4095 (-1)) = .ok (.write 4095 0xFFFFFFFF) := by decide
theorem witness_StepRunsTheDecodedOperation_table : State.reset.isIdle = true ∧ State.reset.cfg.dataW = 32 ∧
    decodeTableWord 48 0x104800000005 = some (.write 72 5) := by decide
theorem witness_StepRefusesWhatIsNoOperation_flags : (State.reset |> withInput (.word 0x304800000000)).isIdle = true ∧
    0x304800000000 < 2 ^ 46 ∧ Nat.testBit 0x304800000000 45 = Nat.testBit 0x304800000000 44 ∧
    Nat.testBit 0 45 = Nat.testBit 0 44 := by decide
theorem witness_StepRefusesWhatIsNoOperation_width : (State.reset |> withInput (.word (2 ^ 46))).isIdle = true ∧
    (State.reset |> withInput (.word (2 ^ 46))).inbox = .word (2 ^ 46) :: [] ∧ 2 ^ 46 ≤ 2 ^ 46 := by decide
/-- The bounds of each clause about a trace tuple. -/
theorem witness_StepRefusesWhatIsNoOperation_trace :
    refusedWith (step (State.reset |> withInput (.trace (.rd (-1))))) .addressOutOfRange = true ∧
    refusedWith (step (State.reset |> withInput (.trace (.rd 4096)))) .addressOutOfRange = true ∧
    refusedWith (step (State.reset |> withInput (.trace (.wr 0 (-2147483649))))) .dataOutOfRange = true ∧
    refusedWith (step (State.reset |> withInput (.trace (.wr 4095 2147483648)))) .dataOutOfRange = true ∧
    refusedWith (step (State.reset |> withInput (.trace ⟨true, true, 4095, 2147483647⟩))) .reservedOp = true ∧
    refusedWith (step (State.reset |> withInput (.trace ⟨false, false, 0, -2147483648⟩))) .reservedOp = true := by decide
theorem witness_WaitingStepRetainsAllState : State.reset.isIdle = true ∧ State.reset.inbox = [] := by decide
theorem witness_StepNeverChangesAParameter : ∃ t, step (State.reset.withFetchWord 48 0x204800000000) = .next t :=
  goes_on (by decide)

theorem witness_ReadL1HitOnlyCounts : (hitState.arch.l1At (addrIndex 75)).valid = true ∧
    (hitState.arch.l1At (addrIndex 75)).tag = addrTag 75 ∧
    fitsWidth hitState.cfg.statW (hitState.arch.stat.accL1 + 1) = true := by decide
theorem witness_ReadVcHitSwapsTheLines : vcState.Headroom ∧
    ¬((vcState.arch.l1At (addrIndex 72)).valid = true ∧ (vcState.arch.l1At (addrIndex 72)).tag = addrTag 72) ∧
    (vcState.arch.vc[(0 : Fin 4)].valid = true ∧ vcState.arch.vc[(0 : Fin 4)].tag = vcKey (addrTag 72) (addrIndex 72)) ∧
    (∀ k : Fin 4, k < 0 → ¬(vcState.arch.vc[k].valid = true ∧ vcState.arch.vc[k].tag = vcKey (addrTag 72) (addrIndex 72))) :=
  ⟨headroom_of_unbounded _ rfl rfl rfl, by decide, by decide, by decide⟩

/-- The READ of `addr` misses in L1 and in VC. -/
def missesL1Vc (addr : Addr) (s : State) : Prop :=
  ¬((s.arch.l1At (addrIndex addr)).valid = true ∧ (s.arch.l1At (addrIndex addr)).tag = addrTag addr) ∧
  (∀ k : Fin 4, ¬(s.arch.vc[k].valid = true ∧ s.arch.vc[k].tag = vcKey (addrTag addr) (addrIndex addr)))

/-- Both clauses: way 0 matches, and no way does. -/
theorem witness_ReadMissFillsL1FromL2OrMemory : l2State.Headroom ∧ missesL1Vc 72 l2State ∧
    ((l2State.arch.l2At 2)[(0 : Fin 8)].valid = true ∧ (l2State.arch.l2At 2)[(0 : Fin 8)].tag = addrTag 72) ∧
    fullState.Headroom ∧ missesL1Vc 392 fullState ∧
    (∀ w : Fin 8, ¬((fullState.arch.l2At 2)[w].valid = true ∧ (fullState.arch.l2At 2)[w].tag = addrTag 392)) :=
  ⟨headroom_of_unbounded _ rfl rfl rfl, by unfold missesL1Vc; decide, by decide, headroom_of_unbounded _ rfl rfl rfl,
    by unfold missesL1Vc; decide, by decide⟩
theorem witness_CascadeFillsTheFirstFreeVcSlot : vcState.Headroom ∧ missesL1Vc 200 vcState ∧
    ¬(vcState.cfg.policy = .skip ∧ (vcState.arch.l1At (addrIndex 200)).valid = false) ∧ IsFirstFree vcState.arch.vc 1 :=
  ⟨headroom_of_unbounded _ rfl rfl rfl, by unfold missesL1Vc; decide, by decide, by unfold IsFirstFree; decide⟩
/-- An L2 set with room. -/
theorem witness_CascadeMovesTheOldestVcLineToL2_room : fullState.Headroom ∧ missesL1Vc 392 fullState ∧
    ¬(fullState.cfg.policy = .skip ∧ (fullState.arch.l1At (addrIndex 392)).valid = false) ∧
    IsFull fullState.arch.vc ∧ IsOldest fullState.arch.vc 0 ∧ IsFirstFree (fullState.arch.l2At (vcTagIndex 18)) 0 :=
  ⟨headroom_of_unbounded _ rfl rfl rfl, by unfold missesL1Vc; decide, by decide, by unfold IsFull; decide,
    by unfold IsOldest; decide, by unfold IsFirstFree; decide⟩
/-- A full L2 set (V24, P6 step 14). -/
theorem witness_CascadeMovesTheOldestVcLineToL2_full : fullL2State.Headroom ∧ missesL1Vc 904 fullL2State ∧
    ¬(fullL2State.cfg.policy = .skip ∧ (fullL2State.arch.l1At (addrIndex 904)).valid = false) ∧
    IsFull fullL2State.arch.vc ∧ IsOldest fullL2State.arch.vc 0 ∧
    IsFull (fullL2State.arch.l2At (vcTagIndex 146)) ∧ IsOldest (fullL2State.arch.l2At (vcTagIndex 146)) 0 :=
  ⟨headroom_of_unbounded _ rfl rfl rfl, by unfold missesL1Vc; decide, by decide, by unfold IsFull; decide,
    by unfold IsOldest; decide, by unfold IsFull; decide, by unfold IsOldest; decide⟩

/-- The `skip` machine of V22, V23 and P5. -/
def skipState : State := withCfg { Config.default with policy := .skip } fullState

theorem witness_SkipPolicyMovesNoInvalidLine : skipState.Headroom ∧ skipState.cfg.policy = .skip ∧
    (skipState.arch.l1At (addrIndex 76)).valid = false ∧
    (∀ k : Fin 4, ¬(skipState.arch.vc[k].valid = true ∧ skipState.arch.vc[k].tag = vcKey (addrTag 76) (addrIndex 76))) :=
  ⟨headroom_of_unbounded _ rfl rfl rfl, by decide, by decide, by decide⟩
/-- Room below finite bounds too: a 3-bit recency and a 1-bit counter hold one more. -/
theorem witness_ReadCompletesWithRoomBelowTheBounds :
    (withCfg { Config.default with recencyW := some 3, statW := some 1 } fullState).Headroom :=
  ⟨by decide, by decide, by unfold CanAge; decide, by unfold CanAge; decide⟩

/-- A 1-bit counter that holds 1 already, other than `accL1`: of a READ that falls back to memory. -/
def countedState : State :=
  withCfg { Config.default with statW := some 1 } (State.reset.setArch (State.reset.arch.setStat { Stats.zero with missL2 := 1 }))

theorem witness_OverflowIsRefused_counter : countedState.cfg.statW = some 1 ∧
    1 ∈ countedState.arch.stat.countedBy (servedBy countedState.arch 72) ∧ 2 ^ 1 ≤ 1 + 1 ∧
    refusedWith (exec (.read 72) countedState) .statOverflow = true := by decide

/-- A 2-bit recency that holds 3 already, and a VC hit in another slot. -/
def agedVcState : State :=
  withCfg { Config.default with recencyW := some 2 } (State.reset |> withL1 2 5 1328 |> withVc 0 18 1072 3 |> withVc 1 34 1136 2)

/-- The premises on the counters hold of every state with an unbounded `STAT_W`. -/
theorem counters_have_room {s : State} (h : s.cfg.statW = none) (ns : List Nat) :
    ∀ n ∈ ns, fitsWidth s.cfg.statW (n + 1) = true := fun _ _ => by rw [h]; rfl

theorem witness_OverflowIsRefused_vcHit : agedVcState.cfg.recencyW = some 2 ∧ agedVcState.cfg.statW = none ∧
    servedBy agedVcState.arch 136 = .vc ∧ vcFirst agedVcState.arch (addrTag 136) (addrIndex 136) = some 1 ∧
    AgedByPlacement agedVcState.arch.vc 1 true 0 ∧ 2 ^ 2 ≤ agedVcState.arch.vc[(0 : Fin 4)].recency + 1 ∧
    refusedWith (exec (.read 136) agedVcState) .recencyOverflow = true :=
  ⟨rfl, rfl, by decide, by decide, by unfold AgedByPlacement; decide, by decide, by decide⟩
/-- The VC placement of a fill: the slot's own former line, transiently. -/
theorem witness_OverflowIsRefused_vcPlacement :
    let s := withCfg { Config.default with recencyW := some 2 } fullState
    servedBy s.arch 392 = .mem ∧ ¬(s.cfg.policy = .skip ∧ (s.arch.l1At (addrIndex 392)).valid = false) ∧
    AgedByPlacement s.arch.vc (selectSlot (n := 3) s.arch.vc).1 true 0 ∧ 2 ^ 2 ≤ s.arch.vc[(0 : Fin 4)].recency + 1 ∧
    refusedWith (exec (.read 392) s) .recencyOverflow = true :=
  ⟨by decide, by decide, by unfold AgedByPlacement; decide, by decide, by decide⟩
/-- The L2 placement of a fill: a full set whose oldest way is at 7, with 3-bit recencies (R119). -/
theorem witness_OverflowIsRefused_l2Placement :
    let s := withCfg { Config.default with recencyW := some 3 } fullL2State
    servedBy s.arch 904 = .mem ∧ ¬(s.cfg.policy = .skip ∧ (s.arch.l1At (addrIndex 904)).valid = false) ∧
    IsFull s.arch.vc ∧ IsOldest s.arch.vc 0 ∧
    AgedByPlacement (s.arch.l2At (vcTagIndex 146)) (selectSlot (n := 7) (s.arch.l2At (vcTagIndex 146))).1 true 0 ∧
    2 ^ 3 ≤ (s.arch.l2At (vcTagIndex 146))[(0 : Fin 8)].recency + 1 ∧
    refusedWith (exec (.read 904) s) .recencyOverflow = true :=
  ⟨by decide, by decide, by unfold IsFull; decide, by unfold IsOldest; decide, by unfold AgedByPlacement; decide, by decide,
    by decide⟩

theorem witness_ReadLeavesItsWordInL1 : ∃ t, exec (.read 72) l2State = .next t := goes_on (by decide)
theorem witness_SecondReadHitsL1 : ∃ t, exec (.read 72) vcState = .next t ∧
    fitsWidth t.cfg.statW (t.arch.stat.accL1 + 1) = true := next_of_after (by decide)
/-- Each clause: an L1 hit, a VC hit, `skip` with an invalid victim, a free VC slot, a full VC. -/
theorem witness_ReadFrame :
    ((∃ t, exec (.read 72) hitState = .next t) ∧ servedBy hitState.arch 72 = .l1) ∧
    ((∃ t, exec (.read 72) vcState = .next t) ∧ servedBy vcState.arch 72 = .vc) ∧
    ((∃ t, exec (.read 76) skipState = .next t) ∧ servedBy skipState.arch 76 = .mem ∧ skipState.cfg.policy = .skip ∧
      (skipState.arch.l1At (addrIndex 76)).valid = false) ∧
    ((∃ t, exec (.read 200) vcState = .next t) ∧ servedBy vcState.arch 200 = .mem ∧ (selectSlot (n := 3) vcState.arch.vc).2 = false) ∧
    ((∃ t, exec (.read 904) fullL2State = .next t) ∧ servedBy fullL2State.arch 904 = .mem ∧
      (selectSlot (n := 3) fullL2State.arch.vc).2 = true) :=
  ⟨⟨goes_on (by decide), by decide⟩, ⟨goes_on (by decide), by decide⟩, ⟨goes_on (by decide), by decide, by decide, by decide⟩,
    ⟨goes_on (by decide), by decide, by decide⟩, ⟨goes_on (by decide), by decide, by decide⟩⟩
theorem witness_ReadOutcomeRecordSaysWhatMoved :
    (∃ t, exec (.read 904) (withCfg { Config.default with debugPort := true } fullL2State) = .next t) ∧
    (withCfg { Config.default with debugPort := true } fullL2State).cfg.debugPort = true := ⟨goes_on (by decide), rfl⟩
/-- A fallback with another memory that agrees at address 72, and a hit with any other memory. -/
theorem witness_ReadUsesOnlyItsOwnMemoryWord :
    (∃ t, exec (.read 72) State.reset = .next t) ∧ servedBy State.reset.arch 72 = .mem ∧
    ({ cells := [(73, 5)] } : Memory).read 32 72 = State.reset.arch.mem.read 32 72 ∧
    (∃ t, exec (.read 72) hitState = .next t) ∧ servedBy hitState.arch 72 = .l1 :=
  ⟨goes_on (by decide), by decide, by decide, goes_on (by decide), by decide⟩

/-- A block valid in L1 and in L2, another in VC. -/
def copiesState : State := hitState |> withL2 2 0 1 1072 1 |> withVc 1 34 1136 0

theorem witness_WriteUpdatesEveryCopyAndMemory :
    ((copiesState.arch.l1At (addrIndex 72)).valid = true ∧ (copiesState.arch.l1At (addrIndex 72)).tag = addrTag 72) ∧
    ((copiesState.arch.l2At (addrIndex 72))[(0 : Fin 8)].valid = true ∧
      (copiesState.arch.l2At (addrIndex 72))[(0 : Fin 8)].tag = addrTag 72) ∧
    (copiesState.arch.vc[(1 : Fin 4)].valid = true ∧ copiesState.arch.vc[(1 : Fin 4)].tag = vcKey (addrTag 136) (addrIndex 136)) := by
  decide
theorem witness_WriteChangesOnlyData : ∃ t, exec (.write 72 77) copiesState = .next t := goes_on (by decide)
theorem witness_ReadAfterWriteReturnsTheData : ∃ t, exec (.write 136 77) copiesState = .next t ∧
    after (exec (.read 136) t) (fun u => word u == some 77) = true := next_of_after (by decide)
theorem witness_WriteIsIdempotent : ∃ t, exec (.write 0 1000) copiesState = .next t := goes_on (by decide)
/-- With a debug port and without. -/
theorem witness_WriteResponseCarriesNoWord : copiesState.cfg.debugPort = false ∧
    (withCfg { Config.default with debugPort := true } copiesState).cfg.debugPort = true := by decide

theorem witness_CountersCountTheLevelsSearched : (∃ t, exec (.read 72) l2State = .next t) ∧
    (∃ t, exec (.write 72 1) l2State = .next t) ∧
    (State.reset |> withInput (.word (packReq 32 true true 72 0).toNat)).isIdle = true :=
  ⟨goes_on (by decide), goes_on (by decide), by decide⟩
theorem witness_CountersNeverDecreaseWithoutReset :
    (∃ t, step (hitState |> withInput (.trace (.rd 72))) = .next t) ∧
    (∀ lines rest, (hitState |> withInput (.trace (.rd 72))).inbox ≠ .reset lines :: rest) :=
  ⟨goes_on (by decide), fun _ _ h => by cases h⟩
/-- Each clause: all denominators positive, and each one 0. -/
theorem witness_AverageAccessTimeFormula :
    (({ accL1 := 7, missL1 := 7, accVC := 7, missVC := 7, accL2 := 7, missL2 := 6 } : Stats).accL1 ≠ 0) ∧
    (Stats.zero.accL1 = 0 ∧ Stats.zero.accVC = 0 ∧ Stats.zero.accL2 = 0) ∧
    Stats.zero.l1MissRate = none ∧ Stats.zero.vcMissRate = none ∧ Stats.zero.l2MissRate = none := ⟨by decide, by decide, rfl, rfl, rfl⟩

/-- The empty machine meets the invariant. -/
theorem reset_inv : State.reset.Inv where
  idle := by decide
  policy := by decide
  mem := by decide
  words := ⟨by decide, by decide, by decide⟩
  stores := ⟨⟨by decide, by decide⟩, by unfold Arch.VcBacked; decide, by unfold Arch.L2Backed; decide,
    by unfold DistinctRecency; decide, by unfold DistinctRecency; decide, by unfold BoundedRecency; decide⟩
  stat := ⟨rfl, rfl, by decide, by decide, by decide⟩

theorem witness_StepKeepsTheInvariant : (State.reset.withFetchWord 48 0x204800000000).Inv ∧
    ∃ t, step (State.reset.withFetchWord 48 0x204800000000) = .next t :=
  ⟨⟨reset_inv.idle, reset_inv.policy, reset_inv.mem, reset_inv.words, reset_inv.stores, reset_inv.stat⟩, goes_on (by decide)⟩
/-- An 8-bit machine in `S_MEMWR`. -/
def lateWrite : State :=
  withCfg { Config.default with dataW := 8 }
    (State.reset.setFsm { Fsm.powerOn with state := 9, rWrite := true, rAddr := 72, rWdata := 255 })

/-- Each clause: an empty memory; a WRITE about to reach memory; a request word. -/
theorem witness_WordsKeepTheirWidth : ({ cells := [] } : Memory).wf 8 = true ∧
    (lateWrite.WordsFit ∧ ∃ t, clock Pins.answering lateWrite = .next t) ∧
    (State.reset.withFetchWord 48 0x1048FFFFFFFF).WordsFit ∧ ∃ t, step (State.reset.withFetchWord 48 0x1048FFFFFFFF) = .next t :=
  ⟨by decide, ⟨⟨by decide, ⟨by decide, by decide, by decide⟩, ⟨by decide, by decide, by decide, by decide⟩, fun _ _ h => by cases h⟩,
    goes_on (by decide)⟩,
    ⟨by decide, ⟨by decide, by decide, by decide⟩, ⟨by decide, by decide, by decide, by decide⟩, fun _ _ h => by cases h⟩,
    goes_on (by decide)⟩
/-- Full VC and L2 sets with 3-bit recencies and 4-bit counters, both at their greatest. -/
def countsState : State :=
  withCfg { Config.default with recencyW := some 3, statW := some 4 }
    (fullL2State.setArch (fullL2State.arch.setStat { Stats.zero with accL1 := 15, missL1 := 15 }))

/-- Each clause that has a premise: a clock edge and a step. -/
theorem witness_CountsKeepTheirWidth : (countsState.CountsFit ∧ ∃ t, clock Pins.answering countsState = .next t) ∧
    (countsState |> withInput (.trace (.wr 72 5))).CountsFit ∧ ∃ t, step (countsState |> withInput (.trace (.wr 72 5))) = .next t :=
  ⟨⟨⟨by decide, by decide, by decide⟩, goes_on (by decide)⟩, ⟨by decide, by decide, by decide⟩, goes_on (by decide)⟩
/-- A state with a valid L2 line that meets the invariant. -/
theorem witness_L2RecencyIsAtMostSeven : (hitState |> withL2 2 0 1 1072 0).Inv ∧
    ((hitState |> withL2 2 0 1 1072 0).arch.l2At 2)[(0 : Fin 8)].valid = true where
  left := {
    idle := by decide
    policy := by decide
    mem := by decide
    words := ⟨by decide, by decide, by decide⟩
    stores := ⟨⟨by decide, by decide⟩, by unfold Arch.VcBacked; decide, by unfold Arch.L2Backed; decide,
      by unfold DistinctRecency; decide, by unfold DistinctRecency; decide, by unfold BoundedRecency; decide⟩
    stat := ⟨rfl, rfl, by decide, by decide, by decide⟩ }
  right := by decide
theorem witness_L1AndL2LinesStayValid : (∃ t, exec (.read 904) fullL2State = .next t) ∧
    (fullL2State.arch.l1At 2).valid = true ∧ (fullL2State.arch.l2At 2)[(0 : Fin 8)].valid = true :=
  ⟨goes_on (by decide), by decide, by decide⟩

/-- As the reset state, but what the invalid line `L1[2]` holds differs. -/
def otherInit : State :=
  { State.reset with arch := State.reset.arch.setL1At 2 { tag := 9, data := 9, valid := false } }

theorem witness_InvalidLinesNeverShow : State.reset.Alike otherInit ∧ State.reset ≠ otherInit ∧ State.reset.isIdle = true ∧
    State.reset.cfg.policy ≠ .forceValid :=
  ⟨⟨⟨by unfold Line.Alike; decide, by unfold AgedLine.Alike; decide, by unfold AgedLine.Alike; decide, rfl, rfl⟩, rfl, rfl, rfl, rfl⟩,
    by decide, by decide, by decide⟩
/-- Every block used through offset 0; the line of block {1,2} agrees with memory. Both operations. -/
theorem witness_DisciplinedAccessesStayCoherent : hitState.cfg.policy ≠ .forceValid ∧
    hitState.arch.Coherent 32 (fun _ => 0) ∧ Disciplined (fun _ => 0) (addrOfInstr (.read 136)) ∧
    Disciplined (fun _ => 0) (addrOfInstr (.write 72 5)) ∧ (∃ t, exec (.read 136) hitState = .next t) ∧
    (∃ t, exec (.write 72 5) hitState = .next t) :=
  ⟨by decide, ⟨by decide, by decide, by decide⟩, by unfold Disciplined; decide, by unfold Disciplined; decide,
    goes_on (by decide), goes_on (by decide)⟩
theorem witness_DebugPortFeedsNothingBack : ∃ t, exec (.write 72 77) copiesState = .next t := goes_on (by decide)
theorem witness_CanonicalMemoriesThatReadAlikeAreEqual :
    (Memory.write { cells := [(72, 9)] } 32 72 1072).wf 32 = true ∧ State.reset.arch.mem.wf 32 = true ∧
    (Memory.write { cells := [(72, 9)] } 32 72 1072).read 32 72 = State.reset.arch.mem.read 32 72 ∧
    Memory.write { cells := [(72, 9)] } 32 72 1072 = State.reset.arch.mem := by decide

/-- The outcome of a pass of the FSM goes on to a state in which `p` holds. -/
def passes (o : Option (Host.Outcome State Fault Refusal)) (p : State → Bool) : Bool :=
  match o with
  | some o => after o p
  | none => false

/-- An L1 hit: accepted, `S_L1`, `S_RESP`, `S_IDLE`. -/
theorem witness_FsmPassEqualsTheOperation : hitState.isIdle = true ∧ (Pins.offering 32 (.read 72)).rst = false ∧
    (Pins.offering 32 (.read 72)).reqValid = true ∧
    decodeFields (Pins.offering 32 (.read 72)).reqRead (Pins.offering 32 (.read 72)).reqWrite (Pins.offering 32 (.read 72)).reqAddr
      ((Pins.offering 32 (.read 72)).reqWdata % 2 ^ hitState.cfg.dataW) = .ok (.read 72) ∧
    (∀ q ∈ [Pins.answering, Pins.answering], q.rst = false) ∧
    passes (runToIdle [Pins.offering 32 (.read 72), Pins.answering, Pins.answering] hitState) (fun t => word t == some 1072) = true := by
  decide
/-- V25 through the FSM, the memory answering late: one memory read, one response. -/
theorem test_pass_makes_one_memory_access :
    let ps := Pins.offering 32 (.read 72) :: List.replicate 3 Pins.answering ++ { Pins.answering with memReady := false } ::
      List.replicate 4 Pins.answering
    memAccesses (passTrace ps State.reset) = [.read 72] ∧
    responses (passTrace ps State.reset) = [{ rdata := some 1072, outcome := none }] := by decide
/-- With a bound of one stall in each state. -/
theorem witness_FsmPassEndsWhenMemoryAnswers :
    let s := withCfg { Config.default with maxStall := 1 } State.reset
    let ps := List.replicate 16 { Pins.answering with stall := true }
    s.isIdle = true ∧ (Pins.offering 32 (.read 72)).rst = false ∧ (Pins.offering 32 (.read 72)).reqValid = true ∧
    (∀ q ∈ ps, q.rst = false) ∧ 8 * (s.cfg.maxStall + 1) ≤ (ps.filter Pins.memReady).length ∧
    passes (runToIdle (Pins.offering 32 (.read 72) :: ps) s) (fun t => word t == some 1072) = true := by decide

/-- A machine in an FSM state, after some stalls there, with a bound of two. -/
def inState (q : FsmState) (stalled : Nat) : State :=
  withCfg { Config.default with maxStall := 2 }
    (hitState.setFsm { Fsm.powerOn with state := q.code, stalled := stalled, rRead := true, rAddr := 72 })

/-- Each clause: at the bound, below it, the memory states with and without an answer, `S_RESP`. -/
theorem witness_FsmStatesAreLeft :
    ((inState .l1 2).fsmState.canStall = true ∧ (inState .l1 2).cfg.maxStall ≤ (inState .l1 2).fsm.stalled) ∧
    ((inState .fill 1).fsmState.canStall = true ∧ (inState .fill 1).fsm.stalled < (inState .fill 1).cfg.maxStall ∧
      after (clock { Pins.answering with stall := true } (inState .fill 1)) (fun t => t.fsmState == .fill) = true) ∧
    ((inState .memRd 0).fsmState = .memRd ∧ (inState .memWr 0).fsmState = .memWr) ∧ (inState .resp 0).fsmState = .resp := by
  decide
/-- Each port has something to show somewhere. -/
theorem witness_PortsFollowTheFsmState : ((inState .idle 0).outputs false).reqReady = true ∧
    ((inState .idle 0).outputs false).stat = some .zero ∧
    ((inState .resp 0).outputs true).resp = some { rdata := some 0, outcome := none } ∧
    ((inState .memRd 0).outputs false).mem = some (.read 72) ∧ ((inState .memWr 0).outputs false).mem = some (.write 72 0) := by
  decide
theorem witness_FsmAcceptsOneRequestAtATime : (hitState.setFsm { Fsm.powerOn with state := 1 }).isIdle = false ∧
    (Pins.offering 32 (.read 72)).rst = Pins.answering.rst ∧ (Pins.offering 32 (.read 72)).memReady = Pins.answering.memReady ∧
    (Pins.offering 32 (.read 72)).stall = Pins.answering.stall ∧ (Pins.offering 32 (.read 72)).wrLands = Pins.answering.wrLands ∧
    (Pins.offering 32 (.read 72)).lines = Pins.answering.lines := by decide
/-- A WRITE cut off in `S_MEMWR`. -/
theorem witness_FsmResetAbandonsTheAccess : ({ Pins.answering with rst := true, wrLands := true } : Pins).rst = true ∧
    after (clock { Pins.answering with rst := true, wrLands := true }
      (State.reset.setFsm { Fsm.powerOn with state := 9, rWrite := true, rAddr := 72, rWdata := 5 }))
      (fun t => t.arch.mem.read 32 72 == 5 && t.resp == none) = true := by decide
theorem witness_FsmAnswersReservedRequestsWithoutEffect : State.reset.isIdle = true ∧
    ({ Pins.answering with reqValid := true, reqRead := true, reqWrite := true } : Pins).reqValid = true ∧
    ({ Pins.answering with reqValid := true, reqRead := true, reqWrite := true } : Pins).reqRead =
      ({ Pins.answering with reqValid := true, reqRead := true, reqWrite := true } : Pins).reqWrite ∧
    Pins.answering.rst = false := by decide
theorem witness_UnusedFsmCodesBehaveAsIdle : 11 ≤ (State.reset.setFsm { Fsm.powerOn with state := 11 }).fsm.state.toNat ∧
    Pins.answering.reqValid = false ∧ (Pins.offering 32 (.read 72)).reqValid = true ∧ (Pins.offering 32 (.read 72)).reqRead = true ∧
    (Pins.offering 32 (.read 72)).reqWrite = false := by decide

end Sys2Proof.Tests
end

/-! SUPPORT. What one clock edge and one step can do, each said once (`EdgeCase`, `StepCase`), and what follows of every edge and step:
the parameters stay, counts and words keep their width; besides, the state after reset, and why a READ stops. -/

namespace Sys2Proof.Machine

/-! ## Computations that can stop -/

section

variable {ε α β : Type} {x : Except ε α} {f : α → Except ε β}

theorem bind_eq_ok {b : β} : x >>= f = .ok b ↔ ∃ a, x = .ok a ∧ f a = .ok b := by
  cases x <;> simp [bind, Except.bind]

theorem bind_eq_error {e : ε} : x >>= f = .error e ↔ x = .error e ∨ ∃ a, x = .ok a ∧ f a = .error e := by
  cases x <;> simp [bind, Except.bind]

theorem pure_eq_ok {a b : α} : (pure a : Except ε α) = .ok b ↔ a = b := by
  simp [pure, Except.pure]

end

/-! ## One clock edge -/

/-- All that a clock edge can leave (R199 to R209, R214): the FSM state it is taken in, what let it happen, and the next state. -/
inductive EdgeCase (p : Pins) (s : State) : State → Prop where
  | reset (hrst : p.rst = true) : EdgeCase p s (edgeReset p s)
  | stall (hstay : s.stays p = true) : EdgeCase p s (s.setFsm { s.fsm with stalled := s.fsm.stalled + 1 })
  | wait (hwait : s.fsmState = .idle ∧ p.reqValid = false ∨
      (s.fsmState = .memRd ∨ s.fsmState = .memWr) ∧ p.memReady = false) : EdgeCase p s s
  | accept (hq : s.fsmState = .idle) (hreq : p.reqValid = true) :
      EdgeCase p s (s.setFsm ({ s.fsm with
        rRead := p.reqRead, rWrite := p.reqWrite, rAddr := p.reqAddr, rWdata := p.wdata s.cfg.dataW
        dbg := .blank }.goTo (afterIdle p.reqRead p.reqWrite)))
  | l1Hit (st : Stats) (hq : s.fsmState = .l1) (hit : l1Match s.arch s.fsm.rIndex s.fsm.rTag = true)
      (hst : s.arch.stat.probeL1 s.cfg true = .ok st) :
      EdgeCase p s ((s.setArch (s.arch.setStat st)).setFsm
        ({ s.fsm with rData := (s.arch.l1At s.fsm.rIndex).data }.goTo .resp))
  | l1Miss (st : Stats) (hq : s.fsmState = .l1) (hmiss : l1Match s.arch s.fsm.rIndex s.fsm.rTag = false)
      (hst : s.arch.stat.probeL1 s.cfg false = .ok st) :
      EdgeCase p s ((s.setArch (s.arch.setStat st)).setFsm (s.fsm.goTo .vc))
  | vcHit (j : Fin 4) (st : Stats) (b : Arch) (hq : s.fsmState = .vc)
      (hit : vcFirst s.arch s.fsm.rTag s.fsm.rIndex = some j) (hst : s.arch.stat.probeVC s.cfg true = .ok st)
      (hb : vcSwap s.cfg s.fsm.rIndex j (s.arch.setStat st) = .ok b) :
      EdgeCase p s ((s.setArch b).setFsm
        ({ s.fsm with rData := s.arch.vc[j].data, dbg := { s.fsm.dbg with level := .vc }.withVc j false }.goTo .resp))
  | vcMiss (st : Stats) (hq : s.fsmState = .vc) (hmiss : vcFirst s.arch s.fsm.rTag s.fsm.rIndex = none)
      (hst : s.arch.stat.probeVC s.cfg false = .ok st) :
      EdgeCase p s ((s.setArch (s.arch.setStat st)).setFsm (s.fsm.goTo .l2))
  | l2Hit (w : Fin 8) (st : Stats) (hq : s.fsmState = .l2) (hit : l2First s.arch s.fsm.rIndex s.fsm.rTag = some w)
      (hst : s.arch.stat.probeL2 s.cfg true = .ok st) :
      EdgeCase p s ((s.setArch (s.arch.setStat st)).setFsm
        ({ s.fsm with
          rData := (s.arch.l2At s.fsm.rIndex)[w].data, dbg := { s.fsm.dbg with level := .l2 } }.goTo .fill))
  | l2Miss (st : Stats) (hq : s.fsmState = .l2) (hmiss : l2First s.arch s.fsm.rIndex s.fsm.rTag = none)
      (hst : s.arch.stat.probeL2 s.cfg false = .ok st) :
      EdgeCase p s ((s.setArch (s.arch.setStat st)).setFsm
        ({ s.fsm with dbg := { s.fsm.dbg with level := .mem } }.goTo .memRd))
  | memRd (hq : s.fsmState = .memRd) (hready : p.memReady = true) :
      EdgeCase p s (s.setFsm ({ s.fsm with rData := s.arch.memRead s.cfg.dataW s.fsm.rAddr }.goTo .fill))
  | fill (q : FsmState) (hq : s.fsmState = .fill)
      (hnext : q = if s.cfg.policy = .skip ∧ (s.arch.l1At s.fsm.rIndex).valid = false then .resp else .vcPl) :
      EdgeCase p s ((s.setArch (fillL1 s.fsm.rTag s.fsm.rIndex s.fsm.rData s.arch)).setFsm
        ({ s.fsm with v1 := s.arch.l1At s.fsm.rIndex }.goTo q))
  | vcPl (x : VcPlaced) (hq : s.fsmState = .vcPl) (hx : placeInVc s.cfg s.fsm.v1 s.fsm.rIndex s.arch = .ok x) :
      EdgeCase p s ((s.setArch x.arch).setFsm
        ({ s.fsm with v2 := x.victim, v2Real := x.real, dbg := s.fsm.dbg.withVc x.slot x.real }.goTo
          (if x.real then .l2Pl else .resp)))
  | l2Pl (x : L2Placed) (hq : s.fsmState = .l2Pl) (hx : placeInL2 s.cfg s.fsm.v2 s.arch = .ok x) :
      EdgeCase p s ((s.setArch x.arch).setFsm ({ s.fsm with dbg := s.fsm.dbg.withL2 x.set x.way x.real }.goTo .resp))
  | wrUpd (hq : s.fsmState = .wrUpd) : EdgeCase p s (edgeWrUpd s)
  | memWr (hq : s.fsmState = .memWr) (hready : p.memReady = true) :
      EdgeCase p s ((s.setArch (s.arch.memWrite s.cfg.dataW s.fsm.rAddr s.fsm.rWdata)).setFsm (s.fsm.goTo .resp))
  | resp (hq : s.fsmState = .resp) : EdgeCase p s (edgeResp s)

section

variable {p : Pins} {s t : State}

theorem outcomeOf_eq_next {r : Except Refusal State} : outcomeOf r = .next t ↔ r = .ok t := by
  cases r <;> simp [outcomeOf]

theorem edgeIdle_case (hq : s.fsmState = .idle) : EdgeCase p s (edgeIdle p s) := by
  unfold edgeIdle
  split
  · next h => exact .accept hq h
  · next h => exact .wait (.inl ⟨hq, by simpa using h⟩)

theorem edgeL1_case (hq : s.fsmState = .l1) (h : edgeL1 s = .ok t) : EdgeCase p s t := by
  obtain ⟨st, hst, h⟩ := bind_eq_ok.mp h
  obtain rfl := pure_eq_ok.mp h
  cases hm : l1Match s.arch s.fsm.rIndex s.fsm.rTag with
  | true => exact .l1Hit st hq hm (hm ▸ hst)
  | false => exact .l1Miss st hq hm (hm ▸ hst)

theorem edgeVC_case (hq : s.fsmState = .vc) (h : edgeVC s = .ok t) : EdgeCase p s t := by
  obtain ⟨st, hst, h⟩ := bind_eq_ok.mp h
  cases hm : vcFirst s.arch s.fsm.rTag s.fsm.rIndex with
  | some j =>
    rw [hm] at h hst
    obtain ⟨b, hb, h⟩ := bind_eq_ok.mp h
    obtain rfl := pure_eq_ok.mp h
    exact .vcHit j st b hq hm hst hb
  | none =>
    rw [hm] at h hst
    obtain rfl := pure_eq_ok.mp h
    exact .vcMiss st hq hm hst

theorem edgeL2_case (hq : s.fsmState = .l2) (h : edgeL2 s = .ok t) : EdgeCase p s t := by
  obtain ⟨st, hst, h⟩ := bind_eq_ok.mp h
  obtain rfl := pure_eq_ok.mp h
  cases hm : l2First s.arch s.fsm.rIndex s.fsm.rTag with
  | some w => exact .l2Hit w st hq hm (by rw [hm] at hst; exact hst)
  | none => exact .l2Miss st hq hm (by rw [hm] at hst; exact hst)

theorem edgeMemRd_case (hq : s.fsmState = .memRd) : EdgeCase p s (edgeMemRd p s) := by
  unfold edgeMemRd
  split
  · next h => exact .memRd hq h
  · next h => exact .wait (.inr ⟨.inl hq, by simpa using h⟩)

theorem edgeVcPl_case (hq : s.fsmState = .vcPl) (h : edgeVcPl s = .ok t) : EdgeCase p s t := by
  obtain ⟨x, hx, h⟩ := bind_eq_ok.mp h
  obtain rfl := pure_eq_ok.mp h
  exact .vcPl x hq hx

theorem edgeL2Pl_case (hq : s.fsmState = .l2Pl) (h : edgeL2Pl s = .ok t) : EdgeCase p s t := by
  obtain ⟨x, hx, h⟩ := bind_eq_ok.mp h
  obtain rfl := pure_eq_ok.mp h
  exact .l2Pl x hq hx

theorem edgeMemWr_case (hq : s.fsmState = .memWr) : EdgeCase p s (edgeMemWr p s) := by
  unfold edgeMemWr
  split
  · next h => exact .memWr hq h
  · next h => exact .wait (.inr ⟨.inr hq, by simpa using h⟩)

/-- A clock edge that goes on does one of the things `EdgeCase` lists. -/
theorem clock_next (h : clock p s = .next t) : EdgeCase p s t := by
  unfold clock at h
  split at h
  · next hrst => exact Host.Outcome.next.inj h ▸ .reset hrst
  split at h
  · next hstay => exact Host.Outcome.next.inj h ▸ .stall hstay
  cases hq : s.fsmState <;> simp only [hq, outcomeOf_eq_next, Host.Outcome.next.injEq] at h
  case idle => exact h ▸ edgeIdle_case hq
  case l1 => exact edgeL1_case hq h
  case vc => exact edgeVC_case hq h
  case l2 => exact edgeL2_case hq h
  case memRd => exact h ▸ edgeMemRd_case hq
  case fill => exact h ▸ .fill _ hq rfl
  case vcPl => exact edgeVcPl_case hq h
  case l2Pl => exact edgeL2Pl_case hq h
  case wrUpd => exact h ▸ .wrUpd hq
  case memWr => exact h ▸ edgeMemWr_case hq
  case resp => exact h ▸ .resp hq

/-! ## One step -/

/-- All that a step can leave: between accesses what the oldest queued input stands for, else one edge with the memory
answering. -/
inductive StepCase (s : State) : State → Prop where
  | wait (hidle : s.isIdle = true) (hquiet : fetchEvent s = .quiet) : StepCase s s
  | access (i : Instr) (t : State) (hidle : s.isIdle = true) (hfetch : fetchEvent s = .access i)
      (h : exec i s.popInput = .next t) : StepCase s t
  | reset (lines : LineInit) (hidle : s.isIdle = true) (hfetch : fetchEvent s = .reset lines) :
      StepCase s (s.popInput.assertReset lines)
  | edge (t : State) (hbusy : s.isIdle = false) (h : EdgeCase Pins.answering s t) : StepCase s t

theorem step_next (h : step s = .next t) : StepCase s t := by
  unfold step at h
  split at h
  · next hidle =>
    unfold stepIdle at h
    cases hev : fetchEvent s <;> rw [hev] at h
    case quiet => exact Host.Outcome.next.inj h ▸ .wait hidle hev
    case access i => exact .access i t hidle hev h
    case reset lines => exact Host.Outcome.next.inj h ▸ .reset lines hidle hev
    case refuse => cases h
  · next hbusy => exact .edge t (by simpa using hbusy) (clock_next h)

/-! ## The parameters -/

theorem EdgeCase.cfg_eq (h : EdgeCase p s t) : t.cfg = s.cfg := by
  cases h with
  | reset => rw [edgeReset, State.assertReset_cfg, State.setArch_cfg]
  | _ => rfl

theorem exec_cfg {i : Instr} (h : exec i s = .next t) : t.cfg = s.cfg := by
  cases i with
  | read addr =>
    obtain ⟨x, rfl, -⟩ := execRead_next h
    rfl
  | write addr d => rw [execWrite_next h]; rfl

theorem StepCase.cfg_eq (h : StepCase s t) : t.cfg = s.cfg := by
  cases h with
  | wait => rfl
  | access _ _ _ _ h => exact (exec_cfg h).trans (State.popInput_cfg s)
  | reset => rw [State.assertReset_cfg, State.popInput_cfg]
  | edge _ _ h => exact h.cfg_eq

end

/-- Settles O15: no case of a step writes the parameters. -/
theorem stepNeverChangesAParameter : Obligations.StepNeverChangesAParameter :=
  fun _ _ h => (step_next h).cfg_eq

/-- Settles O9: the laws of the arrays after reset, and of `wordOf` and `recencyOf`. -/
theorem resetLeavesEveryLineInvalidAndCountersZero : Obligations.ResetLeavesEveryLineInvalidAndCountersZero := by
  intro cfg lines mem
  refine ⟨fun i => ?_, fun j => ?_, fun k w => ?_, rfl, rfl, rfl, rfl⟩
  · exact Arch.afterReset_l1At cfg lines mem (BitVec.ofFin i)
  · exact Arch.afterReset_vc cfg lines mem j
  · exact Arch.afterReset_l2At cfg lines mem (BitVec.ofFin k) w


/-! ## Why a READ stops (R117, R174) -/

section

variable {cfg : Config} {addr : Addr} {a : Arch} {hit : Bool} {r : Refusal}

/-- What the three probes have in common: a count, a count on a miss, and the counters written. A refusal says which of the two
does not fit. -/
theorem countPair_eq_error {acc miss : Nat} {g : Nat → Nat → Stats}
    (h : (do let x ← countOne cfg acc; let y ← countMiss cfg hit miss; return g x y) = Except.error r) :
    fitsWidth cfg.statW (acc + 1) = false ∨ hit = false ∧ fitsWidth cfg.statW (miss + 1) = false := by
  rcases countOne_cases cfg acc with ⟨-, hacc⟩ | ⟨-, hacc, -⟩
  · rw [hacc] at h
    cases hit with
    | true => cases h
    | false =>
      rcases countOne_cases cfg miss with ⟨-, hmiss⟩ | ⟨-, hmiss, -⟩
      · simp only [countMiss, hmiss] at h
        cases h
      · exact .inr ⟨rfl, hmiss⟩
  · exact .inl hacc

theorem vcSwap_ne_statOverflow (i : Index) (j : Fin 4) (a : Arch) : vcSwap cfg i j a ≠ .error .statOverflow := by
  intro h
  rcases bind_eq_error.mp h with h | ⟨_, -, h⟩
  · rcases place_cases cfg a.vc j (toVc cfg.policy (a.l1At i) i) with ⟨-, hp⟩ | ⟨-, -, hp⟩ <;> rw [hp] at h <;> cases h
  · cases h

theorem finishFill_ne_statOverflow (addr : Addr) (lv : Level) (d : Word) (a : Arch) :
    finishFill cfg addr lv d a ≠ .error .statOverflow := by
  intro h
  rcases bind_eq_error.mp h with h | ⟨_, -, h⟩
  · unfold fillAndCascade at h
    rcases cascade_cases cfg (a.l1At (addrIndex addr)) (addrIndex addr)
      { arch := fillL1 (addrTag addr) (addrIndex addr) d a
        record := { OutcomeRecord.blank with level := lv } } with ⟨_, hc, -⟩ | ⟨-, hc, -⟩ <;> rw [hc] at h <;> cases h
  · cases h

/-- A counter of the L2 probe does not fit. -/
def L2ProbeFull (cfg : Config) (addr : Addr) (a : Arch) : Prop :=
  fitsWidth cfg.statW (a.stat.accL2 + 1) = false ∨
    l2First a (addrIndex addr) (addrTag addr) = none ∧ fitsWidth cfg.statW (a.stat.missL2 + 1) = false

/-- A counter of the VC probe does not fit, or, that probe failing, one of the L2 probe. -/
def VcProbeFull (cfg : Config) (addr : Addr) (a : Arch) : Prop :=
  fitsWidth cfg.statW (a.stat.accVC + 1) = false ∨
    vcFirst a (addrTag addr) (addrIndex addr) = none ∧
      (fitsWidth cfg.statW (a.stat.missVC + 1) = false ∨ L2ProbeFull cfg addr a)

/-- A counter of the L1 probe does not fit, or, that probe failing, one of the levels below. -/
def L1ProbeFull (cfg : Config) (addr : Addr) (a : Arch) : Prop :=
  fitsWidth cfg.statW (a.stat.accL1 + 1) = false ∨
    l1Match a (addrIndex addr) (addrTag addr) = false ∧
      (fitsWidth cfg.statW (a.stat.missL1 + 1) = false ∨ VcProbeFull cfg addr a)

theorem searchL2_statOverflow (h : searchL2 cfg addr a = .error .statOverflow) : L2ProbeFull cfg addr a := by
  rcases bind_eq_error.mp h with h | ⟨st, -, h⟩
  · simpa only [L2ProbeFull, Option.isSome_eq_false_iff, Option.isNone_iff_eq_none] using countPair_eq_error h
  · split at h <;> exact absurd h (finishFill_ne_statOverflow _ _ _ _)

/-- The VC probe leaves the counters of the L2 probe alone. -/
theorem searchVC_statOverflow (h : searchVC cfg addr a = .error .statOverflow) : VcProbeFull cfg addr a := by
  rcases bind_eq_error.mp h with h | ⟨st, hst, h⟩
  · rcases countPair_eq_error h with h | ⟨hmiss, h⟩
    · exact .inl h
    · exact .inr ⟨by simpa using hmiss, .inl h⟩
  · cases hm : vcFirst a (addrTag addr) (addrIndex addr) with
    | some j =>
      rw [hm] at h
      rcases bind_eq_error.mp h with h | ⟨_, -, h⟩
      · exact absurd h (vcSwap_ne_statOverflow _ _ _)
      · cases h
    | none =>
      rw [hm] at h hst
      rcases probeVC_cases cfg false a.stat with hp | ⟨-, -, hp⟩ <;> rw [Option.isSome_none, hp] at hst <;> cases hst
      have hl2 : L2ProbeFull cfg addr (a.setStat (a.stat.withVC false)) := searchL2_statOverflow h
      exact .inr ⟨hm, .inr hl2⟩

theorem searchL1_statOverflow (h : searchL1 cfg addr a = .error .statOverflow) : L1ProbeFull cfg addr a := by
  rcases bind_eq_error.mp h with h | ⟨st, hst, h⟩
  · rcases countPair_eq_error h with h | ⟨hmiss, h⟩
    · exact .inl h
    · exact .inr ⟨hmiss, .inl h⟩
  · cases hm : l1Match a (addrIndex addr) (addrTag addr) with
    | true => rw [hm] at h; cases h
    | false =>
      rw [hm] at h hst
      rcases probeL1_cases cfg false a.stat with hp | ⟨-, -, hp⟩ <;> rw [hp] at hst <;> cases hst
      have hvc : VcProbeFull cfg addr (a.setStat (a.stat.withL1 false)) := searchVC_statOverflow h
      exact .inr ⟨hm, .inr hvc⟩

theorem servedBy_of_l1Miss (h : l1Match a (addrIndex addr) (addrTag addr) = false) :
    servedBy a addr = if (vcFirst a (addrTag addr) (addrIndex addr)).isSome then .vc
      else if (l2First a (addrIndex addr) (addrTag addr)).isSome then .l2 else .mem := by
  unfold servedBy
  rw [h, if_neg Bool.false_ne_true]
  rfl

/-- The counters found full stand among those of the levels searched (R145). -/
theorem L1ProbeFull.exists_countedBy (h : L1ProbeFull cfg addr a) :
    ∃ n ∈ a.stat.countedBy (servedBy a addr), fitsWidth cfg.statW (n + 1) = false := by
  rcases h with h | ⟨h1, h⟩
  · exact ⟨_, by cases servedBy a addr <;> simp [Stats.countedBy], h⟩
  rw [servedBy_of_l1Miss h1]
  rcases h with h | h | ⟨h2, h⟩
  · exact ⟨_, by split_ifs <;> simp [Stats.countedBy], h⟩
  · exact ⟨_, by split_ifs <;> simp [Stats.countedBy], h⟩
  rw [h2, Option.isSome_none, if_neg Bool.false_ne_true]
  rcases h with h | h | ⟨h3, h⟩
  · exact ⟨_, by split_ifs <;> simp [Stats.countedBy], h⟩
  · exact ⟨_, by split_ifs <;> simp [Stats.countedBy], h⟩
  rw [h3, Option.isSome_none, if_neg Bool.false_ne_true]
  exact ⟨_, by simp [Stats.countedBy], h⟩

theorem execRead_statOverflow {s : State} (h : execRead addr s = .refused .statOverflow) : L1ProbeFull s.cfg addr s.arch := by
  unfold execRead at h
  cases hr : searchL1 s.cfg addr s.arch <;> rw [hr] at h <;> cases h
  exact searchL1_statOverflow hr

end

theorem not_canAge_iff {w n : Nat} {cfg : Config} {set : Vector (AgedLine w) n} :
    ¬CanAge cfg set ↔ ∃ k : Fin n, set[k].valid = true ∧ fitsWidth cfg.recencyW (set[k].recency + 1) = false := by
  simp only [CanAge, not_forall, Bool.not_eq_true, exists_prop]

/-- Settles O23: what stops a READ is one of the two reasons of `ReadStops`, and a full counter is one of a level searched. -/
theorem readStopsOnlyAtAFiniteBound : Obligations.ReadStopsOnlyAtAFiniteBound := by
  intro addr s
  rcases execRead_cases addr s with ⟨x, hx, -⟩ | ⟨r, hr, ⟨hfinite, rfl, -⟩ | ⟨hfinite, rfl, hroom⟩⟩
  · exact .inl ⟨_, hx⟩
  · exact .inr (.inl ⟨hr, hfinite, (execRead_statOverflow hr).exists_countedBy⟩)
  · refine .inr (.inr ⟨hr, hfinite, fun hwf => ?_⟩)
    by_cases hvc : CanAge s.cfg s.arch.vc
    · have hl2 : ∃ i, ¬CanAge s.cfg (s.arch.l2At i) := by
        by_contra hall
        exact hroom ⟨hwf, hvc, not_exists_not.mp hall⟩
      obtain ⟨i, hi⟩ := hl2
      exact .inr ⟨i, not_canAge_iff.mp hi⟩
    · exact .inl (not_canAge_iff.mp hvc)

/-! ## Counts keep their width (R25, R27) -/

/-- Every counter fits `STAT_W`. -/
def Stats.Fits (cfg : Config) (st : Stats) : Prop := ∀ n ∈ st.readout, fitsWidth cfg.statW n = true

/-- The architectural part of `State.CountsFit`, which is all of it. -/
structure Arch.CountsFit (cfg : Config) (a : Arch) : Prop where
  vc   : ∀ j : Fin 4, fitsWidth cfg.recencyW a.vc[j].recency = true
  l2   : ∀ (k : Index) (w : Fin 8), fitsWidth cfg.recencyW (a.l2At k)[w].recency = true
  stat : a.stat.Fits cfg

theorem State.countsFit_iff {s : State} : s.CountsFit ↔ s.arch.CountsFit s.cfg :=
  ⟨fun h => ⟨h.vc, h.l2, h.stat⟩, fun h => ⟨h.vc, h.l2, h.stat⟩⟩

section

variable {cfg : Config} {a b : Arch} {st st' : Stats} {hit : Bool}

theorem Stats.fits_iff : st.Fits cfg ↔
    fitsWidth cfg.statW st.accL1 = true ∧ fitsWidth cfg.statW st.missL1 = true ∧
    fitsWidth cfg.statW st.accVC = true ∧ fitsWidth cfg.statW st.missVC = true ∧
    fitsWidth cfg.statW st.accL2 = true ∧ fitsWidth cfg.statW st.missL2 = true := by
  simp [Stats.Fits, Stats.readout]

theorem countOne_fits {m n : Nat} (h : countOne cfg n = .ok m) : fitsWidth cfg.statW m = true := by
  rcases countOne_cases cfg n with ⟨hfit, hok⟩ | ⟨-, -, herr⟩
  · rw [hok] at h; cases h; exact hfit
  · rw [herr] at h; cases h

theorem countMiss_fits {m n : Nat} (hn : fitsWidth cfg.statW n = true) (h : countMiss cfg hit n = .ok m) :
    fitsWidth cfg.statW m = true := by
  cases hit with
  | true => cases h; exact hn
  | false => exact countOne_fits h

/-- What the three probes have in common: they write two counters that fit. -/
theorem countPair_eq_ok {acc miss : Nat} {g : Nat → Nat → Stats} (hmiss : fitsWidth cfg.statW miss = true)
    (h : (do let x ← countOne cfg acc; let y ← countMiss cfg hit miss; return g x y) = Except.ok (ε := Refusal) st') :
    ∃ x y, fitsWidth cfg.statW x = true ∧ fitsWidth cfg.statW y = true ∧ st' = g x y := by
  obtain ⟨x, hx, h⟩ := bind_eq_ok.mp h
  obtain ⟨y, hy, h⟩ := bind_eq_ok.mp h
  exact ⟨x, y, countOne_fits hx, countMiss_fits hmiss hy, (pure_eq_ok.mp h).symm⟩

theorem Stats.Fits.probeL1 (hs : st.Fits cfg) (h : st.probeL1 cfg hit = .ok st') : st'.Fits cfg := by
  rw [Stats.fits_iff] at *
  obtain ⟨-, hmiss, hrest⟩ := hs
  obtain ⟨x, y, hx, hy, rfl⟩ := countPair_eq_ok hmiss h
  exact ⟨hx, hy, hrest⟩

theorem Stats.Fits.probeVC (hs : st.Fits cfg) (h : st.probeVC cfg hit = .ok st') : st'.Fits cfg := by
  rw [Stats.fits_iff] at *
  obtain ⟨hacc1, hmiss1, -, hmiss, hrest⟩ := hs
  obtain ⟨x, y, hx, hy, rfl⟩ := countPair_eq_ok hmiss h
  exact ⟨hacc1, hmiss1, hx, hy, hrest⟩

theorem Stats.Fits.probeL2 (hs : st.Fits cfg) (h : st.probeL2 cfg hit = .ok st') : st'.Fits cfg := by
  rw [Stats.fits_iff] at *
  obtain ⟨hacc1, hmiss1, hacc2, hmiss2, -, hmiss⟩ := hs
  obtain ⟨x, y, hx, hy, rfl⟩ := countPair_eq_ok hmiss h
  exact ⟨hacc1, hmiss1, hacc2, hmiss2, hx, hy⟩

namespace Arch.CountsFit

theorem setStat (h : a.CountsFit cfg) (hst : st.Fits cfg) : (a.setStat st).CountsFit cfg := ⟨h.vc, h.l2, hst⟩

theorem setL1At (h : a.CountsFit cfg) (i : Index) (l : L1Line) : (a.setL1At i l).CountsFit cfg := ⟨h.vc, h.l2, h.stat⟩

theorem memWrite (h : a.CountsFit cfg) (dw : Nat) (addr : Addr) (d : Word) : (a.memWrite dw addr d).CountsFit cfg :=
  ⟨h.vc, h.l2, h.stat⟩

/-- A placement into VC. -/
theorem placeVc (h : a.CountsFit cfg) {j : Fin 4} {line : Line 10} {v : VcSet} (hv : place cfg a.vc j line = .ok v) :
    (a.setVc v).CountsFit cfg :=
  ⟨place_fits hv h.vc, h.l2, h.stat⟩

/-- A placement into an L2 set. -/
theorem placeL2 (h : a.CountsFit cfg) {k : Index} {w : Fin 8} {line : Line 6} {v : L2Set}
    (hv : place cfg (a.l2At k) w line = .ok v) : (a.setL2At k v).CountsFit cfg where
  vc := h.vc
  stat := h.stat
  l2 i := by
    by_cases hi : i = k
    · subst hi
      rw [Arch.setL2At_l2At_same]
      exact place_fits hv (h.l2 i)
    · rw [Arch.setL2At_l2At_other a v hi]
      exact h.l2 i

theorem vcSwap (h : a.CountsFit cfg) {i : Index} {j : Fin 4} (hb : vcSwap cfg i j a = .ok b) : b.CountsFit cfg := by
  obtain ⟨v, hv, hb⟩ := bind_eq_ok.mp hb
  obtain rfl := pure_eq_ok.mp hb
  exact (h.placeVc hv).setL1At i _

theorem placeInVc (h : a.CountsFit cfg) {v : L1Line} {i : Index} {x : VcPlaced} (hx : placeInVc cfg v i a = .ok x) :
    x.arch.CountsFit cfg := by
  obtain ⟨v, hv, hx⟩ := bind_eq_ok.mp hx
  obtain rfl := pure_eq_ok.mp hx
  exact h.placeVc hv

theorem placeInL2 (h : a.CountsFit cfg) {v : Line 10} {x : L2Placed} (hx : placeInL2 cfg v a = .ok x) :
    x.arch.CountsFit cfg := by
  obtain ⟨v, hv, hx⟩ := bind_eq_ok.mp hx
  obtain rfl := pure_eq_ok.mp hx
  exact h.placeL2 hv

theorem cascade {x y : Traced} (h : x.arch.CountsFit cfg) {v : L1Line} {i : Index} (hy : cascade cfg v i x = .ok y) :
    y.arch.CountsFit cfg := by
  unfold Machine.cascade at hy
  split at hy
  · cases hy; exact h
  obtain ⟨p, hp, hy⟩ := bind_eq_ok.mp hy
  split at hy
  · obtain ⟨q, hq, hy⟩ := bind_eq_ok.mp hy
    obtain rfl := pure_eq_ok.mp hy
    exact (h.placeInVc hp).placeInL2 hq
  · obtain rfl := pure_eq_ok.mp hy
    exact h.placeInVc hp

theorem finishFill (h : a.CountsFit cfg) {addr : Addr} {lv : Level} {d : Word} {x : ReadDone}
    (hx : finishFill cfg addr lv d a = .ok x) : x.arch.CountsFit cfg := by
  obtain ⟨y, hy, hx⟩ := bind_eq_ok.mp hx
  obtain rfl := pure_eq_ok.mp hx
  exact cascade (h.setL1At _ _) hy

theorem searchL2 (h : a.CountsFit cfg) {addr : Addr} {x : ReadDone} (hx : searchL2 cfg addr a = .ok x) :
    x.arch.CountsFit cfg := by
  obtain ⟨st, hst, hx⟩ := bind_eq_ok.mp hx
  have h' := h.setStat (h.stat.probeL2 hst)
  split at hx <;> exact h'.finishFill hx

theorem searchVC (h : a.CountsFit cfg) {addr : Addr} {x : ReadDone} (hx : searchVC cfg addr a = .ok x) :
    x.arch.CountsFit cfg := by
  obtain ⟨st, hst, hx⟩ := bind_eq_ok.mp hx
  have h' := h.setStat (h.stat.probeVC hst)
  split at hx
  · obtain ⟨b, hb, hx⟩ := bind_eq_ok.mp hx
    obtain rfl := pure_eq_ok.mp hx
    exact h'.vcSwap hb
  · exact h'.searchL2 hx

theorem searchL1 (h : a.CountsFit cfg) {addr : Addr} {x : ReadDone} (hx : searchL1 cfg addr a = .ok x) :
    x.arch.CountsFit cfg := by
  obtain ⟨st, hst, hx⟩ := bind_eq_ok.mp hx
  have h' := h.setStat (h.stat.probeL1 hst)
  split at hx
  · obtain rfl := pure_eq_ok.mp hx
    exact h'
  · exact h'.searchVC hx

theorem writeCaches (h : a.CountsFit cfg) (addr : Addr) (d : Word) : (writeCaches addr d a).CountsFit cfg where
  vc j := by rw [writeCaches_vc]; exact h.vc j
  l2 k w := by rw [writeCaches_l2At]; exact h.l2 k w
  stat := by rw [writeCaches_stat]; exact h.stat

theorem afterReset (cfg : Config) (lines : LineInit) (mem : Memory) : (Arch.afterReset cfg lines mem).CountsFit cfg where
  vc j := by rw [Arch.afterReset_vc]; exact recencyOf_fits _ _
  l2 k w := by rw [Arch.afterReset_l2At]; exact recencyOf_fits _ _
  stat := Stats.fits_iff.mpr (by cases cfg.statW <;> simp [Stats.zero, fitsWidth])

end Arch.CountsFit

end

section

variable {p : Pins} {s t : State}

theorem EdgeCase.countsFit (h : EdgeCase p s t) (hs : s.arch.CountsFit s.cfg) : t.arch.CountsFit s.cfg := by
  cases h with
  | reset => exact .afterReset _ _ _
  | stall | wait | accept | memRd | resp => exact hs
  | l1Hit st _ _ hst | l1Miss st _ _ hst => exact hs.setStat (hs.stat.probeL1 hst)
  | vcHit j st b _ _ hst hb => exact (hs.setStat (hs.stat.probeVC hst)).vcSwap hb
  | vcMiss st _ _ hst => exact hs.setStat (hs.stat.probeVC hst)
  | l2Hit w st _ _ hst => exact hs.setStat (hs.stat.probeL2 hst)
  | l2Miss st _ _ hst => exact hs.setStat (hs.stat.probeL2 hst)
  | fill => exact hs.setL1At _ _
  | vcPl x _ hx => exact hs.placeInVc hx
  | l2Pl x _ hx => exact hs.placeInL2 hx
  | wrUpd => exact hs.writeCaches _ _
  | memWr => exact hs.memWrite _ _ _

theorem execRead_countsFit {addr : Addr} (hs : s.arch.CountsFit s.cfg) (h : execRead addr s = .next t) :
    t.arch.CountsFit s.cfg := by
  unfold execRead at h
  cases hx : searchL1 s.cfg addr s.arch <;> rw [hx] at h <;> cases h
  exact hs.searchL1 hx

theorem exec_countsFit {i : Instr} (hs : s.arch.CountsFit s.cfg) (h : exec i s = .next t) : t.arch.CountsFit s.cfg := by
  cases i with
  | read addr => exact execRead_countsFit hs h
  | write addr d =>
    rw [execWrite_next h]
    exact (hs.writeCaches addr d).memWrite _ _ _

theorem StepCase.countsFit (h : StepCase s t) (hs : s.arch.CountsFit s.cfg) : t.arch.CountsFit s.cfg := by
  cases h with
  | wait => exact hs
  | access i _ _ _ h => exact exec_countsFit (s := s.popInput) hs h
  | reset => exact .afterReset _ _ _
  | edge _ _ h => exact h.countsFit hs

end

/-- Settles O40: a probe and a placement answer only what fits, and nothing else of the machine writes a counter or a recency,
but a reset, which takes the bits that fit. -/
theorem countsKeepTheirWidth : Obligations.CountsKeepTheirWidth := by
  refine ⟨fun cfg lines mem => ?_, fun p s t hs h => ?_, fun s t hs h => ?_⟩ <;> rw [State.countsFit_iff] at *
  · exact .afterReset cfg lines mem
  · rw [(clock_next h).cfg_eq]
    exact (clock_next h).countsFit hs
  · rw [(step_next h).cfg_eq]
    exact (step_next h).countsFit hs

/-! ## Words keep their width (R11, R21) -/

/-- The architectural part of `State.WordsFit`: the words of memory and of every line. -/
structure Arch.StoredWordsFit (dw : Nat) (a : Arch) : Prop where
  mem   : a.mem.wf dw = true
  lines : a.WordsFit dw

/-- The word of every line of a set has `DATA_W` bits. -/
def DataFits (dw : Nat) {w n : Nat} (set : Vector (AgedLine w) n) : Prop := ∀ k : Fin n, fitsWord dw set[k].data = true

section

variable {cfg : Config} {dw : Nat} {a b : Arch} {d : Word}

theorem DataFits.placedIn {w n : Nat} {set : Vector (AgedLine w) n} (h : DataFits dw set) (slot : Fin n) {line : Line w}
    (hline : fitsWord dw line.data = true) : DataFits dw (placedIn set slot line) := by
  intro k
  by_cases hk : k = slot
  · subst hk
    rw [placedIn_same]
    exact hline
  · rw [placedIn_other_toLine set line hk]
    exact h k

/-- A word written where some word stood fits if both do. -/
theorem fitsWord_ite {c : Prop} [Decidable c] {e : Word} (hd : fitsWord dw d = true) (he : fitsWord dw e = true) :
    fitsWord dw (if c then d else e) = true := by
  split
  · exact hd
  · exact he

namespace Arch.StoredWordsFit

theorem memRead (h : a.StoredWordsFit dw) (addr : Addr) : fitsWord dw (a.memRead dw addr) = true := Memory.fits_read h.mem _

theorem setStat (h : a.StoredWordsFit dw) (st : Stats) : (a.setStat st).StoredWordsFit dw :=
  ⟨h.mem, h.lines.l1, h.lines.vc, h.lines.l2⟩

theorem setL1At (h : a.StoredWordsFit dw) (i : Index) {l : L1Line} (hl : fitsWord dw l.data = true) :
    (a.setL1At i l).StoredWordsFit dw where
  mem := h.mem
  lines := {
    vc := h.lines.vc
    l2 := h.lines.l2
    l1 := fun j => by
      by_cases hj : j = i
      · subst hj
        rw [Arch.setL1At_l1At_same]
        exact hl
      · rw [Arch.setL1At_l1At_other a l hj]
        exact h.lines.l1 j }

theorem setVc (h : a.StoredWordsFit dw) {v : VcSet} (hv : DataFits dw v) : (a.setVc v).StoredWordsFit dw :=
  ⟨h.mem, h.lines.l1, hv, h.lines.l2⟩

theorem setL2At (h : a.StoredWordsFit dw) (k : Index) {set : L2Set} (hset : DataFits dw set) :
    (a.setL2At k set).StoredWordsFit dw where
  mem := h.mem
  lines := {
    l1 := h.lines.l1
    vc := h.lines.vc
    l2 := fun i => by
      by_cases hi : i = k
      · subst hi
        rw [Arch.setL2At_l2At_same]
        exact hset
      · rw [Arch.setL2At_l2At_other a set hi]
        exact h.lines.l2 i }

theorem memWrite (h : a.StoredWordsFit dw) (addr : Addr) (hd : fitsWord dw d = true) :
    (a.memWrite dw addr d).StoredWordsFit dw :=
  ⟨Memory.wf_write h.mem hd addr.isLt, h.lines.l1, h.lines.vc, h.lines.l2⟩

theorem writeCaches (h : a.StoredWordsFit dw) (addr : Addr) (hd : fitsWord dw d = true) :
    (writeCaches addr d a).StoredWordsFit dw where
  mem := by rw [writeCaches_mem]; exact h.mem
  lines := {
    l1 := fun i => by rw [writeCaches_l1At]; exact fitsWord_ite hd (h.lines.l1 i)
    vc := fun j => by rw [writeCaches_vc]; exact fitsWord_ite hd (h.lines.vc j)
    l2 := fun k w => by rw [writeCaches_l2At]; exact fitsWord_ite hd (h.lines.l2 k w) }

/-- A placement into VC of a line that leaves L1. -/
theorem placeVc (h : a.StoredWordsFit dw) (pol : InvalidVictimPolicy) (i : Index) (j : Fin 4) {v : L1Line}
    (hv : fitsWord dw v.data = true) : (a.setVc (placedIn a.vc j (toVc pol v i))).StoredWordsFit dw :=
  h.setVc (DataFits.placedIn h.lines.vc j hv)

/-- A placement into an L2 set of a line that leaves VC. -/
theorem placeL2 (h : a.StoredWordsFit dw) (k : Index) (w : Fin 8) {v : Line 10} (hv : fitsWord dw v.data = true) :
    (a.setL2At k (placedIn (a.l2At k) w (fromVc v))).StoredWordsFit dw :=
  h.setL2At k (DataFits.placedIn (h.lines.l2 k) w hv)

theorem vcSwap (h : a.StoredWordsFit dw) {i : Index} {j : Fin 4} (hb : vcSwap cfg i j a = .ok b) :
    b.StoredWordsFit dw := by
  obtain ⟨v, hv, hb⟩ := bind_eq_ok.mp hb
  obtain rfl := pure_eq_ok.mp hb
  obtain rfl := place_eq_ok hv
  exact (h.setL1At i (h.lines.vc j)).placeVc cfg.policy i j (h.lines.l1 i)

theorem placeInVc (h : a.StoredWordsFit dw) {v : L1Line} (hv : fitsWord dw v.data = true) {i : Index} {x : VcPlaced}
    (hx : placeInVc cfg v i a = .ok x) : x.arch.StoredWordsFit dw ∧ fitsWord dw x.victim.data = true := by
  obtain ⟨set, hset, hx⟩ := bind_eq_ok.mp hx
  obtain rfl := pure_eq_ok.mp hx
  obtain rfl := place_eq_ok hset
  exact ⟨h.placeVc cfg.policy i _ hv, h.lines.vc _⟩

theorem placeInL2 (h : a.StoredWordsFit dw) {v : Line 10} (hv : fitsWord dw v.data = true) {x : L2Placed}
    (hx : placeInL2 cfg v a = .ok x) : x.arch.StoredWordsFit dw := by
  obtain ⟨set, hset, hx⟩ := bind_eq_ok.mp hx
  obtain rfl := pure_eq_ok.mp hx
  obtain rfl := place_eq_ok hset
  exact h.placeL2 _ _ hv

theorem cascadeCase {x y : Traced} (h : x.arch.StoredWordsFit dw) {v : L1Line} (hv : fitsWord dw v.data = true) {i : Index}
    (hy : CascadeCase cfg v i x y) : y.arch.StoredWordsFit dw := by
  cases hy with
  | skipped => exact h
  | free k => exact h.placeVc cfg.policy i k hv
  | evict j w => exact (h.placeVc cfg.policy i j hv).placeL2 _ w (h.lines.vc j)

theorem fillSource {addr : Addr} {lv : Level} (h : a.StoredWordsFit cfg.dataW) (hd : FillSource cfg a addr lv d) :
    fitsWord cfg.dataW d = true := by
  rcases hd with ⟨w, -, -, rfl⟩ | ⟨-, -, rfl⟩
  · exact h.lines.l2 _ w
  · exact h.memRead addr

theorem readCase {addr : Addr} {x : ReadDone} (h : a.StoredWordsFit cfg.dataW) (hx : ReadCase cfg addr a x) :
    x.arch.StoredWordsFit cfg.dataW ∧ fitsWord cfg.dataW x.word = true := by
  cases hx with
  | l1Hit => exact ⟨h.setStat _, h.lines.l1 _⟩
  | vcHit j =>
    have hswap := ((h.setStat (a.stat.afterRead .vc)).setL1At (addrIndex addr)
      (l := { tag := vcTagTag a.vc[j].tag, data := a.vc[j].data, valid := true }) (h.lines.vc j))
    exact ⟨hswap.placeVc cfg.policy (addrIndex addr) j (h.lines.l1 _), h.lines.vc j⟩
  | fill lv d y _ _ hsrc hy =>
    have hd := h.fillSource hsrc
    exact ⟨cascadeCase ((h.setStat _).setL1At _ hd) (h.lines.l1 _) hy, hd⟩

theorem afterReset (cfg : Config) (lines : LineInit) {mem : Memory} (hmem : mem.wf cfg.dataW = true) :
    (Arch.afterReset cfg lines mem).StoredWordsFit cfg.dataW where
  mem := hmem
  lines := {
    l1 := fun i => by rw [Arch.afterReset_l1At]; exact wordOf_fits _ _
    vc := fun j => by rw [Arch.afterReset_vc]; exact wordOf_fits _ _
    l2 := fun k w => by rw [Arch.afterReset_l2At]; exact wordOf_fits _ _ }

end Arch.StoredWordsFit

end

/-! The latches: moving on to a state and writing the record leave the words alone. -/

namespace Fsm.WordsFit

variable {dw : Nat} {f : Fsm}

theorem goTo (h : f.WordsFit dw) (q : FsmState) : (f.goTo q).WordsFit dw := ⟨h.rWdata, h.rData, h.v1, h.v2⟩

theorem withRecord (h : f.WordsFit dw) (r : OutcomeRecord) : ({ f with dbg := r } : Fsm).WordsFit dw :=
  ⟨h.rWdata, h.rData, h.v1, h.v2⟩

theorem withData (h : f.WordsFit dw) {d : Word} (hd : fitsWord dw d = true) : ({ f with rData := d } : Fsm).WordsFit dw :=
  ⟨h.rWdata, hd, h.v1, h.v2⟩

end Fsm.WordsFit

theorem decodeNat_wf {dw w : Nat} {i : Instr} (h : decodeNat dw w = .ok i) : i.wf dw = true := by
  unfold decodeNat at h
  split at h
  · exact decode_wf h
  · cases h

theorem decodeTrace_wf {dw : Nat} {t : TraceOp} {i : Instr} (h : decodeTrace dw t = .ok i) : i.wf dw = true := by
  unfold decodeTrace at h
  split at h
  · exact decode_wf h
  · cases h

theorem eventOf_eq_access {r : Except DecodeError Instr} {i : Instr} : eventOf r = .access i ↔ r = .ok i := by
  cases r <;> simp [eventOf]

/-- An operation fetched from the queue is well-formed (R76). -/
theorem fetchEvent_access_wf {s : State} {i : Instr} (h : fetchEvent s = .access i) : i.wf s.cfg.dataW = true := by
  unfold fetchEvent at h
  split at h
  · cases h
  · exact decodeNat_wf (eventOf_eq_access.mp h)
  · exact decodeTrace_wf (eventOf_eq_access.mp h)
  · cases h

theorem State.wordsFit_iff {s : State} : s.WordsFit ↔ s.arch.StoredWordsFit s.cfg.dataW ∧ s.fsm.WordsFit s.cfg.dataW ∧
    ∀ r d, s.resp = some r → r.rdata = some d → fitsWord s.cfg.dataW d = true :=
  ⟨fun h => ⟨⟨h.mem, h.arch⟩, h.fsm, h.resp⟩, fun ⟨ha, hf, hr⟩ => ⟨ha.mem, ha.lines, hf, hr⟩⟩

namespace State.WordsFit

variable {p : Pins} {s t : State}

theorem stored (h : s.WordsFit) : s.arch.StoredWordsFit s.cfg.dataW := ⟨h.mem, h.arch⟩

theorem update (h : s.WordsFit) {a : Arch} {f : Fsm} (ha : a.StoredWordsFit s.cfg.dataW) (hf : f.WordsFit s.cfg.dataW) :
    ((s.setArch a).setFsm f).WordsFit :=
  ⟨ha.mem, ha.lines, hf, h.resp⟩

theorem setFsm (h : s.WordsFit) {f : Fsm} (hf : f.WordsFit s.cfg.dataW) : (s.setFsm f).WordsFit := h.update h.stored hf

theorem popInput (h : s.WordsFit) : s.popInput.WordsFit := ⟨h.mem, h.arch, h.fsm, h.resp⟩

theorem complete (h : s.WordsFit) {a : Arch} (ha : a.StoredWordsFit s.cfg.dataW) {d : Option Word}
    (hd : ∀ e, d = some e → fitsWord s.cfg.dataW e = true) (r : OutcomeRecord) : (s.complete a d r).WordsFit where
  mem := ha.mem
  arch := ha.lines
  fsm := h.fsm
  resp x e hx he := by
    cases hx
    exact hd e he

theorem assertReset (h : s.WordsFit) (lines : LineInit) : (s.assertReset lines).WordsFit := by
  rw [State.wordsFit_iff, State.assertReset_arch, State.assertReset_cfg, State.assertReset_fsm, State.assertReset_resp]
  exact ⟨.afterReset s.cfg lines h.mem, ⟨h.fsm.rWdata, h.fsm.rData, h.fsm.v1, h.fsm.v2⟩, fun _ _ hr => nomatch hr⟩

/-- A reset edge, whether or not a write it cuts off lands. -/
theorem edgeReset (h : s.WordsFit) (p : Pins) : (edgeReset p s).WordsFit := by
  have ha : (if s.fsmState = .memWr ∧ p.wrLands = true then s.arch.memWrite s.cfg.dataW s.fsm.rAddr s.fsm.rWdata
      else s.arch).StoredWordsFit s.cfg.dataW := by
    split
    · exact h.stored.memWrite s.fsm.rAddr h.fsm.rWdata
    · exact h.stored
  exact (h.update ha h.fsm).assertReset p.lines

/-- In `S_RESP` the response carries `r_data`, or no word. -/
theorem edgeResp (h : s.WordsFit) : (edgeResp s).WordsFit where
  mem := h.mem
  arch := h.arch
  fsm := h.fsm.goTo .idle
  resp x d hx hd := by
    cases hx
    simp only [State.fsmResponse, mkResponse_rdata, Fsm.respWord] at hd
    split at hd <;> cases hd
    exact h.fsm.rData

theorem edgeCase (h : s.WordsFit) (ht : EdgeCase p s t) : t.WordsFit := by
  have hf := h.fsm
  have ha := h.stored
  cases ht with
  | reset => exact h.edgeReset p
  | stall => exact h.setFsm ⟨hf.rWdata, hf.rData, hf.v1, hf.v2⟩
  | wait => exact h
  | accept => exact h.setFsm ⟨Pins.wdata_fits _ p, hf.rData, hf.v1, hf.v2⟩
  | l1Hit st => exact h.update (ha.setStat st) ((hf.withData (h.arch.l1 _)).goTo .resp)
  | l1Miss st => exact h.update (ha.setStat st) (hf.goTo .vc)
  | vcHit j st b _ _ _ hb =>
    exact h.update ((ha.setStat st).vcSwap hb) (((hf.withData (h.arch.vc j)).withRecord _).goTo .resp)
  | vcMiss st => exact h.update (ha.setStat st) (hf.goTo .l2)
  | l2Hit w st => exact h.update (ha.setStat st) (((hf.withData (h.arch.l2 _ w)).withRecord _).goTo .fill)
  | l2Miss st => exact h.update (ha.setStat st) ((hf.withRecord _).goTo .memRd)
  | memRd => exact h.setFsm ((hf.withData (ha.memRead _)).goTo .fill)
  | fill q => exact h.update (ha.setL1At _ hf.rData) ⟨hf.rWdata, hf.rData, h.arch.l1 _, hf.v2⟩
  | vcPl x _ hx =>
    obtain ⟨hx, hvictim⟩ := ha.placeInVc hf.v1 hx
    exact h.update hx ⟨hf.rWdata, hf.rData, hf.v1, hvictim⟩
  | l2Pl x _ hx => exact h.update (ha.placeInL2 hf.v2 hx) ((hf.withRecord _).goTo .resp)
  | wrUpd => exact h.update (ha.writeCaches _ hf.rWdata) ((hf.withRecord _).goTo .memWr)
  | memWr => exact h.update (ha.memWrite _ hf.rWdata) (hf.goTo .resp)
  | resp => exact h.edgeResp

theorem exec (h : s.WordsFit) {i : Instr} (hi : i.wf s.cfg.dataW = true) (ht : exec i s = .next t) : t.WordsFit := by
  cases i with
  | read addr =>
    obtain ⟨x, rfl, hx⟩ := execRead_next ht
    obtain ⟨ha, hword⟩ := h.stored.readCase hx
    refine h.complete ha (fun e he => ?_) x.record
    cases he
    exact hword
  | write addr d =>
    rw [execWrite_next ht]
    exact h.complete (d := none) ((h.stored.writeCaches addr hi).memWrite addr hi) nofun _

theorem stepCase (h : s.WordsFit) (ht : StepCase s t) : t.WordsFit := by
  cases ht with
  | wait => exact h
  | access i _ _ hfetch ht =>
    have hi := fetchEvent_access_wf hfetch
    exact h.popInput.exec hi ht
  | reset lines => exact h.popInput.assertReset lines
  | edge _ _ ht => exact h.edgeCase ht

theorem resetWith (cfg : Config) (lines : LineInit) {mem : Memory} (hmem : mem.wf cfg.dataW = true) :
    (State.resetWith cfg lines mem).WordsFit := by
  have hzero : fitsWord cfg.dataW 0 = true := decide_eq_true (Nat.two_pow_pos _)
  rw [State.wordsFit_iff]
  unfold State.resetWith
  exact ⟨.afterReset cfg lines hmem, ⟨hzero, hzero, hzero, hzero⟩, fun _ _ hr => nomatch hr⟩

end State.WordsFit

/-- Settles O39: the words that enter the machine have the width of their port or field, and the operations only move words. -/
theorem wordsKeepTheirWidth : Obligations.WordsKeepTheirWidth :=
  ⟨fun cfg lines _ hmem => .resetWith cfg lines hmem, fun _ _ _ hs h => hs.edgeCase (clock_next h),
    fun _ _ hs h => hs.stepCase (step_next h)⟩

end Sys2Proof.Machine

/-! SUPPORT. The invariants of the stores and of the counters (R39, R175): what a placement does to valid flags and recencies,
that each operation keeps the invariants, and so every step. -/

namespace Sys2Proof.Machine

/-! ## A set after a placement: valid flags and recencies (R105, R106, R119) -/

section

variable {w n : Nat} {set : Vector (AgedLine w) n} {slot : Fin n} {line : Line w}

theorem placedIn_valid (set : Vector (AgedLine w) n) (slot k : Fin n) (line : Line w) :
    (placedIn set slot line)[k].valid = if k = slot then line.valid else set[k].valid := by
  by_cases hk : k = slot
  · subst hk
    rw [placedIn_same, if_pos rfl]
  · rw [placedIn_other_toLine set line hk, if_neg hk]

/-- A line that is valid after a placement is the placed line, with recency 0, or was valid and is older by one. -/
theorem placedIn_cases_of_valid {k : Fin n} (hv : (placedIn set slot line)[k].valid = true) :
    (k = slot ∧ line.valid = true ∧ (placedIn set slot line)[k] = ⟨line, 0⟩) ∨
    (k ≠ slot ∧ set[k].valid = true ∧ (placedIn set slot line)[k] = ⟨set[k].toLine, set[k].recency + 1⟩) := by
  rw [placedIn_valid] at hv
  by_cases hk : k = slot
  · subst hk
    rw [if_pos rfl] at hv
    exact .inl ⟨rfl, hv, placedIn_same set k line⟩
  · rw [if_neg hk] at hv
    exact .inr ⟨hk, hv, by rw [placedIn_other set line hk, AgedLine.older_of_valid hv]⟩

theorem DistinctRecency.placedIn (h : DistinctRecency set) (slot : Fin n) (line : Line w) :
    DistinctRecency (placedIn set slot line) := by
  intro j k hj hk heq
  rcases placedIn_cases_of_valid hj with ⟨hjs, -, hj'⟩ | ⟨-, hjv, hj'⟩ <;>
    rcases placedIn_cases_of_valid hk with ⟨hks, -, hk'⟩ | ⟨-, hkv, hk'⟩ <;> rw [hj', hk'] at heq
  · exact hjs.trans hks.symm
  · cases heq
  · cases heq
  · exact h j k hjv hkv (Nat.succ.inj heq)

theorem validCount_eq_card (set : Vector (AgedLine w) n) :
    validCount set = (Finset.univ.filter fun k : Fin n => set[k].valid = true).card := by
  unfold validCount
  rw [← List.toFinset_card_of_nodup ((List.nodup_finRange n).filter _)]
  congr 1
  ext k
  simp

theorem validCount_le (set : Vector (AgedLine w) n) : validCount set ≤ n :=
  (List.length_filter_le _ _).trans_eq List.length_finRange

theorem validCount_congr {u v : Vector (AgedLine w) n} (h : ∀ k : Fin n, u[k].valid = v[k].valid) :
    validCount u = validCount v := by
  unfold validCount
  simp only [h]

theorem validCount_placedIn_of_free (hfree : set[slot].valid = false) (hline : line.valid = true) :
    validCount (placedIn set slot line) = validCount set + 1 := by
  have hinsert : (Finset.univ.filter fun k : Fin n => (placedIn set slot line)[k].valid = true) =
      insert slot (Finset.univ.filter fun k : Fin n => set[k].valid = true) := by
    ext k
    rw [Finset.mem_insert, Finset.mem_filter_univ, Finset.mem_filter_univ, placedIn_valid]
    split_ifs with hk
    · exact iff_of_true hline (.inl hk)
    · exact (or_iff_right hk).symm
  rw [validCount_eq_card, validCount_eq_card, hinsert, Finset.card_insert_of_notMem]
  rw [Finset.mem_filter_univ, hfree]
  exact Bool.false_ne_true

/-- A placement into a free slot: one valid line more. -/
theorem BoundedRecency.placedIn_free (h : BoundedRecency set) (hfree : set[slot].valid = false) (hline : line.valid = true) :
    BoundedRecency (placedIn set slot line) := by
  intro k hk
  rw [validCount_placedIn_of_free hfree hline]
  rcases placedIn_cases_of_valid hk with ⟨-, -, hk'⟩ | ⟨-, hv, hk'⟩ <;> rw [hk']
  · exact Nat.succ_pos _
  · exact Nat.succ_lt_succ (h k hv)

/-- A placement over the oldest line of a full set: every line left was younger. -/
theorem BoundedRecency.placedIn_oldest (h : BoundedRecency set) (hd : DistinctRecency set) (hfull : IsFull set)
    (hold : IsOldest set slot) (hline : line.valid = true) : BoundedRecency (placedIn set slot line) := by
  have hcount : validCount (placedIn set slot line) = validCount set :=
    validCount_congr fun k => by rw [placedIn_valid, hline, hfull k, ite_self]
  intro k hk
  rw [hcount]
  have hslot := h slot (hfull slot)
  rcases placedIn_cases_of_valid hk with ⟨-, -, hk'⟩ | ⟨hne, hv, hk'⟩ <;> rw [hk']
  · exact Nat.zero_lt_of_lt hslot
  · have hyounger : set[k].recency < set[slot].recency :=
      lt_of_le_of_ne (hold k).1 fun e => hne (hd k slot hv (hfull slot) e)
    exact Nat.lt_of_le_of_lt hyounger hslot

end

/-! ## The invariants of the stores are kept (R39) -/

section

variable {a b : Arch} {pol : InvalidVictimPolicy} {cfg : Config} {addr : Addr} {i : Index} {t : Tag} {d : Word}

theorem validInVc_of_ne_forceValid (hpol : pol ≠ .forceValid) (valid : Bool) : validInVc pol valid = valid := by
  cases pol with
  | forceValid => exact absurd rfl hpol
  | copyValid | skip => rfl

theorem toVc_valid_of_ne_forceValid (hpol : pol ≠ .forceValid) (l : L1Line) (i : Index) :
    (toVc pol l i).valid = l.valid := validInVc_of_ne_forceValid hpol l.valid

theorem l1Match_eq_false : l1Match a i t = false ↔ ¬((a.l1At i).valid = true ∧ (a.l1At i).tag = t) := by
  rw [← l1Match_iff, Bool.not_eq_true]

/-- A valid line in `L1[i]` leaves every other valid flag of L1 as it was. -/
theorem setL1At_valid_mono {l : L1Line} (hl : l.valid = true) {k : Index} (hk : (a.l1At k).valid = true) :
    ((a.setL1At i l).l1At k).valid = true := by
  by_cases h : k = i
  · subst h
    rw [Arch.setL1At_l1At_same]
    exact hl
  · rw [Arch.setL1At_l1At_other a l h]
    exact hk

namespace Arch.StoresInv

/-- The invariants speak of valid flags, tags and recencies only. -/
theorem congr (h : a.StoresInv) (hl1 : ∀ i, (b.l1At i).valid = (a.l1At i).valid ∧ (b.l1At i).tag = (a.l1At i).tag)
    (hvc : ∀ j : Fin 4, b.vc[j].valid = a.vc[j].valid ∧ b.vc[j].tag = a.vc[j].tag ∧ b.vc[j].recency = a.vc[j].recency)
    (hl2 : ∀ (k : Index) (w : Fin 8), (b.l2At k)[w].valid = (a.l2At k)[w].valid ∧
      (b.l2At k)[w].recency = (a.l2At k)[w].recency) : b.StoresInv where
  noBlockTwice := by
    unfold NoBlockTwice
    simp only [hl1, hvc]
    exact h.noBlockTwice
  vcBacked := by
    unfold VcBacked
    simp only [hl1, hvc]
    exact h.vcBacked
  l2Backed := by
    unfold L2Backed
    simp only [hl1, hl2]
    exact h.l2Backed
  vcDistinct := by
    unfold DistinctRecency
    simp only [hvc]
    exact h.vcDistinct
  l2Distinct k := by
    unfold DistinctRecency
    simp only [hl2]
    exact h.l2Distinct k
  l2Bounded k := by
    unfold BoundedRecency
    rw [validCount_congr fun w => (hl2 k w).1]
    simp only [hl2]
    exact h.l2Bounded k

theorem setStat (h : a.StoresInv) (st : Stats) : (a.setStat st).StoresInv :=
  ⟨h.noBlockTwice, h.vcBacked, h.l2Backed, h.vcDistinct, h.l2Distinct, h.l2Bounded⟩

theorem memWrite (h : a.StoresInv) (dw : Nat) (addr : Addr) (d : Word) : (a.memWrite dw addr d).StoresInv :=
  ⟨h.noBlockTwice, h.vcBacked, h.l2Backed, h.vcDistinct, h.l2Distinct, h.l2Bounded⟩

theorem writeCaches (h : a.StoresInv) (addr : Addr) (d : Word) : (writeCaches addr d a).StoresInv :=
  h.congr (fun i => by rw [writeCaches_l1At]; exact ⟨rfl, rfl⟩) (fun j => by rw [writeCaches_vc]; exact ⟨rfl, rfl, rfl⟩)
    (fun k w => by rw [writeCaches_l2At]; exact ⟨rfl, rfl⟩)

/-- A new valid line in `L1[i]`, of a block that VC does not hold. -/
theorem setL1At (h : a.StoresInv) {l : L1Line} (hl : l.valid = true)
    (hvc : ∀ j : Fin 4, ¬(a.vc[j].valid = true ∧ a.vc[j].tag = vcKey l.tag i)) : (a.setL1At i l).StoresInv where
  noBlockTwice := by
    refine ⟨fun k j hk hj => ?_, h.noBlockTwice.2⟩
    by_cases hki : k = i
    · subst hki
      rw [Arch.setL1At_l1At_same]
      exact fun htag => hvc j ⟨hj, htag⟩
    · rw [Arch.setL1At_l1At_other a l hki] at hk ⊢
      exact h.noBlockTwice.1 k j hk hj
  vcBacked j hj := setL1At_valid_mono hl (h.vcBacked j hj)
  l2Backed k w hw := setL1At_valid_mono hl (h.l2Backed k w hw)
  vcDistinct := h.vcDistinct
  l2Distinct := h.l2Distinct
  l2Bounded := h.l2Bounded

/-- A new valid line in `L1[i]` while the old one goes into a VC slot: the new block is not the old one, and no other VC slot
holds it (R134, R137). -/
theorem exchange (h : a.StoresInv) (hpol : pol ≠ .forceValid) {l : L1Line} (hl : l.valid = true) {slot : Fin 4}
    (hold : ¬((a.l1At i).valid = true ∧ (a.l1At i).tag = l.tag))
    (hvc : ∀ j : Fin 4, j ≠ slot → ¬(a.vc[j].valid = true ∧ a.vc[j].tag = vcKey l.tag i)) :
    ((a.setL1At i l).setVc (placedIn a.vc slot (toVc pol (a.l1At i) i))).StoresInv where
  noBlockTwice := by
    refine ⟨fun k j hk hj => ?_, fun j k hj hk htag => ?_⟩
    · rw [Arch.setVc_vc] at hj ⊢
      rw [Arch.setVc_l1At] at hk ⊢
      rcases placedIn_cases_of_valid hj with ⟨-, hv, hj'⟩ | ⟨hjs, hv, hj'⟩ <;> rw [hj'] <;> by_cases hki : k = i
      · subst hki
        rw [toVc_valid_of_ne_forceValid hpol] at hv
        rw [Arch.setL1At_l1At_same]
        exact fun htag => hold ⟨hv, (vcKey_inj.mp htag).1⟩
      · exact fun htag => hki (vcKey_inj.mp htag).2.symm
      · subst hki
        rw [Arch.setL1At_l1At_same]
        exact fun htag => hvc j hjs ⟨hv, htag⟩
      · rw [Arch.setL1At_l1At_other a l hki] at hk ⊢
        exact h.noBlockTwice.1 k j hk hv
    · rw [Arch.setVc_vc] at hj hk htag
      rcases placedIn_cases_of_valid hj with ⟨hjs, hjv, hj'⟩ | ⟨-, hjv, hj'⟩ <;>
        rcases placedIn_cases_of_valid hk with ⟨hks, hkv, hk'⟩ | ⟨-, hkv, hk'⟩ <;> rw [hj', hk'] at htag
      · exact hjs.trans hks.symm
      · rw [toVc_valid_of_ne_forceValid hpol] at hjv
        exact absurd htag.symm (h.noBlockTwice.1 i k hjv hkv)
      · rw [toVc_valid_of_ne_forceValid hpol] at hkv
        exact absurd htag (h.noBlockTwice.1 i j hkv hjv)
      · exact h.noBlockTwice.2 j k hjv hkv htag
  vcBacked j hj := by
    rw [Arch.setVc_vc] at hj ⊢
    rw [Arch.setVc_l1At]
    rcases placedIn_cases_of_valid hj with ⟨-, hv, hj'⟩ | ⟨-, hv, hj'⟩ <;> rw [hj']
    · have hindex : vcTagIndex (toVc pol (a.l1At i) i).tag = i := vcTagIndex_vcKey _ i
      rw [hindex, Arch.setL1At_l1At_same]
      exact hl
    · exact setL1At_valid_mono hl (h.vcBacked j hv)
  l2Backed k w hw := setL1At_valid_mono hl (h.l2Backed k w hw)
  vcDistinct := h.vcDistinct.placedIn slot _
  l2Distinct := h.l2Distinct
  l2Bounded := h.l2Bounded

/-- A valid line placed into the L2 set of a valid L1 line, over the first free way or over the oldest line of a full set. -/
theorem placeL2 (h : a.StoresInv) {k : Index} {w : Fin 8} {line : Line 6} (hline : line.valid = true)
    (hback : (a.l1At k).valid = true)
    (hway : IsFirstFree (a.l2At k) w ∨ IsFull (a.l2At k) ∧ IsOldest (a.l2At k) w) :
    (a.setL2At k (placedIn (a.l2At k) w line)).StoresInv where
  noBlockTwice := h.noBlockTwice
  vcBacked := h.vcBacked
  vcDistinct := h.vcDistinct
  l2Backed i v hv := by
    by_cases hi : i = k
    · subst hi
      exact hback
    · rw [Arch.setL2At_l2At_other a _ hi] at hv
      exact h.l2Backed i v hv
  l2Distinct i := by
    by_cases hi : i = k
    · subst hi
      rw [Arch.setL2At_l2At_same]
      exact (h.l2Distinct i).placedIn w line
    · rw [Arch.setL2At_l2At_other a _ hi]
      exact h.l2Distinct i
  l2Bounded i := by
    by_cases hi : i = k
    · subst hi
      rw [Arch.setL2At_l2At_same]
      rcases hway with hfree | ⟨hfull, hold⟩
      · exact (h.l2Bounded i).placedIn_free hfree.1 hline
      · exact (h.l2Bounded i).placedIn_oldest (h.l2Distinct i) hfull hold hline
    · rw [Arch.setL2At_l2At_other a _ hi]
      exact h.l2Bounded i

/-- A fill of a block that neither L1 nor VC holds, and its cascade (R137, R109). -/
theorem fill (h : a.StoresInv) (hpol : cfg.policy ≠ .forceValid) (h1 : l1Match a i t = false)
    (h2 : vcFirst a t i = none) {r : OutcomeRecord} {y : Traced}
    (hy : CascadeCase cfg (a.l1At i) i { arch := fillL1 t i d a, record := r } y) : y.arch.StoresInv := by
  have hold := l1Match_eq_false.mp h1
  have hvc := firstMatch_eq_none.mp h2
  have hmoved (slot : Fin 4) : ((fillL1 t i d a).setVc (placedIn a.vc slot (toVc cfg.policy (a.l1At i) i))).StoresInv :=
    h.exchange hpol rfl hold fun j _ => hvc j
  cases hy with
  | skipped => exact h.setL1At rfl hvc
  | free k => exact hmoved k
  | evict j w real _ hfull _ hway =>
    refine (hmoved j).placeL2 (hfull j) (setL1At_valid_mono rfl (h.vcBacked j (hfull j))) ?_
    exact hway.imp And.left fun ⟨hset, holdest, _⟩ => ⟨hset, holdest⟩

theorem readCase (h : a.StoresInv) (hpol : cfg.policy ≠ .forceValid) {x : ReadDone} (hx : ReadCase cfg addr a x) :
    x.arch.StoresInv := by
  cases hx with
  | l1Hit => exact h.setStat _
  | vcHit j h1 h2 =>
    obtain ⟨⟨hvalid, htag⟩, -⟩ := firstMatch_eq_some.mp h2
    have hhit : vcTagTag a.vc[j].tag = addrTag addr := by rw [htag, vcTagTag_vcKey]
    refine (h.setStat (a.stat.afterRead .vc)).exchange hpol rfl ?_ ?_
    · rw [hhit]
      exact l1Match_eq_false.mp h1
    · rintro k hk ⟨hkv, hkt⟩
      rw [hhit] at hkt
      exact hk (h.noBlockTwice.2 k j hkv hvalid (hkt.trans htag.symm))
  | fill lv d y h1 h2 _ hy => exact (h.setStat (a.stat.afterRead lv)).fill hpol h1 h2 hy

/-- With no valid line in VC and L2 there is nothing to keep. -/
theorem of_invalid (hvc : ∀ j : Fin 4, a.vc[j].valid = false)
    (hl2 : ∀ (k : Index) (w : Fin 8), (a.l2At k)[w].valid = false) : a.StoresInv := by
  simp only [← Bool.not_eq_true] at hvc hl2
  exact {
    noBlockTwice := ⟨fun _ j _ hj => absurd hj (hvc j), fun j _ hj => absurd hj (hvc j)⟩
    vcBacked := fun j hj => absurd hj (hvc j)
    l2Backed := fun k w hw => absurd hw (hl2 k w)
    vcDistinct := fun j _ hj => absurd hj (hvc j)
    l2Distinct := fun k w _ hw => absurd hw (hl2 k w)
    l2Bounded := fun k w hw => absurd hw (hl2 k w) }

theorem afterReset (cfg : Config) (lines : LineInit) (mem : Memory) : (Arch.afterReset cfg lines mem).StoresInv :=
  .of_invalid (fun j => by rw [Arch.afterReset_vc, AgedLine.invalid_valid])
    (fun k w => by rw [Arch.afterReset_l2At, AgedLine.invalid_valid])

end Arch.StoresInv

end

/-! ## The whole invariant is kept -/

theorem Stats.Related.afterRead {st : Stats} (h : st.Related) (lv : Level) : (st.afterRead lv).Related := by
  obtain ⟨haccVC, haccL2, hmissL2, hmissVC, hmissL1⟩ := h
  cases lv <;> constructor <;> simp only [Stats.afterRead] <;> omega

theorem ReadCase.stat_eq {cfg : Config} {addr : Addr} {a : Arch} {x : ReadDone} (h : ReadCase cfg addr a x) :
    ∃ lv, x.arch.stat = a.stat.afterRead lv := by
  cases h with
  | l1Hit => exact ⟨.l1, rfl⟩
  | vcHit => exact ⟨.vc, rfl⟩
  | fill lv d y _ _ _ hy => exact ⟨lv, by cases hy <;> rfl⟩

/-- The architectural part of `State.Inv`. -/
structure Arch.Inv (dw : Nat) (a : Arch) : Prop where
  words  : a.StoredWordsFit dw
  stores : a.StoresInv
  stat   : a.stat.Related

theorem State.inv_iff {s : State} :
    s.Inv ↔ s.isIdle = true ∧ s.cfg.policy ≠ .forceValid ∧ s.arch.Inv s.cfg.dataW :=
  ⟨fun h => ⟨h.idle, h.policy, ⟨h.mem, h.words⟩, h.stores, h.stat⟩,
    fun ⟨hidle, hpol, h⟩ => ⟨hidle, hpol, h.words.mem, h.words.lines, h.stores, h.stat⟩⟩

theorem Arch.Inv.afterReset (cfg : Config) (lines : LineInit) {mem : Memory} (hmem : mem.wf cfg.dataW = true) :
    (Arch.afterReset cfg lines mem).Inv cfg.dataW :=
  ⟨.afterReset cfg lines hmem, .afterReset cfg lines mem, ⟨rfl, rfl, Nat.le_refl 0, Nat.le_refl 0, Nat.le_refl 0⟩⟩

theorem Arch.Inv.readCase {cfg : Config} {addr : Addr} {a : Arch} {x : ReadDone} (h : a.Inv cfg.dataW)
    (hpol : cfg.policy ≠ .forceValid) (hx : ReadCase cfg addr a x) : x.arch.Inv cfg.dataW := by
  obtain ⟨lv, hstat⟩ := hx.stat_eq
  exact ⟨(h.words.readCase hx).1, h.stores.readCase hpol hx, hstat ▸ h.stat.afterRead lv⟩

theorem Arch.Inv.write {dw : Nat} {a : Arch} (h : a.Inv dw) (addr : Addr) {d : Word} (hd : fitsWord dw d = true) :
    ((writeCaches addr d a).memWrite dw addr d).Inv dw where
  words := (h.words.writeCaches addr hd).memWrite addr hd
  stores := (h.stores.writeCaches addr d).memWrite dw addr d
  stat := by
    rw [Arch.memWrite_stat, writeCaches_stat]
    exact h.stat

theorem State.Inv.exec {s t : State} {i : Instr} (h : s.Inv) (hi : i.wf s.cfg.dataW = true) (ht : exec i s = .next t) :
    t.Inv := by
  rw [State.inv_iff] at h ⊢
  obtain ⟨hidle, hpol, ha⟩ := h
  cases i with
  | read addr =>
    obtain ⟨x, rfl, hx⟩ := execRead_next ht
    exact ⟨hidle, hpol, ha.readCase hpol hx⟩
  | write addr d =>
    obtain rfl := execWrite_next ht
    exact ⟨hidle, hpol, ha.write addr hi⟩

theorem State.Inv.popInput {s : State} (h : s.Inv) : s.popInput.Inv :=
  ⟨h.idle, h.policy, h.mem, h.words, h.stores, h.stat⟩

theorem State.Inv.assertReset {s : State} (h : s.Inv) (lines : LineInit) : (s.assertReset lines).Inv :=
  State.inv_iff.mpr ⟨rfl, h.policy, .afterReset s.cfg lines h.mem⟩

/-- Settles O38: each case of a step between accesses keeps the invariant; an operation from the queue is well-formed. -/
theorem stepKeepsTheInvariant : Obligations.StepKeepsTheInvariant := by
  intro s t hs ht
  cases step_next ht with
  | wait => exact hs
  | access i _ _ hfetch hexec =>
    have hi := fetchEvent_access_wf hfetch
    exact hs.popInput.exec hi hexec
  | reset lines => exact hs.popInput.assertReset lines
  | edge _ hbusy => exact absurd hs.idle (hbusy ▸ Bool.false_ne_true)

/-- Settles O10: no line is valid after reset, and every counter is 0. -/
theorem resetMeetsTheInvariant : Obligations.ResetMeetsTheInvariant :=
  fun cfg lines _ hpol hmem => State.inv_iff.mpr ⟨rfl, hpol, .afterReset cfg lines hmem⟩

/-- Settles O41: a recency is below the number of valid ways, and there are eight ways. -/
theorem l2RecencyIsAtMostSeven : Obligations.L2RecencyIsAtMostSeven := by
  intro s hs k w hw
  have hbound := hs.stores.l2Bounded k w hw
  have hways := validCount_le (s.arch.l2At k)
  omega

/-- Settles O11: the oldest queued input is what the step takes. -/
theorem resetInputKeepsOnlyMemory : Obligations.ResetInputKeepsOnlyMemory := by
  intro s lines rest hidle hinbox
  have hstep : step s = .next (s.popInput.assertReset lines) := by
    simp [step, hidle, stepIdle, fetchEvent, hinbox]
  refine ⟨_, hstep, ?_, State.assertReset_isIdle _ _, ?_, ?_, State.assertReset_resp _ _⟩
  · rw [State.assertReset_arch, State.popInput_cfg, State.popInput_arch, State.resetWith]
  · rw [State.assertReset_inbox, State.popInput_inbox, hinbox, List.tail_cons]
  · rw [State.assertReset_cfg, State.popInput_cfg]

end Sys2Proof.Machine

/-! SUPPORT. Non-interference of what invalid lines hold (R35): on alike sets and states every shared operation, every level of a
READ and a WRITE give alike results, and so does a step. -/

namespace Sys2Proof.Machine

/-! ## Results that agree -/

section

variable {α β : Type} {R : α → α → Prop} {S : β → β → Prop}

/-- Two results that agree: both go on, to related values, or both stop for the same reason. -/
def ResultsAlike (R : α → α → Prop) (x y : Except Refusal α) : Prop :=
  match x, y with
  | .ok a, .ok b => R a b
  | .error q, .error r => q = r
  | _, _ => False

theorem ResultsAlike.bind {x y : Except Refusal α} {f g : α → Except Refusal β} (h : ResultsAlike R x y)
    (hfg : ∀ a b, R a b → ResultsAlike S (f a) (g b)) : ResultsAlike S (x >>= f) (y >>= g) := by
  cases x <;> cases y
  case error.error => exact h
  case ok.ok a b => exact hfg a b h
  all_goals exact h.elim

theorem ResultsAlike.refl (hR : ∀ a, R a a) (x : Except Refusal α) : ResultsAlike R x x := by
  cases x with
  | ok a => exact hR a
  | error => exact rfl

end

/-! ## Alike lines -/

section

variable {w : Nat} {l m : Line w} {pol : InvalidVictimPolicy}

theorem Line.Alike.refl (l : Line w) : l.Alike l := ⟨rfl, fun _ => rfl⟩

theorem AgedLine.Alike.refl (l : AgedLine w) : l.Alike l := ⟨rfl, fun _ => rfl⟩

theorem AgedLine.Alike.toLine {l m : AgedLine w} (h : l.Alike m) : l.toLine.Alike m.toLine :=
  ⟨h.1, fun hv => by rw [h.2 hv]⟩

theorem AgedLine.Alike.older {l m : AgedLine w} (h : l.Alike m) : l.older.Alike m.older := by
  refine ⟨by rw [AgedLine.older_toLine, AgedLine.older_toLine]; exact h.1, fun hv => ?_⟩
  rw [AgedLine.older_toLine] at hv
  rw [h.2 hv]

theorem Line.Alike.withRecency (h : l.Alike m) {r r' : Nat} (hr : r = r') :
    AgedLine.Alike { toLine := l, recency := r } { toLine := m, recency := r' } :=
  ⟨h.1, fun hv => by rw [h.2 hv, hr]⟩

/-- The tag matcher reads a tag only where the line is valid (R101 to R103). -/
theorem Line.Alike.match_eq (h : l.Alike m) (key : BitVec w) :
    (l.valid && l.tag == key) = (m.valid && m.tag == key) := by
  obtain ⟨hvalid, heq⟩ := h
  cases hl : l.valid with
  | false => rw [← hvalid, hl, Bool.false_and, Bool.false_and]
  | true => rw [← heq hl, hl]

/-- A line that leaves L1 takes its valid flag with it, except under `force_valid`. -/
theorem Line.Alike.toVc {l m : L1Line} (h : l.Alike m) (hpol : pol ≠ .forceValid) (i : Index) :
    (toVc pol l i).Alike (toVc pol m i) := by
  unfold Line.Alike
  rw [toVc_valid_of_ne_forceValid hpol, toVc_valid_of_ne_forceValid hpol]
  exact ⟨h.1, fun hv => by rw [h.2 hv]⟩

end

/-! ## Alike sets -/

/-- Two sets alike slot by slot. -/
def SetAlike {w n : Nat} (u v : Vector (AgedLine w) n) : Prop := ∀ k : Fin n, (u[k]).Alike (v[k])

namespace SetAlike

variable {w n : Nat} {cfg : Config} {u v : Vector (AgedLine w) n} {l m : Line w}

theorem setMatch_eq (h : SetAlike u v) (key : BitVec w) (k : Fin n) : setMatch u key k = setMatch v key k :=
  (h k).toLine.match_eq key

theorem firstMatch_eq (h : SetAlike u v) (key : BitVec w) : firstMatch u key = firstMatch v key :=
  firstIdx_congr (h.setMatch_eq key)

theorem freeSlot_eq (h : SetAlike u v) : freeSlot u = freeSlot v :=
  firstIdx_congr fun k => by rw [(h k).1]

theorem eq_of_full (h : SetAlike u v) (hfull : IsFull u) : u = v :=
  Vector.ext fun k hk => (h ⟨k, hk⟩).2 (hfull ⟨k, hk⟩)

theorem selectSlot_eq {u v : Vector (AgedLine w) (n + 1)} (h : SetAlike u v) : selectSlot u = selectSlot v := by
  cases hfree : freeSlot u with
  | none => rw [h.eq_of_full (freeSlot_eq_none.mp hfree)]
  | some k =>
    unfold selectSlot
    rw [← h.freeSlot_eq, hfree]

theorem canAge_iff (h : SetAlike u v) : CanAge cfg u ↔ CanAge cfg v := by
  refine forall_congr' fun k => ?_
  obtain ⟨hvalid, heq⟩ := h k
  rw [← hvalid]
  exact imp_congr_right fun hk => by rw [heq hk]

theorem writtenSet (h : SetAlike u v) (slot : Fin n) (hl : l.Alike m) :
    SetAlike (writtenSet u slot l) (writtenSet v slot m) := by
  intro k
  unfold Machine.writtenSet
  rw [set_getElem_fin, set_getElem_fin]
  by_cases hk : k = slot
  · obtain ⟨hvalid, heq⟩ := h slot
    rw [if_pos hk, if_pos hk, ← hvalid]
    exact hl.withRecency (ite_congr rfl (fun hv => by rw [heq hv]) fun _ => rfl)
  · rw [if_neg hk, if_neg hk]
    exact h k

theorem placedIn (h : SetAlike u v) (slot : Fin n) (hl : l.Alike m) :
    SetAlike (placedIn u slot l) (placedIn v slot m) := by
  intro k
  by_cases hk : k = slot
  · subst hk
    rw [placedIn_same, placedIn_same]
    exact hl.withRecency rfl
  · rw [placedIn_other u l hk, placedIn_other v m hk]
    exact (h k).older

theorem place (h : SetAlike u v) (slot : Fin n) (hl : l.Alike m) :
    ResultsAlike SetAlike (place cfg u slot l) (place cfg v slot m) := by
  have hage : CanAge cfg (Machine.writtenSet u slot l) ↔ CanAge cfg (Machine.writtenSet v slot m) :=
    (h.writtenSet slot hl).canAge_iff
  rcases place_cases cfg u slot l with ⟨hu, hu'⟩ | ⟨hu, -, hu'⟩ <;>
    rcases place_cases cfg v slot m with ⟨hv, hv'⟩ | ⟨hv, -, hv'⟩ <;> rw [hu', hv']
  · exact h.placedIn slot hl
  · exact absurd (hage.mp hu) hv
  · exact absurd (hage.mpr hv) hu
  · exact rfl

end SetAlike

/-! ## Alike architectural states -/

namespace Arch.Alike

variable {cfg : Config} {a b : Arch}

theorem refl (a : Arch) : a.Alike a := ⟨fun _ => .refl _, fun _ => .refl _, fun _ _ => .refl _, rfl, rfl⟩

theorem l1Match_eq (h : a.Alike b) (i : Index) (t : Tag) : l1Match a i t = l1Match b i t :=
  (h.l1 i).match_eq t

theorem vcFirst_eq (h : a.Alike b) (t : Tag) (i : Index) : vcFirst a t i = vcFirst b t i :=
  SetAlike.firstMatch_eq h.vc _

theorem l2First_eq (h : a.Alike b) (i : Index) (t : Tag) : l2First a i t = l2First b i t :=
  SetAlike.firstMatch_eq (h.l2 i) _

theorem memRead_eq (h : a.Alike b) (dw : Nat) (addr : Addr) : a.memRead dw addr = b.memRead dw addr := by
  unfold memRead
  rw [h.mem]

theorem setStat (h : a.Alike b) (st : Stats) : (a.setStat st).Alike (b.setStat st) :=
  ⟨h.l1, h.vc, h.l2, rfl, h.mem⟩

theorem setL1At (h : a.Alike b) (i : Index) {l m : L1Line} (hl : l.Alike m) : (a.setL1At i l).Alike (b.setL1At i m) where
  vc := h.vc
  l2 := h.l2
  stat := h.stat
  mem := h.mem
  l1 k := by
    by_cases hk : k = i
    · subst hk
      rw [Arch.setL1At_l1At_same, Arch.setL1At_l1At_same]
      exact hl
    · rw [Arch.setL1At_l1At_other a l hk, Arch.setL1At_l1At_other b m hk]
      exact h.l1 k

theorem setVc (h : a.Alike b) {u v : VcSet} (huv : SetAlike u v) : (a.setVc u).Alike (b.setVc v) :=
  ⟨h.l1, huv, h.l2, h.stat, h.mem⟩

theorem setL2At (h : a.Alike b) (k : Index) {u v : L2Set} (huv : SetAlike u v) :
    (a.setL2At k u).Alike (b.setL2At k v) where
  l1 := h.l1
  vc := h.vc
  stat := h.stat
  mem := h.mem
  l2 i := by
    by_cases hi : i = k
    · subst hi
      rw [Arch.setL2At_l2At_same, Arch.setL2At_l2At_same]
      exact huv
    · rw [Arch.setL2At_l2At_other a u hi, Arch.setL2At_l2At_other b v hi]
      exact h.l2 i

theorem memWrite (h : a.Alike b) (dw : Nat) (addr : Addr) (d : Word) :
    (a.memWrite dw addr d).Alike (b.memWrite dw addr d) :=
  ⟨h.l1, h.vc, h.l2, h.stat, by rw [Arch.memWrite_mem, Arch.memWrite_mem, h.mem]⟩

theorem writeCaches (h : a.Alike b) (addr : Addr) (d : Word) : (writeCaches addr d a).Alike (writeCaches addr d b) where
  l1 i := by
    rw [writeCaches_l1At, writeCaches_l1At]
    exact ⟨(h.l1 i).1, fun hv => by rw [(h.l1 i).2 hv]⟩
  vc j := by
    rw [writeCaches_vc, writeCaches_vc]
    exact ⟨(h.vc j).1, fun hv => by rw [(h.vc j).2 hv]⟩
  l2 k w := by
    rw [writeCaches_l2At, writeCaches_l2At]
    exact ⟨(h.l2 k w).1, fun hv => by rw [(h.l2 k w).2 hv]⟩
  stat := by rw [writeCaches_stat, writeCaches_stat, h.stat]
  mem := by rw [writeCaches_mem, writeCaches_mem, h.mem]

theorem writeRecord_eq (h : a.Alike b) (addr : Addr) : writeRecord addr a = writeRecord addr b := by
  unfold writeRecord
  rw [h.l1Match_eq, h.vcFirst_eq, h.l2First_eq]

end Arch.Alike

/-! ## READ -/

/-- Alike states after the VC half of a cascade; the victims are the same if they are real. -/
structure VcPlaced.Alike (p q : VcPlaced) : Prop where
  arch   : p.arch.Alike q.arch
  slot   : p.slot = q.slot
  real   : p.real = q.real
  victim : p.real = true → p.victim = q.victim

/-- Alike states after the L2 half of a cascade. -/
structure L2Placed.Alike (p q : L2Placed) : Prop where
  arch : p.arch.Alike q.arch
  set  : p.set = q.set
  way  : p.way = q.way
  real : p.real = q.real

/-- Alike states with the same record. -/
structure Traced.Alike (x y : Traced) : Prop where
  arch   : x.arch.Alike y.arch
  record : x.record = y.record

/-- Alike states after a READ, with the same word and record. -/
structure ReadDone.Alike (x y : ReadDone) : Prop where
  arch   : x.arch.Alike y.arch
  word   : x.word = y.word
  record : x.record = y.record

theorem isFull_of_selectSlot_real {w n : Nat} {set : Vector (AgedLine w) (n + 1)} (h : (selectSlot set).2 = true) :
    IsFull set := by
  rcases selectSlot_cases set with ⟨k, hk, -⟩ | ⟨k, -, hfull, -⟩
  · rw [hk] at h
    cases h
  · exact hfull

namespace Arch.Alike

variable {cfg : Config} {a b : Arch}

theorem vcSwap (h : a.Alike b) (hpol : cfg.policy ≠ .forceValid) (i : Index) {j : Fin 4} (hj : a.vc[j].valid = true) :
    ResultsAlike Arch.Alike (vcSwap cfg i j a) (vcSwap cfg i j b) := by
  have hline : a.vc[j] = b.vc[j] := (h.vc j).2 hj
  unfold Machine.vcSwap
  rw [← hline]
  exact (SetAlike.place h.vc j ((h.l1 i).toVc hpol i)).bind fun _ _ huv => (h.setL1At i (.refl _)).setVc huv

theorem placeInVc (h : a.Alike b) (hpol : cfg.policy ≠ .forceValid) {l m : L1Line} (hl : l.Alike m) (i : Index) :
    ResultsAlike VcPlaced.Alike (placeInVc cfg l i a) (placeInVc cfg m i b) := by
  unfold Machine.placeInVc
  simp only [← SetAlike.selectSlot_eq h.vc]
  refine (SetAlike.place h.vc _ (hl.toVc hpol i)).bind fun _ _ huv => ⟨h.setVc huv, rfl, rfl, fun hreal => ?_⟩
  have hline := (h.vc (selectSlot (n := 3) a.vc).1).2 (isFull_of_selectSlot_real hreal _)
  exact congrArg AgedLine.toLine hline

theorem placeInL2 (h : a.Alike b) (victim : Line 10) :
    ResultsAlike L2Placed.Alike (placeInL2 cfg victim a) (placeInL2 cfg victim b) := by
  unfold Machine.placeInL2
  simp only [← SetAlike.selectSlot_eq (h.l2 (fromVcSet victim))]
  exact (SetAlike.place (h.l2 _) _ (.refl _)).bind fun _ _ huv => ⟨h.setL2At _ huv, rfl, rfl, rfl⟩

end Arch.Alike

namespace Traced.Alike

variable {cfg : Config} {x y : Traced}

theorem cascade (h : x.Alike y) (hpol : cfg.policy ≠ .forceValid) {l m : L1Line} (hl : l.Alike m)
    (i : Index) : ResultsAlike Traced.Alike (cascade cfg l i x) (cascade cfg m i y) := by
  unfold Machine.cascade
  rw [← hl.1, ← h.record]
  split
  · exact h
  refine (h.arch.placeInVc hpol hl i).bind fun p q hpq => ?_
  obtain ⟨harch, hslot, hreal, hvictim⟩ := hpq
  rw [← hslot, ← hreal]
  split
  · next hr =>
    rw [← hvictim hr]
    exact (harch.placeInL2 p.victim).bind fun _ _ hxy => ⟨hxy.arch, by rw [hxy.set, hxy.way, hxy.real]⟩
  · exact ⟨harch, rfl⟩

theorem fillAndCascade (h : x.Alike y) (hpol : cfg.policy ≠ .forceValid) (t : Tag) (i : Index) (d : Word) :
    ResultsAlike Traced.Alike (fillAndCascade cfg t i d x) (fillAndCascade cfg t i d y) := by
  have hfill : Traced.Alike { x with arch := fillL1 t i d x.arch } { y with arch := fillL1 t i d y.arch } :=
    ⟨h.arch.setL1At i (.refl _), h.record⟩
  exact hfill.cascade hpol (h.arch.l1 i) i

end Traced.Alike

namespace Arch.Alike

variable {cfg : Config} {a b : Arch}

theorem finishFill (h : a.Alike b) (hpol : cfg.policy ≠ .forceValid) (addr : Addr) (lv : Level) (d : Word) :
    ResultsAlike ReadDone.Alike (finishFill cfg addr lv d a) (finishFill cfg addr lv d b) := by
  have hstart : Traced.Alike { arch := a, record := { OutcomeRecord.blank with level := lv } }
      { arch := b, record := { OutcomeRecord.blank with level := lv } } := ⟨h, rfl⟩
  unfold Machine.finishFill
  exact (hstart.fillAndCascade hpol _ _ d).bind fun _ _ hxy => ⟨hxy.arch, rfl, hxy.record⟩

theorem searchL2 (h : a.Alike b) (hpol : cfg.policy ≠ .forceValid) (addr : Addr) :
    ResultsAlike ReadDone.Alike (searchL2 cfg addr a) (searchL2 cfg addr b) := by
  unfold Machine.searchL2
  rw [← h.l2First_eq, ← h.stat, ← h.memRead_eq]
  refine (ResultsAlike.refl Eq.refl _).bind fun st _ hst => ?_
  obtain rfl := hst
  cases hit : l2First a (addrIndex addr) (addrTag addr) with
  | some w =>
    have hvalid : (a.l2At (addrIndex addr))[w].valid = true := (firstMatch_eq_some.mp hit).1.1
    have hline := (h.l2 (addrIndex addr) w).2 hvalid
    simp only [← hline]
    exact (h.setStat st).finishFill hpol addr .l2 _
  | none => exact (h.setStat st).finishFill hpol addr .mem _

theorem searchVC (h : a.Alike b) (hpol : cfg.policy ≠ .forceValid) (addr : Addr) :
    ResultsAlike ReadDone.Alike (searchVC cfg addr a) (searchVC cfg addr b) := by
  unfold Machine.searchVC
  rw [← h.vcFirst_eq, ← h.stat]
  refine (ResultsAlike.refl Eq.refl _).bind fun st _ hst => ?_
  obtain rfl := hst
  cases hit : vcFirst a (addrTag addr) (addrIndex addr) with
  | some j =>
    have hvalid : a.vc[j].valid = true := (firstMatch_eq_some.mp hit).1.1
    have hline := (h.vc j).2 hvalid
    refine ((h.setStat st).vcSwap hpol (addrIndex addr) hvalid).bind fun _ _ hxy => ⟨hxy, ?_, rfl⟩
    rw [hline]
  | none => exact (h.setStat st).searchL2 hpol addr

theorem searchL1 (h : a.Alike b) (hpol : cfg.policy ≠ .forceValid) (addr : Addr) :
    ResultsAlike ReadDone.Alike (searchL1 cfg addr a) (searchL1 cfg addr b) := by
  unfold Machine.searchL1
  rw [← h.l1Match_eq, ← h.stat]
  refine (ResultsAlike.refl Eq.refl _).bind fun st _ hst => ?_
  obtain rfl := hst
  cases hit : l1Match a (addrIndex addr) (addrTag addr) with
  | true =>
    have hline := (h.l1 (addrIndex addr)).2 (l1Match_iff.mp hit).1
    exact ⟨h.setStat st, by rw [hline], rfl⟩
  | false => exact (h.setStat st).searchVC hpol addr

end Arch.Alike

/-! ## One step -/

namespace State.Alike

variable {s t : State}

theorem complete (h : s.Alike t) {a b : Arch} (hab : a.Alike b) (d : Option Word) (r : OutcomeRecord) :
    (s.complete a d r).Alike (t.complete b d r) where
  arch := hab
  cfg := h.cfg
  fsm := h.fsm
  inbox := h.inbox
  resp := by rw [State.complete_resp, State.complete_resp, h.cfg]

theorem popInput (h : s.Alike t) : s.popInput.Alike t.popInput :=
  ⟨h.arch, h.cfg, h.fsm, by rw [State.popInput_inbox, State.popInput_inbox, h.inbox], h.resp⟩

theorem assertReset (h : s.Alike t) (lines : LineInit) : (s.assertReset lines).Alike (t.assertReset lines) where
  arch := by
    rw [State.assertReset_arch, State.assertReset_arch, h.cfg, h.arch.mem]
    exact .refl _
  cfg := by rw [State.assertReset_cfg, State.assertReset_cfg, h.cfg]
  fsm := by rw [State.assertReset_fsm, State.assertReset_fsm, h.fsm]
  inbox := by rw [State.assertReset_inbox, State.assertReset_inbox, h.inbox]
  resp := rfl

theorem execRead (h : s.Alike t) (hpol : s.cfg.policy ≠ .forceValid) (addr : Addr) :
    OutcomesAlike (execRead addr s) (execRead addr t) := by
  have hsearch := h.arch.searchL1 hpol addr
  unfold Machine.execRead
  rw [← h.cfg]
  cases hs : searchL1 s.cfg addr s.arch <;> cases ht : searchL1 s.cfg addr t.arch <;> rw [hs, ht] at hsearch
  case error.error => exact hsearch
  case ok.ok x y =>
    obtain ⟨harch, hword, hrecord⟩ := hsearch
    simp only [hword, hrecord]
    exact h.complete harch _ _
  all_goals exact hsearch.elim

theorem execWrite (h : s.Alike t) (addr : Addr) (d : Word) : OutcomesAlike (execWrite addr d s) (execWrite addr d t) := by
  unfold Machine.execWrite
  rw [← h.cfg, ← h.arch.writeRecord_eq]
  exact h.complete ((h.arch.writeCaches addr d).memWrite _ addr d) _ _

theorem exec (h : s.Alike t) (hpol : s.cfg.policy ≠ .forceValid) (i : Instr) : OutcomesAlike (exec i s) (exec i t) := by
  cases i with
  | read addr => exact h.execRead hpol addr
  | write addr d => exact h.execWrite addr d

theorem fetchEvent_eq (h : s.Alike t) : fetchEvent s = fetchEvent t := by
  unfold fetchEvent
  rw [h.inbox, h.cfg]

theorem isIdle_eq (h : s.Alike t) : s.isIdle = t.isIdle := by
  unfold State.isIdle State.fsmState
  rw [h.fsm]

theorem stepIdle (h : s.Alike t) (hpol : s.cfg.policy ≠ .forceValid) : OutcomesAlike (stepIdle s) (stepIdle t) := by
  unfold Machine.stepIdle
  rw [← h.fetchEvent_eq]
  cases fetchEvent s with
  | quiet => exact h
  | access i => exact h.popInput.exec hpol i
  | reset lines => exact h.popInput.assertReset lines
  | refuse r => exact rfl

end State.Alike

/-- Settles O44: an operation reads a line only where it is valid, or moves it with its valid flag. -/
theorem invalidLinesNeverShow : Obligations.InvalidLinesNeverShow := by
  intro s t h hidle hpol
  unfold step
  rw [← h.isIdle_eq, if_pos hidle, if_pos hidle]
  exact h.stepIdle hpol

end Sys2Proof.Machine

/-! SUPPORT. Canonical memories that read alike; the frame of a READ, from what its cascade leaves; and that the valid flags of
L1 and L2 stay. -/

namespace Sys2Proof.Machine

/-! ## Canonical memories (R28, R50) -/

section

variable {dw : Nat}

theorem lookupCell_head (c : Nat × Word) (rest : List (Nat × Word)) : lookupCell c.1 (c :: rest) = some c.2 := if_pos rfl

theorem lookupCell_tail {addr : Nat} {c : Nat × Word} (rest : List (Nat × Word)) (h : c.1 ≠ addr) :
    lookupCell addr (c :: rest) = lookupCell addr rest := if_neg h

/-- A listed address is one of memory, and its word is not what an unlisted one reads as. -/
theorem lookupCell_some_of_wf {lo addr : Nat} {cells : List (Nat × Word)} {v : Word} (hw : cellsWf dw lo cells = true)
    (h : lookupCell addr cells = some v) : addr < 4096 ∧ v ≠ memUnlisted dw addr := by
  induction cells generalizing lo with
  | nil => cases h
  | cons c rest ih =>
    obtain ⟨-, hlt, ⟨-, hne⟩, hrest⟩ := cellsWf_cons.mp hw
    by_cases hc : c.1 = addr
    · subst hc
      rw [lookupCell_head] at h
      cases h
      exact ⟨hlt, hne⟩
    · rw [lookupCell_tail rest hc] at h
      exact ih hrest h

/-- Below the head of a canonical list nothing is listed. -/
theorem lookupCell_eq_none_of_lt_head {lo addr : Nat} {c : Nat × Word} {rest : List (Nat × Word)}
    (hw : cellsWf dw lo (c :: rest) = true) (h : addr < c.1) : lookupCell addr (c :: rest) = none := by
  have hhead : cellsWf dw c.1 (c :: rest) = true := cellsWf_cons.mpr ⟨Nat.le_refl _, (cellsWf_cons.mp hw).2⟩
  exact lookupCell_eq_none_of_lt hhead h

/-- Canonical lists that list the same words are the same list. -/
theorem cells_eq_of_lookupCell_eq {lo lo' : Nat} {l m : List (Nat × Word)} (hl : cellsWf dw lo l = true)
    (hm : cellsWf dw lo' m = true) (h : ∀ addr, lookupCell addr l = lookupCell addr m) : l = m := by
  induction l generalizing lo lo' m with
  | nil =>
    cases m with
    | nil => rfl
    | cons e m => exact absurd ((h e.1).trans (lookupCell_head e m)) nofun
  | cons c l ih =>
    cases m with
    | nil => exact absurd ((h c.1).symm.trans (lookupCell_head c l)) nofun
    | cons e m =>
      have hc := (h c.1).symm.trans (lookupCell_head c l)
      have he := (h e.1).trans (lookupCell_head e m)
      have haddr : c.1 = e.1 := by
        rcases lt_trichotomy c.1 e.1 with hlt | heq | hlt
        · rw [lookupCell_eq_none_of_lt_head hm hlt] at hc
          cases hc
        · exact heq
        · rw [lookupCell_eq_none_of_lt_head hl hlt] at he
          cases he
      rw [haddr, lookupCell_head] at hc
      have hhead : c = e := Prod.ext haddr (Option.some.inj hc).symm
      subst hhead
      have hl' := (cellsWf_cons.mp hl).2.2.2
      have hm' := (cellsWf_cons.mp hm).2.2.2
      rw [ih hl' hm' fun addr => ?_]
      by_cases ha : c.1 = addr
      · rw [lookupCell_eq_none_of_lt hl' (by omega), lookupCell_eq_none_of_lt hm' (by omega)]
      · rw [← lookupCell_tail l ha, ← lookupCell_tail m ha, h addr]

/-- In canonical form an address that reads as it would unlisted is not listed, so reading tells what is listed. -/
theorem lookupCell_eq_of_read_eq {m n : Memory} (hm : m.wf dw = true) (hn : n.wf dw = true)
    (h : ∀ a : Nat, a < 4096 → m.read dw a = n.read dw a) (addr : Nat) :
    lookupCell addr m.cells = lookupCell addr n.cells := by
  have hread := h addr
  unfold Memory.read at hread
  cases hx : lookupCell addr m.cells <;> cases hy : lookupCell addr n.cells <;> rw [hx, hy] at hread
  case none.some v =>
    obtain ⟨hlt, hne⟩ := lookupCell_some_of_wf hn hy
    exact absurd (hread hlt).symm hne
  case some.none v =>
    obtain ⟨hlt, hne⟩ := lookupCell_some_of_wf hm hx
    exact absurd (hread hlt) hne
  case some.some v v' => exact congrArg some (hread (lookupCell_some_of_wf hm hx).1)

end

/-- Settles O48: reading a canonical memory tells what it lists, and the list is in order of address. -/
theorem canonicalMemoriesThatReadAlikeAreEqual : Obligations.CanonicalMemoriesThatReadAlikeAreEqual := by
  intro dw m n hm hn h
  have hcells : m.cells = n.cells := cells_eq_of_lookupCell_eq hm hn (lookupCell_eq_of_read_eq hm hn h)
  cases m
  exact congrArg Memory.mk hcells

/-! ## What a cascade leaves (R109) -/

section

variable {cfg : Config} {v : L1Line} {i : Index} {x y : Traced}

namespace CascadeCase

theorem l1At_eq (h : CascadeCase cfg v i x y) (k : Index) : y.arch.l1At k = x.arch.l1At k := by
  cases h <;> rfl

theorem mem_eq (h : CascadeCase cfg v i x y) : y.arch.mem = x.arch.mem := by
  cases h <;> rfl

theorem vc_l2_eq_of_skip (h : CascadeCase cfg v i x y) (hskip : cfg.policy = .skip ∧ v.valid = false) :
    y.arch.vc = x.arch.vc ∧ y.arch.l2 = x.arch.l2 := by
  cases h with
  | skipped => exact ⟨rfl, rfl⟩
  | free _ hmove | evict _ _ _ hmove => exact absurd hskip hmove

/-- The slot placed into is the one `select_slot` chooses. -/
theorem vc_eq_of_move (h : CascadeCase cfg v i x y) (hmove : ¬(cfg.policy = .skip ∧ v.valid = false)) :
    y.arch.vc = placedIn x.arch.vc (selectSlot (n := 3) x.arch.vc).1 (toVc cfg.policy v i) := by
  cases h with
  | skipped hskip => exact absurd hskip hmove
  | free k _ hfree =>
    rw [selectSlot_of_firstFree hfree]
    rfl
  | evict j _ _ _ hfull hold =>
    rw [selectSlot_of_full hfull hold]
    rfl

theorem l2_eq_of_free (h : CascadeCase cfg v i x y) (hsel : (selectSlot (n := 3) x.arch.vc).2 = false) :
    y.arch.l2 = x.arch.l2 := by
  cases h with
  | skipped | free => rfl
  | evict j _ _ _ hfull hold =>
    rw [selectSlot_of_full hfull hold] at hsel
    cases hsel

/-- With VC full, the set written is the one the tag of the displaced line names, and the way is the one `select_slot` chooses. -/
theorem l2_of_full (h : CascadeCase cfg v i x y) (hmove : ¬(cfg.policy = .skip ∧ v.valid = false))
    (hsel : (selectSlot (n := 3) x.arch.vc).2 = true) {k : Index}
    (hk : k = vcTagIndex x.arch.vc[(selectSlot (n := 3) x.arch.vc).1].tag) :
    (∀ i, i ≠ k → y.arch.l2At i = x.arch.l2At i) ∧
    ∃ line, y.arch.l2At k = placedIn (x.arch.l2At k) (selectSlot (n := 7) (x.arch.l2At k)).1 line := by
  cases h with
  | skipped hskip => exact absurd hskip hmove
  | free j _ hfree =>
    rw [selectSlot_of_firstFree hfree] at hsel
    cases hsel
  | evict j w _ _ hfull hold hway =>
    have hslot : (selectSlot (n := 3) x.arch.vc).1 = j := by rw [selectSlot_of_full hfull hold]
    subst hslot
    subst hk
    have hw : (selectSlot (n := 7) (x.arch.l2At (vcTagIndex x.arch.vc[(selectSlot (n := 3) x.arch.vc).1].tag))).1 = w := by
      rcases hway with ⟨hfree, -⟩ | ⟨hset, holdest, -⟩
      · rw [selectSlot_of_firstFree hfree]
      · rw [selectSlot_of_full hset holdest]
    subst hw
    exact ⟨fun i hi => Arch.setL2At_l2At_other _ _ hi, _, Arch.setL2At_l2At_same _ _ _⟩

/-- A line displaced from a full VC is valid, and so is the way it goes to. -/
theorem l2_valid (h : CascadeCase cfg v i x y) {k : Index} {w : Fin 8} (hw : (x.arch.l2At k)[w].valid = true) :
    (y.arch.l2At k)[w].valid = true := by
  cases h with
  | skipped | free => exact hw
  | evict j way _ _ hfull =>
    by_cases hk : k = vcTagIndex x.arch.vc[j].tag
    · subst hk
      rw [Arch.setL2At_l2At_same, placedIn_valid]
      split
      · exact hfull j
      · exact hw
    · rw [Arch.setL2At_l2At_other _ _ hk]
      exact hw

end CascadeCase

end

/-! ## What a READ leaves (R130 to R142) -/

section

variable {cfg : Config} {addr : Addr} {a : Arch} {x : ReadDone}

theorem servedBy_of_l1Hit (h : l1Match a (addrIndex addr) (addrTag addr) = true) : servedBy a addr = .l1 :=
  if_pos h

theorem servedBy_of_vcHit {j : Fin 4} (h1 : l1Match a (addrIndex addr) (addrTag addr) = false)
    (h2 : vcFirst a (addrTag addr) (addrIndex addr) = some j) : servedBy a addr = .vc := by
  rw [servedBy_of_l1Miss h1, h2, Option.isSome_some, if_pos rfl]

theorem servedBy_of_vcMiss (h1 : l1Match a (addrIndex addr) (addrTag addr) = false)
    (h2 : vcFirst a (addrTag addr) (addrIndex addr) = none) : servedBy a addr = .l2 ∨ servedBy a addr = .mem := by
  rw [servedBy_of_l1Miss h1, h2, Option.isSome_none, if_neg Bool.false_ne_true]
  split
  · exact .inl rfl
  · exact .inr rfl

namespace ReadCase

theorem mem_eq (h : ReadCase cfg addr a x) : x.arch.mem = a.mem := by
  cases h with
  | l1Hit | vcHit => rfl
  | fill _ _ _ _ _ _ hy => exact hy.mem_eq

theorem l1At_other (h : ReadCase cfg addr a x) {i : Index} (hi : i ≠ addrIndex addr) : x.arch.l1At i = a.l1At i := by
  cases h with
  | l1Hit => rfl
  | vcHit => exact Arch.setL1At_l1At_other _ _ hi
  | fill _ _ _ _ _ _ hy =>
    rw [hy.l1At_eq]
    exact Arch.setL1At_l1At_other _ _ hi

theorem eq_of_servedBy_l1 (h : ReadCase cfg addr a x) (hs : servedBy a addr = .l1) :
    x.arch.l1 = a.l1 ∧ x.arch.vc = a.vc ∧ x.arch.l2 = a.l2 := by
  cases h with
  | l1Hit => exact ⟨rfl, rfl, rfl⟩
  | vcHit j h1 h2 =>
    rw [servedBy_of_vcHit h1 h2] at hs
    cases hs
  | fill _ _ _ h1 h2 => rcases servedBy_of_vcMiss h1 h2 with h | h <;> rw [h] at hs <;> cases hs

theorem of_servedBy_vc (h : ReadCase cfg addr a x) (hs : servedBy a addr = .vc) : x.arch.l2 = a.l2 ∧
    ∃ j line, vcFirst a (addrTag addr) (addrIndex addr) = some j ∧ x.arch.vc = placedIn a.vc j line := by
  cases h with
  | l1Hit h1 =>
    rw [servedBy_of_l1Hit h1] at hs
    cases hs
  | vcHit j h1 h2 => exact ⟨rfl, j, _, h2, rfl⟩
  | fill _ _ _ h1 h2 => rcases servedBy_of_vcMiss h1 h2 with h | h <;> rw [h] at hs <;> cases hs

theorem cascadeCase_of_fill (h : ReadCase cfg addr a x) (hs : servedBy a addr = .l2 ∨ servedBy a addr = .mem) :
    ∃ lv d, CascadeCase cfg (a.l1At (addrIndex addr)) (addrIndex addr)
      { arch := fillL1 (addrTag addr) (addrIndex addr) d (a.setStat (a.stat.afterRead lv))
        record := { OutcomeRecord.blank with level := lv } } { arch := x.arch, record := x.record } := by
  cases h with
  | l1Hit h1 => rcases hs with hs | hs <;> rw [servedBy_of_l1Hit h1] at hs <;> cases hs
  | vcHit j h1 h2 => rcases hs with hs | hs <;> rw [servedBy_of_vcHit h1 h2] at hs <;> cases hs
  | fill lv d y _ _ _ hy => exact ⟨lv, d, hy⟩

theorem l1_valid (h : ReadCase cfg addr a x) {k : Index} (hk : (a.l1At k).valid = true) : (x.arch.l1At k).valid = true := by
  cases h with
  | l1Hit => exact hk
  | vcHit => exact setL1At_valid_mono rfl hk
  | fill _ _ _ _ _ _ hy =>
    rw [hy.l1At_eq]
    exact setL1At_valid_mono rfl hk

theorem l2_valid (h : ReadCase cfg addr a x) {k : Index} {w : Fin 8} (hw : (a.l2At k)[w].valid = true) :
    (x.arch.l2At k)[w].valid = true := by
  cases h with
  | l1Hit | vcHit => exact hw
  | fill _ _ _ _ _ _ hy => exact hy.l2_valid hw

end ReadCase

end

/-- What a set that a placement gave shows: the slot written, and every other slot aged (R105, R106). -/
theorem slots_of_eq_placedIn {w n : Nat} {u set : Vector (AgedLine w) n} {slot : Fin n} {line : Line w}
    (h : u = placedIn set slot line) : u[slot].recency = 0 ∧ ∀ k : Fin n, k ≠ slot → u[k] = (set[k]).older := by
  subst h
  exact ⟨by rw [placedIn_same], fun k hk => placedIn_other set line hk⟩

/-- Settles O27: the case of the READ is the level that serves it; on a fill the rest is what its cascade leaves. -/
theorem readFrame : Obligations.ReadFrame := by
  intro addr s t ht old slot k
  obtain ⟨x, rfl, hx⟩ := execRead_next ht
  refine ⟨rfl, rfl, rfl, fun a => by rw [State.complete_arch, hx.mem_eq], fun i hi => hx.l1At_other hi, hx.eq_of_servedBy_l1,
    fun hs => ?_, fun hs => ?_⟩
  · obtain ⟨hl2, j, line, hj, hvc⟩ := hx.of_servedBy_vc hs
    exact ⟨hl2, j, hj, slots_of_eq_placedIn hvc⟩
  · obtain ⟨lv, d, hy⟩ := hx.cascadeCase_of_fill hs
    refine ⟨hy.vc_l2_eq_of_skip, fun hmove => ?_⟩
    obtain ⟨hslot, hslots⟩ := slots_of_eq_placedIn (hy.vc_eq_of_move hmove)
    refine ⟨hslot, hslots, hy.l2_eq_of_free, fun hsel => ?_⟩
    obtain ⟨hother, line, hset⟩ := hy.l2_of_full hmove hsel rfl
    exact ⟨hother, slots_of_eq_placedIn hset⟩

/-- Settles O43: a line written into L1 or L2 is valid, and nothing else writes a valid flag there. -/
theorem l1AndL2LinesStayValid : Obligations.L1AndL2LinesStayValid := by
  intro i s t ht
  cases i with
  | read addr =>
    obtain ⟨x, rfl, hx⟩ := execRead_next ht
    exact ⟨fun k hk => hx.l1_valid hk, fun k w hw => hx.l2_valid hw⟩
  | write addr d =>
    obtain rfl := execWrite_next ht
    rw [State.complete_arch]
    refine ⟨fun k hk => ?_, fun k w hw => ?_⟩
    · rw [Arch.memWrite_l1At, writeCaches_l1At]
      exact hk
    · rw [Arch.memWrite_l2At, writeCaches_l2At]
      exact hw

end Sys2Proof.Machine

/-! SUPPORT. Where the word of a READ comes from, and what follows: a WRITE is seen by the READ after it, and under offset
discipline every valid copy agrees with memory (R61, R65). -/

namespace Sys2Proof.Machine

/-! ## The word of a READ (R139) -/

/-- What a READ of `addr` can return: the data of some valid line of its block, or the memory word at `addr`. -/
inductive BlockWord (dw : Nat) (a : Arch) (addr : Addr) : Word → Prop where
  | l1 (hvalid : (a.l1At (addrIndex addr)).valid = true) (htag : (a.l1At (addrIndex addr)).tag = addrTag addr) :
      BlockWord dw a addr (a.l1At (addrIndex addr)).data
  | vc (j : Fin 4) (hvalid : a.vc[j].valid = true) (htag : a.vc[j].tag = vcKey (addrTag addr) (addrIndex addr)) :
      BlockWord dw a addr a.vc[j].data
  | l2 (w : Fin 8) (hvalid : (a.l2At (addrIndex addr))[w].valid = true)
      (htag : (a.l2At (addrIndex addr))[w].tag = addrTag addr) : BlockWord dw a addr (a.l2At (addrIndex addr))[w].data
  | mem : BlockWord dw a addr (a.memRead dw addr)

section

variable {cfg : Config} {dw : Nat} {addr : Addr} {a : Arch} {d e : Word}

theorem FillSource.blockWord {lv : Level} (h : FillSource cfg a addr lv d) : BlockWord cfg.dataW a addr d := by
  rcases h with ⟨w, -, hw, rfl⟩ | ⟨-, -, rfl⟩
  · obtain ⟨⟨hvalid, htag⟩, -⟩ := firstMatch_eq_some.mp hw
    exact .l2 w hvalid htag
  · exact .mem

theorem ReadCase.blockWord {x : ReadDone} (h : ReadCase cfg addr a x) : BlockWord cfg.dataW a addr x.word := by
  cases h with
  | l1Hit h1 =>
    obtain ⟨hvalid, htag⟩ := l1Match_iff.mp h1
    exact .l1 hvalid htag
  | vcHit j _ h2 =>
    obtain ⟨⟨hvalid, htag⟩, -⟩ := firstMatch_eq_some.mp h2
    exact .vc j hvalid htag
  | fill lv d y _ _ hsrc => exact hsrc.blockWord

/-! ## The state after a WRITE (R161 to R164) -/

/-- What a WRITE leaves of the architectural state. -/
def Arch.written (dw : Nat) (addr : Addr) (d : Word) (a : Arch) : Arch := (writeCaches addr d a).memWrite dw addr d

theorem Arch.written_l1At (dw : Nat) (addr : Addr) (d : Word) (a : Arch) (k : Index) :
    (a.written dw addr d).l1At k = { a.l1At k with
      data := if k = addrIndex addr ∧ (a.l1At k).valid = true ∧ (a.l1At k).tag = addrTag addr then d
              else (a.l1At k).data } :=
  writeCaches_l1At addr d a k

theorem Arch.written_vc (dw : Nat) (addr : Addr) (d : Word) (a : Arch) (j : Fin 4) :
    (a.written dw addr d).vc[j] = { a.vc[j] with
      data := if a.vc[j].valid = true ∧ a.vc[j].tag = vcKey (addrTag addr) (addrIndex addr) then d else a.vc[j].data } :=
  writeCaches_vc addr d a j

theorem Arch.written_l2At (dw : Nat) (addr : Addr) (d : Word) (a : Arch) (k : Index) (w : Fin 8) :
    ((a.written dw addr d).l2At k)[w] = { (a.l2At k)[w] with
      data := if k = addrIndex addr ∧ (a.l2At k)[w].valid = true ∧ (a.l2At k)[w].tag = addrTag addr then d
              else (a.l2At k)[w].data } :=
  writeCaches_l2At addr d a k w

@[simp] theorem Arch.written_stat (dw : Nat) (addr : Addr) (d : Word) (a : Arch) : (a.written dw addr d).stat = a.stat := by
  rw [Arch.written, Arch.memWrite_stat, writeCaches_stat]

@[simp] theorem Arch.written_mem (dw : Nat) (addr : Addr) (d : Word) (a : Arch) :
    (a.written dw addr d).mem = a.mem.write dw addr.toNat d := by
  rw [Arch.written, Arch.memWrite_mem, writeCaches_mem]

@[simp] theorem Arch.written_memRead_same (dw : Nat) (addr : Addr) (d : Word) (a : Arch) :
    (a.written dw addr d).memRead dw addr = d := by
  rw [Arch.memRead, Arch.written_mem, Memory.read_write_same]

theorem Arch.written_memRead_other {addr other : Addr} (d : Word) (a : Arch) (h : other ≠ addr) :
    (a.written dw addr d).memRead dw other = a.memRead dw other := by
  have hne : other.toNat ≠ addr.toNat := fun e => h (BitVec.eq_of_toNat_eq e)
  rw [Arch.memRead, Arch.written_mem, Memory.read_write_other _ _ hne, Arch.memRead]

/-- After a WRITE every word a READ of the same address can return is the data written. -/
theorem BlockWord.eq_of_written (h : BlockWord dw (a.written dw addr d) addr e) : e = d := by
  cases h with
  | l1 hvalid htag =>
    rw [Arch.written_l1At] at hvalid htag ⊢
    exact if_pos ⟨rfl, hvalid, htag⟩
  | vc j hvalid htag =>
    rw [Arch.written_vc] at hvalid htag ⊢
    exact if_pos ⟨hvalid, htag⟩
  | l2 w hvalid htag =>
    rw [Arch.written_l2At] at hvalid htag ⊢
    exact if_pos ⟨rfl, hvalid, htag⟩
  | mem => exact Arch.written_memRead_same dw addr d a

end

theorem execWrite_next_written {addr : Addr} {d : Word} {s t : State} (h : execWrite addr d s = .next t) :
    t = s.complete (s.arch.written s.cfg.dataW addr d) none (writeRecord addr s.arch) := execWrite_next h

/-- Settles O32: the READ returns the data of a line of its block or the memory word, and the WRITE has updated them all. -/
theorem readAfterWriteReturnsTheData : Obligations.ReadAfterWriteReturnsTheData := by
  intro addr d s t u ht hu
  obtain rfl := execWrite_next_written ht
  obtain ⟨x, rfl, hx⟩ := execRead_next hu
  exact congrArg some hx.blockWord.eq_of_written

/-! ## A WRITE repeated (R55, R168) -/

section

variable {dw : Nat}

theorem insertCell_idem (addr : Nat) (v : Word) (cells : List (Nat × Word)) :
    insertCell addr v (insertCell addr v cells) = insertCell addr v cells := by
  induction cells with
  | nil => simp [insertCell]
  | cons c rest ih =>
    rcases lt_trichotomy addr c.1 with h | h | h
    · simp [insertCell, h]
    · simp [insertCell, h]
    · simp [insertCell, h.not_gt, h.ne', ih]

theorem eraseCell_idem (addr : Nat) (cells : List (Nat × Word)) :
    eraseCell addr (eraseCell addr cells) = eraseCell addr cells := by
  induction cells with
  | nil => rfl
  | cons c rest ih =>
    by_cases h : c.1 = addr
    · simp [eraseCell, h, ih]
    · simp [eraseCell, h, ih]

theorem Memory.write_idem (m : Memory) (addr : Nat) (v : Word) : (m.write dw addr v).write dw addr v = m.write dw addr v := by
  by_cases h : v = memUnlisted dw addr
  · simp only [Memory.write, if_pos h, eraseCell_idem]
  · simp only [Memory.write, if_neg h, insertCell_idem]

/-- Architectural states are equal if they are line by line, counter by counter and in memory. -/
theorem Arch.eq_of_lines {a b : Arch} (hl1 : ∀ i, a.l1At i = b.l1At i) (hvc : ∀ j : Fin 4, a.vc[j] = b.vc[j])
    (hl2 : ∀ (k : Index) (w : Fin 8), (a.l2At k)[w] = (b.l2At k)[w]) (hstat : a.stat = b.stat) (hmem : a.mem = b.mem) :
    a = b := by
  have h1 : a.l1 = b.l1 := Vector.ext fun i hi => hl1 (BitVec.ofFin ⟨i, hi⟩)
  have h2 : a.vc = b.vc := Vector.ext fun j hj => hvc ⟨j, hj⟩
  have h3 : a.l2 = b.l2 := Vector.ext fun k hk => Vector.ext fun w hw => hl2 (BitVec.ofFin ⟨k, hk⟩) ⟨w, hw⟩
  cases a
  cases b
  congr

theorem Arch.written_idem (addr : Addr) (d : Word) (a : Arch) :
    (a.written dw addr d).written dw addr d = a.written dw addr d := by
  refine Arch.eq_of_lines (fun i => ?_) (fun j => ?_) (fun k w => ?_) ?_ ?_
  · simp only [Arch.written_l1At]
    split <;> rfl
  · simp only [Arch.written_vc]
    split <;> rfl
  · simp only [Arch.written_l2At]
    split <;> rfl
  · rw [Arch.written_stat]
  · rw [Arch.written_mem, Arch.written_mem, Memory.write_idem]

end

/-- Settles O33: the second WRITE finds every copy and the memory word already holding the data. -/
theorem writeIsIdempotent : Obligations.WriteIsIdempotent := by
  intro addr d s t ht
  obtain rfl := execWrite_next_written ht
  exact ⟨_, rfl, Arch.written_idem addr d s.arch⟩

/-! ## Offset discipline (R65) -/

section

variable {home : VcTag → Offset} {addr : Addr} {b : VcTag}

@[simp] theorem addrTag_homeAddr (home : VcTag → Offset) (b : VcTag) : addrTag (homeAddr home b) = vcTagTag b := by
  apply BitVec.eq_of_getLsbD_eq
  intro k hk
  have h1 : ¬6 + k < 2 := by omega
  have h2 : 6 + k - 2 = 4 + k := by omega
  simp only [addrTag, homeAddr, vcTagTag, BitVec.getLsbD_extractLsb', BitVec.getLsbD_cast, BitVec.getLsbD_append]
  simp [hk, h1, h2]

@[simp] theorem addrIndex_homeAddr (home : VcTag → Offset) (b : VcTag) : addrIndex (homeAddr home b) = vcTagIndex b := by
  apply BitVec.eq_of_getLsbD_eq
  intro k hk
  have h1 : ¬2 + k < 2 := by omega
  simp only [addrIndex, homeAddr, vcTagIndex, BitVec.getLsbD_extractLsb', BitVec.getLsbD_cast, BitVec.getLsbD_append]
  simp [hk, h1]

/-- A disciplined address is the one used for its block. -/
theorem Disciplined.homeAddr_eq (h : Disciplined home addr) : homeAddr home (vcKey (addrTag addr) (addrIndex addr)) = addr := by
  unfold homeAddr
  rw [← h]
  apply BitVec.eq_of_getLsbD_eq
  intro k hk
  simp only [vcKey, addrTag, addrIndex, addrOffset, BitVec.getLsbD_cast, BitVec.getLsbD_append, BitVec.getLsbD_extractLsb']
  by_cases h2 : k < 2
  · simp [h2]
  by_cases h6 : k < 6
  · have h4 : k - 2 < 4 := by omega
    have hk2 : 2 + (k - 2) = k := by omega
    simp [h2, h4, hk2]
  · have h4 : ¬k - 2 < 4 := by omega
    have h10 : k - 2 - 4 < 6 := by omega
    have hk6 : 6 + (k - 2 - 4) = k := by omega
    simp [h2, h4, h10, hk6]

theorem Disciplined.homeAddr_eq_iff (h : Disciplined home addr) :
    homeAddr home b = addr ↔ b = vcKey (addrTag addr) (addrIndex addr) := by
  constructor
  · rintro rfl
    rw [addrTag_homeAddr, addrIndex_homeAddr, vcKey_parts]
  · rintro rfl
    exact h.homeAddr_eq

/-- A WRITE through its block's address changes the word that the lines of a block are compared with for that block alone. -/
theorem Disciplined.written_memRead (h : Disciplined home addr) {dw : Nat} (d : Word) (a : Arch) (b : VcTag) :
    (a.written dw addr d).memRead dw (homeAddr home b) =
      if b = vcKey (addrTag addr) (addrIndex addr) then d else a.memRead dw (homeAddr home b) := by
  split
  · next hb => rw [h.homeAddr_eq_iff.mpr hb, Arch.written_memRead_same]
  · next hb => exact Arch.written_memRead_other d a (mt h.homeAddr_eq_iff.mp hb)

end

/-! ## Coherence is kept (R65) -/

/-- A line that stands for block `b` is clean: if it is valid, its data is the memory word at the address used for `b`. -/
def Arch.Clean (dw : Nat) (home : VcTag → Offset) (a : Arch) (b : VcTag) {w : Nat} (l : Line w) : Prop :=
  l.valid = true → l.data = a.memRead dw (homeAddr home b)

namespace Arch.Coherent

variable {cfg : Config} {dw : Nat} {home : VcTag → Offset} {addr : Addr} {a : Arch} {i : Index} {d : Word}

theorem setStat (h : a.Coherent dw home) (st : Stats) : (a.setStat st).Coherent dw home := ⟨h.l1, h.vc, h.l2⟩

theorem setL1At (h : a.Coherent dw home) {l : L1Line} (hl : a.Clean dw home (vcKey l.tag i) l) :
    (a.setL1At i l).Coherent dw home where
  vc := h.vc
  l2 := h.l2
  l1 k := by
    by_cases hk : k = i
    · subst hk
      rw [Arch.setL1At_l1At_same]
      exact hl
    · rw [Arch.setL1At_l1At_other a l hk]
      exact h.l1 k

/-- A placement into VC of a clean line. -/
theorem placeVc (h : a.Coherent dw home) (j : Fin 4) {l : Line 10} (hl : a.Clean dw home l.tag l) :
    (a.setVc (placedIn a.vc j l)).Coherent dw home where
  l1 := h.l1
  l2 := h.l2
  vc k hk := by
    rw [Arch.setVc_vc] at hk ⊢
    rcases placedIn_cases_of_valid hk with ⟨-, hv, hk'⟩ | ⟨-, hv, hk'⟩ <;> rw [hk']
    · exact hl hv
    · exact h.vc k hv

/-- A placement of a clean line into an L2 set. -/
theorem placeL2 (h : a.Coherent dw home) {k : Index} (w : Fin 8) {l : Line 6} (hl : a.Clean dw home (vcKey l.tag k) l) :
    (a.setL2At k (placedIn (a.l2At k) w l)).Coherent dw home where
  l1 := h.l1
  vc := h.vc
  l2 n v hv := by
    by_cases hn : n = k
    · subst hn
      rw [Arch.setL2At_l2At_same] at hv ⊢
      rcases placedIn_cases_of_valid hv with ⟨-, hv, hv'⟩ | ⟨-, hv, hv'⟩ <;> rw [hv']
      · exact hl hv
      · exact h.l2 n v hv
    · rw [Arch.setL2At_l2At_other a _ hn] at hv ⊢
      exact h.l2 n v hv

/-- The former `L1[i]` is clean as a VC line too: its tag names the same block, and it is valid only if it was. -/
theorem clean_toVc (h : a.Coherent dw home) (hpol : cfg.policy ≠ .forceValid) (i : Index) :
    a.Clean dw home (toVc cfg.policy (a.l1At i) i).tag (toVc cfg.policy (a.l1At i) i) := by
  intro hv
  rw [toVc_valid_of_ne_forceValid hpol] at hv
  exact h.l1 i hv

/-- A VC line is clean as a line of the L2 set its tag names. -/
theorem clean_fromVc (h : a.Coherent dw home) (j : Fin 4) :
    a.Clean dw home (vcKey (fromVc a.vc[j].toLine).tag (vcTagIndex a.vc[j].tag)) (fromVc a.vc[j].toLine) := by
  intro hv
  have hblock : vcKey (fromVc a.vc[j].toLine).tag (vcTagIndex a.vc[j].tag) = a.vc[j].tag := vcKey_parts _
  rw [hblock]
  exact h.vc j hv

/-- Every word a READ can return is the memory word of its address. -/
theorem blockWord_eq (h : a.Coherent dw home) (haddr : Disciplined home addr) (hd : BlockWord dw a addr d) :
    d = a.memRead dw addr := by
  have hhome := haddr.homeAddr_eq
  cases hd with
  | l1 hvalid htag => rw [h.l1 _ hvalid, htag, hhome]
  | vc j hvalid htag => rw [h.vc j hvalid, htag, hhome]
  | l2 w hvalid htag => rw [h.l2 _ w hvalid, htag, hhome]
  | mem => rfl

/-- The cascade of a fill of `L1[i]`. -/
theorem cascadeCase (h : a.Coherent dw home) (hpol : cfg.policy ≠ .forceValid) {l : L1Line}
    (hl : a.Clean dw home (vcKey l.tag i) l) {r : OutcomeRecord} {y : Traced}
    (hy : CascadeCase cfg (a.l1At i) i { arch := a.setL1At i l, record := r } y) : y.arch.Coherent dw home := by
  have hmoved (slot : Fin 4) :
      ((a.setL1At i l).setVc (placedIn a.vc slot (toVc cfg.policy (a.l1At i) i))).Coherent dw home :=
    (h.setL1At hl).placeVc slot (h.clean_toVc hpol i)
  cases hy with
  | skipped => exact h.setL1At hl
  | free k => exact hmoved k
  | evict j w => exact (hmoved j).placeL2 w (h.clean_fromVc j)

theorem readCase (h : a.Coherent cfg.dataW home) (hpol : cfg.policy ≠ .forceValid) (haddr : Disciplined home addr)
    {x : ReadDone} (hx : ReadCase cfg addr a x) : x.arch.Coherent cfg.dataW home := by
  have hnew {d : Word} (hd : BlockWord cfg.dataW a addr d) :
      a.Clean cfg.dataW home (vcKey (addrTag addr) (addrIndex addr)) { tag := addrTag addr, data := d, valid := true } := by
    intro _
    rw [haddr.homeAddr_eq]
    exact h.blockWord_eq haddr hd
  have hword := hnew hx.blockWord
  cases hx with
  | l1Hit => exact h.setStat _
  | vcHit j _ h2 =>
    obtain ⟨⟨-, htag⟩, -⟩ := firstMatch_eq_some.mp h2
    rw [htag, vcTagTag_vcKey]
    exact ((h.setStat (a.stat.afterRead .vc)).setL1At hword).placeVc j (h.clean_toVc hpol _)
  | fill lv d y _ _ _ hy => exact (h.setStat (a.stat.afterRead lv)).cascadeCase hpol hword hy

theorem written (h : a.Coherent dw home) (haddr : Disciplined home addr) (d : Word) :
    (a.written dw addr d).Coherent dw home where
  l1 k hk := by
    rw [Arch.written_l1At] at hk ⊢
    rw [haddr.written_memRead]
    refine ite_congr (propext ?_) (fun _ => rfl) fun _ => h.l1 k hk
    rw [vcKey_inj]
    exact ⟨fun ⟨hi, _, ht⟩ => ⟨ht, hi⟩, fun ⟨ht, hi⟩ => ⟨hi, hk, ht⟩⟩
  vc j hj := by
    rw [Arch.written_vc] at hj ⊢
    rw [haddr.written_memRead]
    refine ite_congr (propext ?_) (fun _ => rfl) fun _ => h.vc j hj
    exact ⟨fun ⟨_, ht⟩ => ht, fun ht => ⟨hj, ht⟩⟩
  l2 k w hw := by
    rw [Arch.written_l2At] at hw ⊢
    rw [haddr.written_memRead]
    refine ite_congr (propext ?_) (fun _ => rfl) fun _ => h.l2 k w hw
    rw [vcKey_inj]
    exact ⟨fun ⟨hi, _, ht⟩ => ⟨ht, hi⟩, fun ⟨ht, hi⟩ => ⟨hi, hw, ht⟩⟩

end Arch.Coherent

/-- Settles O45: a READ moves clean lines and installs the memory word of its address; a WRITE updates every copy of its block
and the memory word they are compared with. -/
theorem disciplinedAccessesStayCoherent : Obligations.DisciplinedAccessesStayCoherent := by
  intro home i s t hpol hs haddr ht
  cases i with
  | read addr =>
    obtain ⟨x, rfl, hx⟩ := execRead_next ht
    refine ⟨hs.readCase hpol haddr hx, ?_, ?_, nofun⟩
    · rintro _ ⟨⟩
      exact congrArg some (hs.blockWord_eq haddr hx.blockWord)
    · rintro a -
      rw [State.complete_arch, Arch.memRead, hx.mem_eq, Arch.memRead]
  | write addr d =>
    obtain rfl := execWrite_next_written ht
    refine ⟨hs.written haddr d, nofun, nofun, ?_⟩
    rintro _ _ ⟨⟩
    exact Arch.written_memRead_same _ addr d s.arch

/-- With no valid line there is nothing to agree. -/
theorem Arch.Coherent.of_invalid {dw : Nat} {home : VcTag → Offset} {a : Arch} (hl1 : ∀ i, (a.l1At i).valid = false)
    (hvc : ∀ j : Fin 4, a.vc[j].valid = false) (hl2 : ∀ (k : Index) (w : Fin 8), (a.l2At k)[w].valid = false) :
    a.Coherent dw home where
  l1 i hi := absurd ((hl1 i).symm.trans hi) Bool.false_ne_true
  vc j hj := absurd ((hvc j).symm.trans hj) Bool.false_ne_true
  l2 k w hw := absurd ((hl2 k w).symm.trans hw) Bool.false_ne_true

theorem Arch.Coherent.afterReset (cfg : Config) (lines : LineInit) (mem : Memory) (home : VcTag → Offset) :
    (Arch.afterReset cfg lines mem).Coherent cfg.dataW home :=
  .of_invalid (fun i => by rw [Arch.afterReset_l1At, Line.invalid_valid])
    (fun j => by rw [Arch.afterReset_vc, AgedLine.invalid_valid])
    (fun k w => by rw [Arch.afterReset_l2At, AgedLine.invalid_valid])

/-- Settles O46: no line is valid after reset. -/
theorem resetIsCoherent : Obligations.ResetIsCoherent :=
  fun home cfg lines mem => Arch.Coherent.afterReset cfg lines mem home

end Sys2Proof.Machine

/-! SUPPORT. A pass of the FSM and the transactional operation (R211): in every FSM state what remains of the operation is said with
the shared operations, each edge does a part of it, and `S_RESP` is where nothing remains. -/

namespace Sys2Proof.Machine

/-! ## What remains of an access -/

/-- The part of a cascade after the test for `skip`: the L1 victim into VC, and a valid line it displaces into L2 (R109). -/
def moveVictims (cfg : Config) (victim1 : L1Line) (i : Index) (x : Traced) : Except Refusal Traced := do
  let p ← placeInVc cfg victim1 i x.arch
  let r := x.record.withVc p.slot p.real
  if p.real then
    let q ← placeInL2 cfg p.victim p.arch
    return { arch := q.arch, record := r.withL2 q.set q.way q.real }
  else return { arch := p.arch, record := r }

theorem cascade_eq_moveVictims (cfg : Config) (v : L1Line) (i : Index) (x : Traced) :
    cascade cfg v i x = if cfg.policy = .skip ∧ v.valid = false then .ok x else moveVictims cfg v i x := rfl

/-- The record of an access with what `S_WRUPD` adds to it (R207). -/
def OutcomeRecord.withWrite (r w : OutcomeRecord) : OutcomeRecord :=
  { r with wrL1 := w.wrL1, wrVC := w.wrVC, wrL2 := w.wrL2 }

/-- What is still to do of the access in progress, its effect and word, from the FSM state and the latches (R200 to R209). -/
def State.rest (s : State) : Except Refusal ReadDone :=
  let f := s.fsm
  let now : Traced := { arch := s.arch, record := f.dbg }
  match s.fsmState with
  | .idle | .resp => .ok { arch := s.arch, word := f.rData, record := f.dbg }
  | .l1 => searchL1 s.cfg f.rAddr s.arch
  | .vc => searchVC s.cfg f.rAddr s.arch
  | .l2 => searchL2 s.cfg f.rAddr s.arch
  | .memRd => do
    let y ← fillAndCascade s.cfg f.rTag f.rIndex (s.arch.memRead s.cfg.dataW f.rAddr) now
    return { arch := y.arch, word := s.arch.memRead s.cfg.dataW f.rAddr, record := y.record }
  | .fill => do
    let y ← fillAndCascade s.cfg f.rTag f.rIndex f.rData now
    return { arch := y.arch, word := f.rData, record := y.record }
  | .vcPl => do
    let y ← moveVictims s.cfg f.v1 f.rIndex now
    return { arch := y.arch, word := f.rData, record := y.record }
  | .l2Pl => do
    let q ← placeInL2 s.cfg f.v2 s.arch
    return { arch := q.arch, word := f.rData, record := f.dbg.withL2 q.set q.way q.real }
  | .wrUpd => .ok
      { arch := s.arch.written s.cfg.dataW f.rAddr f.rWdata, word := f.rData
        record := f.dbg.withWrite (writeRecord f.rAddr s.arch) }
  | .memWr => .ok { arch := s.arch.memWrite s.cfg.dataW f.rAddr f.rWdata, word := f.rData, record := f.dbg }

/-- The access completed, with the given hidden registers: the word is for a READ only (R193). -/
def State.finish (f : Fsm) (s : State) (x : ReadDone) : State :=
  (s.complete x.arch (if s.fsm.rRead && !s.fsm.rWrite then some x.word else none) x.record).setFsm f

/-- The machine at the end of the access in progress, with the given hidden registers, or the refusal it ends with. -/
def State.remaining (f : Fsm) (s : State) : Except Refusal State := do
  let x ← s.rest
  return s.finish f x

/-- The memory access that the access in progress is still to make (R51). -/
def State.pendingMem (s : State) : List MemRequest :=
  let f := s.fsm
  let vcHit := (vcFirst s.arch f.rTag f.rIndex).isSome
  let l2Hit := (l2First s.arch f.rIndex f.rTag).isSome
  match s.fsmState with
  | .idle | .fill | .vcPl | .l2Pl | .resp => []
  | .l1 => bif l1Match s.arch f.rIndex f.rTag || vcHit || l2Hit then [] else [.read f.rAddr]
  | .vc => bif vcHit || l2Hit then [] else [.read f.rAddr]
  | .l2 => bif l2Hit then [] else [.read f.rAddr]
  | .memRd => [.read f.rAddr]
  | .wrUpd | .memWr => [.write f.rAddr f.rWdata]

/-- An access is in progress, and the search states find its record blank, as `S_IDLE` left it (R199). -/
structure State.InPass (s : State) : Prop where
  busy  : s.fsmState ≠ .idle
  fresh : s.fsmState = .l1 ∨ s.fsmState = .vc ∨ s.fsmState = .l2 → s.fsm.dbg = .blank

@[simp] theorem Fsm.goTo_rAddr (f : Fsm) (q : FsmState) : (f.goTo q).rAddr = f.rAddr := rfl
@[simp] theorem Fsm.goTo_rWdata (f : Fsm) (q : FsmState) : (f.goTo q).rWdata = f.rWdata := rfl
@[simp] theorem Fsm.goTo_rTag (f : Fsm) (q : FsmState) : (f.goTo q).rTag = f.rTag := rfl
@[simp] theorem Fsm.goTo_rIndex (f : Fsm) (q : FsmState) : (f.goTo q).rIndex = f.rIndex := rfl

@[simp] theorem vcFirst_setStat (a : Arch) (st : Stats) (t : Tag) (i : Index) :
    vcFirst (a.setStat st) t i = vcFirst a t i := rfl
@[simp] theorem l2First_setStat (a : Arch) (st : Stats) (i : Index) (t : Tag) :
    l2First (a.setStat st) i t = l2First a i t := rfl

/-! ## Each edge does a part of what remains -/

section

variable {f : Fsm} {p : Pins} {s t : State}

theorem edgeL1_remaining (hq : s.fsmState = .l1) (hfresh : s.fsm.dbg = .blank) :
    edgeL1 s >>= State.remaining f = s.remaining f := by
  rw [State.remaining, State.rest, hq]
  unfold edgeL1 searchL1 Fsm.rIndex Fsm.rTag
  rw [← hfresh, bind_assoc, bind_assoc]
  refine bind_congr fun st => ?_
  cases l1Match s.arch (addrIndex s.fsm.rAddr) (addrTag s.fsm.rAddr) <;> rfl

theorem edgeVC_remaining (hq : s.fsmState = .vc) (hfresh : s.fsm.dbg = .blank) :
    edgeVC s >>= State.remaining f = s.remaining f := by
  rw [State.remaining, State.rest, hq]
  unfold edgeVC searchVC Fsm.rIndex Fsm.rTag
  rw [← hfresh, bind_assoc, bind_assoc]
  refine bind_congr fun st => ?_
  cases vcFirst s.arch (addrTag s.fsm.rAddr) (addrIndex s.fsm.rAddr) with
  | some j =>
    simp only [bind_assoc]
    rfl
  | none => rfl

theorem edgeL2_remaining (hq : s.fsmState = .l2) (hfresh : s.fsm.dbg = .blank) :
    edgeL2 s >>= State.remaining f = s.remaining f := by
  rw [State.remaining, State.rest, hq]
  unfold edgeL2 searchL2 finishFill Fsm.rIndex Fsm.rTag
  rw [← hfresh, bind_assoc, bind_assoc]
  refine bind_congr fun st => ?_
  cases l2First s.arch (addrIndex s.fsm.rAddr) (addrTag s.fsm.rAddr) <;> rfl

theorem edgeMemRd_remaining (hq : s.fsmState = .memRd) : (edgeMemRd p s).remaining f = s.remaining f := by
  unfold edgeMemRd
  split
  · rw [State.remaining, State.remaining, State.rest, State.rest, hq, State.setFsm_goTo_fsmState]
    rfl
  · rfl

theorem edgeFill_remaining (hq : s.fsmState = .fill) : (edgeFill s).remaining f = s.remaining f := by
  -- as an edge that could stop, so that the rewriting below finds the right side only
  rw [← pure_bind (m := Except Refusal) (edgeFill s) (State.remaining f), State.remaining, State.rest, hq]
  simp only [edgeFill, fillAndCascade, cascade_eq_moveVictims]
  split <;> rfl

theorem edgeVcPl_remaining (hq : s.fsmState = .vcPl) : edgeVcPl s >>= State.remaining f = s.remaining f := by
  rw [State.remaining, State.rest, hq]
  unfold edgeVcPl moveVictims
  simp only [bind_assoc]
  refine bind_congr fun x => ?_
  cases x.real with
  | true =>
    simp only [if_true, bind_assoc]
    rw [pure_bind, State.remaining, State.rest, State.setFsm_goTo_fsmState]
    simp only [bind_assoc]
    rfl
  | false => rfl

theorem edgeL2Pl_remaining (hq : s.fsmState = .l2Pl) : edgeL2Pl s >>= State.remaining f = s.remaining f := by
  rw [State.remaining, State.rest, hq]
  unfold edgeL2Pl
  rw [bind_assoc, bind_assoc]
  rfl

theorem edgeWrUpd_remaining (hq : s.fsmState = .wrUpd) : (edgeWrUpd s).remaining f = s.remaining f := by
  rw [State.remaining, State.remaining, State.rest, State.rest, hq, edgeWrUpd, State.setFsm_goTo_fsmState]
  rfl

theorem edgeMemWr_remaining (hq : s.fsmState = .memWr) : (edgeMemWr p s).remaining f = s.remaining f := by
  unfold edgeMemWr
  split
  · rw [State.remaining, State.remaining, State.rest, State.rest, hq, State.setFsm_goTo_fsmState]
    rfl
  · rfl

theorem outcomeOf_remaining {r : Except Refusal State} (h : r >>= State.remaining f = s.remaining f) :
    (∃ t, outcomeOf r = .next t ∧ t.remaining f = s.remaining f) ∨
    (∃ e, outcomeOf r = .refused e ∧ s.remaining f = .error e) := by
  cases r with
  | ok t => exact .inl ⟨t, rfl, h⟩
  | error e => exact .inr ⟨e, rfl, h.symm⟩

/-- An edge before `S_RESP` does a part of what remains, or ends in the refusal that what remains ends in. -/
theorem clock_remaining (hrst : p.rst = false) (hs : s.InPass) (hresp : s.fsmState ≠ .resp) (f : Fsm) :
    (∃ t, clock p s = .next t ∧ t.remaining f = s.remaining f) ∨
    (∃ r, clock p s = .refused r ∧ s.remaining f = .error r) := by
  unfold clock
  rw [hrst, if_neg Bool.false_ne_true]
  split
  · exact .inl ⟨_, rfl, rfl⟩
  cases hq : s.fsmState
  case idle => exact absurd hq hs.busy
  case resp => exact absurd hq hresp
  case l1 => exact outcomeOf_remaining (edgeL1_remaining hq (hs.fresh (.inl hq)))
  case vc => exact outcomeOf_remaining (edgeVC_remaining hq (hs.fresh (.inr (.inl hq))))
  case l2 => exact outcomeOf_remaining (edgeL2_remaining hq (hs.fresh (.inr (.inr hq))))
  case memRd => exact .inl ⟨_, rfl, edgeMemRd_remaining hq⟩
  case fill => exact .inl ⟨_, rfl, edgeFill_remaining hq⟩
  case vcPl => exact outcomeOf_remaining (edgeVcPl_remaining hq)
  case l2Pl => exact outcomeOf_remaining (edgeL2Pl_remaining hq)
  case wrUpd => exact .inl ⟨_, rfl, edgeWrUpd_remaining hq⟩
  case memWr => exact .inl ⟨_, rfl, edgeMemWr_remaining hq⟩

/-- In `S_RESP` nothing remains: the edge that gives the response completes the access. -/
theorem edgeResp_remaining (hq : s.fsmState = .resp) (f : Fsm) : s.remaining f = .ok ((edgeResp s).setFsm f) := by
  rw [State.remaining, State.rest, hq]
  rfl

/-! ## What an edge keeps, and the memory access it makes -/

/-- The memory access made at an edge: the one asked for, if the memory answers (R194). -/
def memAccessAt (p : Pins) (s : State) : Option MemRequest := if p.memReady then (s.outputs p.rst).mem else none

theorem memAccessAt_of_not_ready (h : p.memReady = false) : memAccessAt p s = none := by
  rw [memAccessAt, h, if_neg Bool.false_ne_true]

theorem memAccessAt_of_ready (h : p.memReady = true) : memAccessAt p s = (s.outputs p.rst).mem := if_pos h

/-- Outside the memory states no access is made. -/
theorem memAccessAt_of_quiet (h : s.fsmState ≠ .memRd ∧ s.fsmState ≠ .memWr) : memAccessAt p s = none := by
  unfold memAccessAt State.outputs
  cases hq : s.fsmState
  case memRd => exact absurd hq h.1
  case memWr => exact absurd hq h.2
  all_goals exact ite_self none

theorem quiet_of_canStall {q : FsmState} (h : q.canStall = true) : q ≠ .memRd ∧ q ≠ .memWr := by
  constructor <;> rintro rfl <;> cases h

theorem State.InPass.goTo {a : Arch} {g : Fsm} {q : FsmState} (hbusy : q ≠ .idle)
    (hfresh : q = .l1 ∨ q = .vc ∨ q = .l2 → g.dbg = .blank) : ((s.setArch a).setFsm (g.goTo q)).InPass := by
  constructor <;> rwa [State.setFsm_goTo_fsmState]

/-- An edge before `S_RESP` leaves the access in progress, and the record blank on the way from `S_L1` to `S_L2`. -/
theorem EdgeCase.inPass (h : EdgeCase p s t) (hrst : p.rst = false) (hs : s.InPass) (hresp : s.fsmState ≠ .resp) :
    t.InPass := by
  cases h with
  | reset h => exact absurd (hrst.symm.trans h) Bool.false_ne_true
  | accept hq => exact absurd hq hs.busy
  | resp hq => exact absurd hq hresp
  | stall => exact ⟨hs.busy, hs.fresh⟩
  | wait => exact hs
  | l1Miss st hq => exact .goTo nofun fun _ => hs.fresh (.inl hq)
  | vcMiss st hq => exact .goTo nofun fun _ => hs.fresh (.inr (.inl hq))
  | memRd => exact .goTo (a := s.arch) nofun nofun
  | fill q _ hnext =>
    subst hnext
    split <;> exact .goTo nofun nofun
  | vcPl => split <;> exact .goTo nofun nofun
  | l1Hit | vcHit | l2Hit | l2Miss | l2Pl | wrUpd | memWr => exact .goTo nofun nofun

/-- Of the memory accesses to be made, an edge before `S_RESP` leaves those it does not make. -/
theorem EdgeCase.pendingMem (h : EdgeCase p s t) (hrst : p.rst = false) (hs : s.InPass) (hresp : s.fsmState ≠ .resp) :
    s.pendingMem = (memAccessAt p s).toList ++ t.pendingMem := by
  cases h with
  | reset h => exact absurd (hrst.symm.trans h) Bool.false_ne_true
  | accept hq => exact absurd hq hs.busy
  | resp hq => exact absurd hq hresp
  | stall hstay =>
    simp only [State.stays, Bool.and_eq_true] at hstay
    obtain ⟨⟨-, hcan⟩, -⟩ := hstay
    rw [memAccessAt_of_quiet (quiet_of_canStall hcan)]
    rfl
  | wait hwait =>
    rcases hwait with ⟨hq, -⟩ | ⟨-, hready⟩
    · exact absurd hq hs.busy
    · rw [memAccessAt_of_not_ready hready]
      rfl
  | memRd hq hready =>
    rw [memAccessAt_of_ready hready]
    simp [State.pendingMem, State.outputs, hq]
  | memWr hq hready =>
    rw [memAccessAt_of_ready hready]
    simp [State.pendingMem, State.outputs, hq]
  | l1Hit st hq h | l1Miss st hq h | vcHit j st b hq h | vcMiss st hq h | l2Hit w st hq h | l2Miss st hq h =>
    rw [memAccessAt_of_quiet (by simp [hq])]
    simp [State.pendingMem, hq, h]
  | fill q hq hnext =>
    subst hnext
    rw [memAccessAt_of_quiet (by simp [hq])]
    split <;> simp [State.pendingMem, hq]
  | vcPl x hq =>
    rw [memAccessAt_of_quiet (by simp [hq])]
    split <;> simp [State.pendingMem, hq]
  | l2Pl x hq =>
    rw [memAccessAt_of_quiet (by simp [hq])]
    simp [State.pendingMem, hq]
  | wrUpd hq =>
    rw [memAccessAt_of_quiet (by simp [hq]), edgeWrUpd]
    simp [State.pendingMem, hq]

end

/-! ## The pass from any state of it -/

section

variable {f : Fsm} {p : Pins} {ps : List Pins} {s t : State} {o : Host.Outcome State Fault Refusal}

theorem isIdle_eq_false : s.isIdle = false ↔ s.fsmState ≠ .idle := beq_eq_false_iff_ne

theorem runToIdle_cons (h : clock p s = .next t) (ht : t.isIdle = false) : runToIdle (p :: ps) s = runToIdle ps t := by
  rw [runToIdle, h]
  exact if_neg (ht ▸ Bool.false_ne_true)

theorem passTrace_cons (h : clock p s = .next t) (ht : t.isIdle = false) :
    passTrace (p :: ps) s = (p, s.outputs p.rst) :: passTrace ps t := by
  rw [passTrace, h]
  exact congrArg _ (if_neg (ht ▸ Bool.false_ne_true))

theorem memAccesses_cons (tr : List (Pins × Outputs)) :
    memAccesses ((p, s.outputs p.rst) :: tr) = (memAccessAt p s).toList ++ memAccesses tr := by
  unfold memAccesses
  rw [List.filterMap_cons]
  cases h : memAccessAt p s <;> rw [memAccessAt] at h <;> simp only [h] <;> rfl

theorem responses_cons (h : s.fsmState ≠ .resp) (tr : List (Pins × Outputs)) :
    responses ((p, s.outputs p.rst) :: tr) = responses tr :=
  List.filterMap_cons_none (if_neg h)

/-- The edge of `S_RESP` ends the pass, and the response was driven at it. -/
theorem clock_resp (hrst : p.rst = false) (hq : s.fsmState = .resp) : clock p s = .next (edgeResp s) := by
  have hstays : s.stays p = false := by simp [State.stays, hq, FsmState.canStall]
  rw [clock, hrst, hstays, hq]
  rfl

/-- A pass from `s` that ends with `o` and shows `tr` ends as what remains of the access does; if it completes, it has given one
response and made the memory accesses still to be made. -/
def PassEnds (f : Fsm) (s : State) (o : Host.Outcome State Fault Refusal) (tr : List (Pins × Outputs)) : Prop :=
  (∃ t r, o = .next t ∧ s.remaining f = .ok (t.setFsm f) ∧ t.resp = some r ∧ responses tr = [r] ∧
    memAccesses tr = s.pendingMem) ∨
  (∃ r, o = .refused r ∧ s.remaining f = .error r)

theorem runToIdle_resp (hrst : p.rst = false) (hq : s.fsmState = .resp) (h : runToIdle (p :: ps) s = some o) :
    PassEnds f s o (passTrace (p :: ps) s) := by
  have hclock := clock_resp hrst hq
  have hidle : (edgeResp s).isIdle = true := rfl
  simp only [runToIdle, hclock, hidle, if_true, Option.some.injEq] at h
  subst h
  refine .inl ⟨_, s.fsmResponse, rfl, edgeResp_remaining hq f, rfl, ?_⟩
  simp only [passTrace, hclock, hidle, if_true]
  constructor
  · simp [responses, State.outputs, hq]
  · simp [memAccesses, State.outputs, State.pendingMem, hq]

/-- A pass from any state of it ends as what remains of the access does. -/
theorem runToIdle_remaining (f : Fsm) (ps : List Pins) (hps : ∀ q ∈ ps, q.rst = false) (hs : s.InPass)
    (h : runToIdle ps s = some o) : PassEnds f s o (passTrace ps s) := by
  induction ps generalizing s with
  | nil => cases h
  | cons p ps ih =>
    obtain ⟨hrst, hps⟩ := List.forall_mem_cons.mp hps
    by_cases hresp : s.fsmState = .resp
    · exact runToIdle_resp hrst hresp h
    rcases clock_remaining hrst hs hresp f with ⟨t, ht, hrem⟩ | ⟨r, hr, hrem⟩
    · have hedge := clock_next ht
      have hin := hedge.inPass hrst hs hresp
      have hbusy := isIdle_eq_false.mpr hin.busy
      rw [runToIdle_cons ht hbusy] at h
      rw [PassEnds, ← hrem, passTrace_cons ht hbusy, responses_cons hresp, memAccesses_cons,
        hedge.pendingMem hrst hs hresp, List.append_right_inj]
      exact ih hps hin h
    · rw [runToIdle, hr] at h
      cases h
      exact .inr ⟨r, rfl, hrem⟩

end

/-! ## The pass from the acceptance -/

section

variable {p : Pins} {s : State} {i : Instr}

theorem decodeFields_eq_ok {isRead isWrite : Bool} {a : Addr} {d : Word} :
    decodeFields isRead isWrite a d = .ok i ↔
      isRead = true ∧ isWrite = false ∧ i = .read a ∨ isRead = false ∧ isWrite = true ∧ i = .write a d := by
  cases isRead <;> cases isWrite <;> simp [decodeFields, eq_comm]

theorem execRead_eq_outcomeOf (addr : Addr) (s : State) : execRead addr s =
    outcomeOf (searchL1 s.cfg addr s.arch >>= fun x => pure (s.complete x.arch (some x.word) x.record)) := by
  unfold execRead
  cases searchL1 s.cfg addr s.arch <;> rfl

/-- A READ reads memory if no level holds its block. -/
theorem memAccessesOf_read (addr : Addr) (a : Arch) : memAccessesOf (.read addr) a =
    bif l1Match a (addrIndex addr) (addrTag addr) || (vcFirst a (addrTag addr) (addrIndex addr)).isSome ||
      (l2First a (addrIndex addr) (addrTag addr)).isSome then [] else [.read addr] := by
  rw [memAccessesOf]
  cases h1 : l1Match a (addrIndex addr) (addrTag addr) with
  | true => rw [servedBy_of_l1Hit h1]; rfl
  | false =>
    rw [servedBy_of_l1Miss h1]
    cases (vcFirst a (addrTag addr) (addrIndex addr)).isSome <;>
      cases (l2First a (addrIndex addr) (addrTag addr)).isSome <;> rfl

theorem clock_idle (hidle : s.fsmState = .idle) (hrst : p.rst = false) : clock p s = .next (edgeIdle p s) := by
  have hstays : s.stays p = false := by simp [State.stays, hidle, FsmState.canStall]
  rw [clock, hrst, hstays, hidle]
  rfl

variable (hreq : p.reqValid = true)
  (hdec : decodeFields p.reqRead p.reqWrite p.reqAddr (p.reqWdata % 2 ^ s.cfg.dataW) = .ok i)

include hreq hdec

/-- An accepted operation is in progress, with a blank record (R199). -/
theorem edgeIdle_inPass : (edgeIdle p s).InPass := by
  rw [edgeIdle, if_pos hreq]
  refine .goTo (a := s.arch) ?_ fun _ => rfl
  rcases decodeFields_eq_ok.mp hdec with ⟨hr, hw, -⟩ | ⟨hr, hw, -⟩ <;> rw [hr, hw] <;> nofun

/-- Of an operation just accepted the whole remains. -/
theorem exec_eq_remaining : exec i s = outcomeOf ((edgeIdle p s).remaining s.fsm) := by
  rw [edgeIdle, if_pos hreq]
  rcases decodeFields_eq_ok.mp hdec with ⟨hr, hw, rfl⟩ | ⟨hr, hw, rfl⟩ <;> rw [hr, hw]
  · exact execRead_eq_outcomeOf p.reqAddr s
  · rfl

/-- An operation just accepted has all its memory accesses still to make (R51). -/
theorem edgeIdle_pendingMem : (edgeIdle p s).pendingMem = memAccessesOf i s.arch := by
  rw [edgeIdle, if_pos hreq]
  rcases decodeFields_eq_ok.mp hdec with ⟨hr, hw, rfl⟩ | ⟨hr, hw, rfl⟩ <;> rw [hr, hw]
  · exact (memAccessesOf_read p.reqAddr s.arch).symm
  · rfl

end

/-- Settles O49: acceptance leaves the whole operation to do, every edge does a part of it, and in `S_RESP` nothing is left. -/
theorem fsmPassEqualsTheOperation : Obligations.FsmPassEqualsTheOperation := by
  intro i s p ps o hidle hrst hreq hdec hps h
  have hq : s.fsmState = .idle := beq_iff_eq.mp hidle
  have hclock := clock_idle hq hrst
  have hin := edgeIdle_inPass hreq hdec
  have hbusy := isIdle_eq_false.mpr hin.busy
  have hquiet : memAccessAt p s = none := memAccessAt_of_quiet (by simp [hq])
  rw [runToIdle_cons hclock hbusy] at h
  rw [passTrace_cons hclock hbusy, responses_cons (by simp [hq]), memAccesses_cons, hquiet,
    exec_eq_remaining hreq hdec, ← edgeIdle_pendingMem hreq hdec]
  rcases runToIdle_remaining s.fsm ps hps hin h with ⟨t, r, rfl, hrem, hend⟩ | ⟨r, rfl, hrem⟩ <;> rw [hrem]
  · exact .inl ⟨t, r, rfl, rfl, hend⟩
  · exact .inr ⟨r, rfl, rfl⟩

end Sys2Proof.Machine

/-! SUPPORT. A READ and memory (R51): every shared operation of a READ moves the caches alike whatever memory holds; and a step between
accesses runs what its oldest request decodes to (R58, R70). -/

namespace Sys2Proof.Machine

/-! ## Another memory -/

/-- The same caches and counters with another memory. -/
def Arch.withMem (m : Memory) (a : Arch) : Arch := { a with mem := m }

/-- Results that are the same but for memory, which is `m` in the second. -/
def ReadDone.SameBut (m : Memory) (x y : ReadDone) : Prop := y = { x with arch := x.arch.withMem m }

/-- As `ReadDone.SameBut`, in the middle of a fill. -/
def Traced.SameBut (m : Memory) (x y : Traced) : Prop := y = { x with arch := x.arch.withMem m }

section

variable {cfg : Config} {addr : Addr} {a : Arch} {m : Memory}

theorem ResultsAlike.bind_same {α β : Type} {S : β → β → Prop} {x : Except Refusal α} {g h : α → Except Refusal β}
    (hgh : ∀ a, ResultsAlike S (g a) (h a)) : ResultsAlike S (x >>= g) (x >>= h) :=
  (ResultsAlike.refl (fun _ => rfl) x).bind fun a _ e => e ▸ hgh a

theorem ResultsAlike.exists_ok {α : Type} {R : α → α → Prop} {x : α} {r : Except Refusal α}
    (h : ResultsAlike R (.ok x) r) : ∃ y, r = .ok y ∧ R x y := by
  cases r with
  | ok y => exact ⟨y, rfl, h⟩
  | error => exact h.elim

theorem vcSwap_withMem (m : Memory) (i : Index) (j : Fin 4) (a : Arch) :
    ResultsAlike (fun b c => c = b.withMem m) (vcSwap cfg i j a) (vcSwap cfg i j (a.withMem m)) :=
  .bind_same fun _ => rfl

theorem placeInVc_withMem (m : Memory) (v : L1Line) (i : Index) (a : Arch) :
    ResultsAlike (fun p q => q = { p with arch := p.arch.withMem m }) (placeInVc cfg v i a)
      (placeInVc cfg v i (a.withMem m)) :=
  .bind_same fun _ => rfl

theorem placeInL2_withMem (m : Memory) (v : Line 10) (a : Arch) :
    ResultsAlike (fun p q => q = { p with arch := p.arch.withMem m }) (placeInL2 cfg v a)
      (placeInL2 cfg v (a.withMem m)) :=
  .bind_same fun _ => rfl

theorem cascade_withMem (m : Memory) (v : L1Line) (i : Index) (x : Traced) :
    ResultsAlike (Traced.SameBut m) (cascade cfg v i x) (cascade cfg v i { x with arch := x.arch.withMem m }) := by
  unfold cascade
  split
  · exact rfl
  refine (placeInVc_withMem m v i x.arch).bind fun p q hpq => ?_
  subst hpq
  cases hreal : p.real with
  | true =>
    refine (placeInL2_withMem m p.victim p.arch).bind fun p q hpq => ?_
    subst hpq
    rfl
  | false => exact rfl

theorem finishFill_withMem (m : Memory) (addr : Addr) (lv : Level) (d : Word) (a : Arch) :
    ResultsAlike (ReadDone.SameBut m) (finishFill cfg addr lv d a) (finishFill cfg addr lv d (a.withMem m)) := by
  unfold finishFill fillAndCascade
  refine (cascade_withMem m _ _ _).bind fun x y hxy => ?_
  subst hxy
  rfl

theorem searchL2_withMem (h : l2First a (addrIndex addr) (addrTag addr) = none →
      m.read cfg.dataW addr.toNat = a.mem.read cfg.dataW addr.toNat) :
    ResultsAlike (ReadDone.SameBut m) (searchL2 cfg addr a) (searchL2 cfg addr (a.withMem m)) := by
  have hl2 : l2First (a.withMem m) (addrIndex addr) (addrTag addr) = l2First a (addrIndex addr) (addrTag addr) := rfl
  unfold searchL2
  rw [hl2]
  refine .bind_same fun st => ?_
  cases hit : l2First a (addrIndex addr) (addrTag addr) with
  | some w => exact finishFill_withMem m addr .l2 _ (a.setStat st)
  | none =>
    have hword : (a.withMem m).memRead cfg.dataW addr = a.memRead cfg.dataW addr := h hit
    simp only [hword]
    exact finishFill_withMem m addr .mem _ (a.setStat st)

theorem searchVC_withMem (h : vcFirst a (addrTag addr) (addrIndex addr) = none →
      l2First a (addrIndex addr) (addrTag addr) = none → m.read cfg.dataW addr.toNat = a.mem.read cfg.dataW addr.toNat) :
    ResultsAlike (ReadDone.SameBut m) (searchVC cfg addr a) (searchVC cfg addr (a.withMem m)) := by
  have hvc : vcFirst (a.withMem m) (addrTag addr) (addrIndex addr) = vcFirst a (addrTag addr) (addrIndex addr) := rfl
  unfold searchVC
  rw [hvc]
  refine .bind_same fun st => ?_
  cases hit : vcFirst a (addrTag addr) (addrIndex addr) with
  | some j =>
    refine (vcSwap_withMem m (addrIndex addr) j (a.setStat st)).bind fun b c hbc => ?_
    subst hbc
    rfl
  | none => exact searchL2_withMem (a := a.setStat st) (h hit)

theorem servedBy_of_miss (h1 : l1Match a (addrIndex addr) (addrTag addr) = false)
    (h2 : vcFirst a (addrTag addr) (addrIndex addr) = none) (h3 : l2First a (addrIndex addr) (addrTag addr) = none) :
    servedBy a addr = .mem := by
  rw [servedBy_of_l1Miss h1, h2, h3]
  rfl

/-- With another memory a READ does the same, if on a memory fallback the other memory agrees at its address. -/
theorem searchL1_withMem (h : servedBy a addr = .mem → m.read cfg.dataW addr.toNat = a.mem.read cfg.dataW addr.toNat) :
    ResultsAlike (ReadDone.SameBut m) (searchL1 cfg addr a) (searchL1 cfg addr (a.withMem m)) := by
  have hl1 : l1Match (a.withMem m) (addrIndex addr) (addrTag addr) = l1Match a (addrIndex addr) (addrTag addr) := rfl
  unfold searchL1
  rw [hl1]
  refine .bind_same fun st => ?_
  cases h1 : l1Match a (addrIndex addr) (addrTag addr) with
  | true => exact rfl
  | false =>
    exact searchVC_withMem (a := a.setStat st) fun h2 h3 => h (servedBy_of_miss h1 h2 h3)

end

/-- Settles O29: memory is read only by the L2 probe that misses, at the address of the request. -/
theorem readUsesOnlyItsOwnMemoryWord : Obligations.ReadUsesOnlyItsOwnMemoryWord := by
  intro addr s t m ht h
  have hsearch := searchL1_withMem h
  have hread : execRead addr s = .next t := ht
  rw [execRead_eq_outcomeOf, outcomeOf_eq_next] at hread
  obtain ⟨x, hx, hpure⟩ := bind_eq_ok.mp hread
  obtain rfl := pure_eq_ok.mp hpure
  rw [hx] at hsearch
  obtain ⟨y, hy, rfl⟩ := hsearch.exists_ok
  refine (execRead_eq_outcomeOf addr _).trans (outcomeOf_eq_next.mpr ?_)
  exact bind_eq_ok.mpr ⟨_, hy, rfl⟩

/-! ## A step between accesses -/

/-- Between accesses a step whose oldest request is an operation runs it on the state without that request. -/
theorem step_of_access {s : State} {i : Instr} (hidle : s.isIdle = true) (h : fetchEvent s = .access i) :
    step s = exec i s.popInput := by
  rw [step, if_pos hidle, stepIdle, h]

theorem fetchEvent_word {s : State} {w : Nat} {rest : List Input} (h : s.inbox = .word w :: rest) :
    fetchEvent s = eventOf (decodeNat s.cfg.dataW w) := by
  rw [fetchEvent, h]

theorem fetchEvent_trace {s : State} {t : TraceOp} {rest : List Input} (h : s.inbox = .trace t :: rest) :
    fetchEvent s = eventOf (decodeTrace s.cfg.dataW t) := by
  rw [fetchEvent, h]

theorem popInput_of_cons {s : State} {x : Input} {rest : List Input} (h : s.inbox = x :: rest) :
    s.popInput = { s with inbox := rest } := by
  rw [State.popInput, h, List.tail_cons]

theorem decodeTableWord_eq_some {nbits w : Nat} {i : Instr} :
    decodeTableWord nbits w = some i ↔ decodeNat 32 (w % 2 ^ nbits) = .ok i := by
  unfold decodeTableWord
  cases decodeNat 32 (w % 2 ^ nbits) <;> simp

theorem withFetchWord_of_isIdle {s : State} (h : s.isIdle = true) (nbits w : Nat) :
    s.withFetchWord nbits w = { s with inbox := .word (w % 2 ^ nbits) :: s.inbox } := by
  rw [State.withFetchWord, if_pos h]

/-- Settles O12: the request at the head of the queue is decoded and taken. -/
theorem stepRunsTheDecodedOperation : Obligations.StepRunsTheDecodedOperation := by
  refine ⟨fun s w rest i hidle hinbox hw hdec => ?_, fun s t rest i hidle hinbox hdec => ?_,
    fun s nbits w i hidle hdw hdec => ?_⟩
  · rw [step_of_access hidle, popInput_of_cons hinbox]
    rw [fetchEvent_word hinbox, eventOf_eq_access, decodeNat, if_pos hw, hdec]
  · rw [step_of_access hidle, popInput_of_cons hinbox]
    rw [fetchEvent_trace hinbox, eventOf_eq_access, hdec]
  · rw [withFetchWord_of_isIdle hidle]
    refine step_of_access (s := { s with inbox := .word (w % 2 ^ nbits) :: s.inbox }) hidle ?_
    rw [fetchEvent_word rfl, eventOf_eq_access, hdw, decodeTableWord_eq_some.mp hdec]

end Sys2Proof.Machine

/-! SUPPORT. Request words, trace tuples, addresses, VC tags and packed lines as numbers and fields (R70 to R81): what a packed word
decodes to, which tuples are refused and why, and that every field is recovered. -/

namespace Sys2Proof

/-! ## Words put together from fields -/

section

variable {u v w : Nat}

/-- The upper part of an append counts in multiples of the size of the lower one. -/
theorem toNat_append_eq_add (x : BitVec v) (y : BitVec w) : (x ++ y).toNat = x.toNat * 2 ^ w + y.toNat := by
  rw [BitVec.toNat_append, ← Nat.shiftLeft_add_eq_or_of_lt y.isLt, Nat.shiftLeft_eq]

/-- The middle one of three fields. -/
theorem extractLsb'_append_middle (x : BitVec u) (y : BitVec v) (z : BitVec w) : (x ++ y ++ z).extractLsb' w v = y := by
  rw [BitVec.extractLsb'_append_eq_of_le (Nat.le_refl w), Nat.sub_self, BitVec.extractLsb'_append_eq_right]

end

/-! ## Decoding a packed word (R71 to R73) -/

section

variable {dw : Nat} {w : ReqWord dw} {i : Instr} {e : DecodeError} {a : Addr} {d : Word}

theorem decode_packReq (b c : Bool) (a : Addr) (d : Word) :
    decode dw (packReq dw b c a d) = decodeFields b c a (d % 2 ^ dw) := by
  rw [decode, reqIsRead_packReq, reqIsWrite_packReq, reqAddr_packReq, reqData_packReq]

theorem decode_encode (h : i.wf dw = true) : decode dw (encode dw i) = .ok i := by
  cases i with
  | read a => exact decode_packReq true false a 0
  | write a d =>
    rw [encode, decode_packReq, mod_of_fits h]
    rfl

/-- Only equal flags are rejected, and only as reserved (R73). -/
theorem decode_eq_error : decode dw w = .error e ↔ e = .reservedOp ∧ reqIsRead w = reqIsWrite w := by
  rw [decode]
  cases reqIsRead w <;> cases reqIsWrite w <;> simp [decodeFields, eq_comm]

theorem decode_eq_read : decode dw w = .ok (.read a) ↔ ∃ d, w = packReq dw true false a d := by
  constructor
  · intro h
    rcases Machine.decodeFields_eq_ok.mp h with ⟨hr, hw, hi⟩ | ⟨-, -, hi⟩ <;> cases hi
    exact ⟨reqData w, by rw [← hr, ← hw, packReq_fields]⟩
  · rintro ⟨d, rfl⟩
    exact decode_packReq true false a d

theorem decode_eq_write : decode dw w = .ok (.write a d) ↔ d < 2 ^ dw ∧ w = packReq dw false true a d := by
  constructor
  · intro h
    rcases Machine.decodeFields_eq_ok.mp h with ⟨-, -, hi⟩ | ⟨hr, hw, hi⟩ <;> cases hi
    exact ⟨of_decide_eq_true (reqData_fits w), by rw [← hr, ← hw, packReq_fields]⟩
  · rintro ⟨hd, rfl⟩
    exact decode_encode (i := .write a d) (decide_eq_true hd)

theorem decode_eq_error_iff_packReq :
    decode dw w = .error e ↔ e = .reservedOp ∧ ∃ b a d, w = packReq dw b b a d := by
  rw [decode_eq_error]
  refine and_congr_right fun _ => ⟨fun h => ?_, ?_⟩
  · have hw := packReq_fields w
    rw [← h] at hw
    exact ⟨_, _, _, hw.symm⟩
  · rintro ⟨b, a, d, rfl⟩
    rw [reqIsRead_packReq, reqIsWrite_packReq]

theorem packReq_toNat (b c : Bool) (a : Addr) (hd : d < 2 ^ dw) : (packReq dw b c a d).toNat =
    b.toNat * 2 ^ (dw + 13) + c.toNat * 2 ^ (dw + 12) + a.toNat * 2 ^ dw + d := by
  rw [packReq, BitVec.toNat_cast, toNat_append_eq_add, toNat_append_eq_add, toNat_append_eq_add, BitVec.toNat_ofBool,
    BitVec.toNat_ofBool, BitVec.toNat_ofNat, Nat.mod_eq_of_lt hd]
  ring

end

/-- Settles O2: each field of the request word is recovered, and a data word that fits is kept whole. -/
theorem decodeOfEncodeIsTheOperation : Obligations.DecodeOfEncodeIsTheOperation :=
  fun _ _ h => decode_encode h

/-- Settles O4: a request word is its four fields, and the flags select the operation. -/
theorem decodedWordsAreExactlyThese : Obligations.DecodedWordsAreExactlyThese :=
  fun _ => ⟨fun _ _ => decode_eq_read, fun _ _ _ => decode_eq_write, fun _ _ => decode_eq_error_iff_packReq⟩

/-- Settles O5: an append is the upper part shifted by the width of the lower one. -/
theorem requestWordIsItsFieldsInPlace : Obligations.RequestWordIsItsFieldsInPlace :=
  fun _ b c a _ hd => packReq_toNat b c a hd

/-- Settles O1: the seven words, evaluated. -/
theorem sampleRequestWordsDecode : Obligations.SampleRequestWordsDecode := ⟨rfl, rfl, rfl, rfl, rfl, rfl, rfl⟩

/-! ## Two's complement (R76) -/

section

variable {dw : Nat}

theorem dataOfInt_intOfData {d : Word} (hd : d < 2 ^ dw) : dataOfInt dw (intOfData dw d) = d := by
  rw [dataOfInt, intOfData, BitVec.ofInt_toInt, BitVec.toNat_ofNat, Nat.mod_eq_of_lt hd]

theorem intOfData_dataOfInt {n : Int} (hdw : 0 < dw) (hlo : -(2 ^ (dw - 1)) ≤ n) (hhi : n < 2 ^ (dw - 1)) :
    intOfData dw (dataOfInt dw n) = n := by
  rw [intOfData, dataOfInt, BitVec.ofNat_toNat, BitVec.setWidth_eq, BitVec.toInt_ofInt_eq_self hdw hlo hhi]

theorem dataOfInt_eq_emod (dw : Nat) (n : Int) : (dataOfInt dw n : Int) = n % 2 ^ dw := by
  have hpos : (0 : Int) < 2 ^ dw := Int.pow_pos (by decide)
  rw [dataOfInt, BitVec.toNat_ofInt, Nat.cast_pow, Nat.cast_ofNat, Int.toNat_of_nonneg (Int.emod_nonneg n hpos.ne')]

end

/-! ## Trace tuples (R70, R75) -/

section

variable {dw : Nat} {t : TraceOp} {i : Instr}

theorem TraceOp.addressInRange_iff : t.addressInRange = true ↔ 0 ≤ t.address ∧ t.address ≤ 4095 := by
  rw [TraceOp.addressInRange, decide_eq_true_iff]
  omega

theorem TraceOp.dataInRange_iff :
    t.dataInRange dw = true ↔ -(2 ^ (dw - 1)) ≤ t.data ∧ t.data < 2 ^ (dw - 1) := decide_eq_true_iff

theorem TraceOp.toReq_of_inRange (ha : t.addressInRange = true) (hd : t.dataInRange dw = true) :
    t.toReq dw = .ok (packReq dw t.isRead t.isWrite (BitVec.ofInt 12 t.address) (dataOfInt dw t.data)) := by
  rw [TraceOp.toReq, if_pos ha, if_pos hd]

theorem TraceOp.toReq_of_address (ha : ¬t.addressInRange = true) : t.toReq dw = .error .addressOutOfRange := if_neg ha

theorem TraceOp.toReq_of_data (ha : t.addressInRange = true) (hd : ¬t.dataInRange dw = true) :
    t.toReq dw = .error .dataOutOfRange := by
  rw [TraceOp.toReq, if_pos ha, if_neg hd]

theorem decodeTrace_of_toReq_ok {w : ReqWord dw} (h : t.toReq dw = .ok w) : decodeTrace dw t = decode dw w := by
  rw [decodeTrace, h]

theorem decodeTrace_of_toReq_error {e : DecodeError} (h : t.toReq dw = .error e) : decodeTrace dw t = .error e := by
  rw [decodeTrace, h]

/-- A tuple in range with equal flags is packed, and its request word is a reserved one (R73). -/
theorem decodeTrace_of_equal_flags (ha : t.addressInRange = true) (hd : t.dataInRange dw = true)
    (hflags : t.isRead = t.isWrite) : decodeTrace dw t = .error .reservedOp := by
  rw [decodeTrace_of_toReq_ok (TraceOp.toReq_of_inRange ha hd), decode_eq_error, reqIsRead_packReq, reqIsWrite_packReq]
  exact ⟨rfl, hflags⟩

theorem ofInt_toNat_addr (a : Addr) : BitVec.ofInt 12 (Int.ofNat a.toNat) = a := by
  rw [Int.ofNat_eq_natCast, BitVec.ofInt_natCast, BitVec.ofNat_toNat, BitVec.setWidth_eq]

/-- The tuple of a well-formed operation is packed into the operation's own request word. -/
theorem toReq_toTrace (h : i.wf dw = true) : (i.toTrace dw).toReq dw = .ok (encode dw i) := by
  have hlegal : (i.toTrace dw).wf dw = true := by
    cases i with
    | read a => exact (Laws.Contract.read a dw h).1
    | write a d => exact (Laws.Contract.write a d dw h).1
  simp only [TraceOp.wf, Bool.and_eq_true] at hlegal
  obtain ⟨⟨-, haddr⟩, hdata⟩ := hlegal
  rw [TraceOp.toReq_of_inRange haddr hdata]
  cases i with
  | read a =>
    have hzero : dataOfInt dw 0 = 0 := by simp [dataOfInt]
    simp only [Instr.toTrace, TraceOp.rd, encode, ofInt_toNat_addr, hzero]
  | write a d =>
    simp only [Instr.toTrace, TraceOp.wr, encode, ofInt_toNat_addr, dataOfInt_intOfData (of_decide_eq_true h)]

end

/-- Settles O3: the tuple packs into the operation's request word; the conversions are those of `BitVec`. -/
theorem traceTupleOfAnOperationDecodesToIt : Obligations.TraceTupleOfAnOperationDecodesToIt := by
  intro dw hdw
  refine ⟨fun i hi => ?_, fun d hd => dataOfInt_intOfData hd, fun n hlo hhi => ?_⟩
  · rw [decodeTrace_of_toReq_ok (toReq_toTrace hi), decode_encode hi]
  · exact ⟨intOfData_dataOfInt hdw hlo hhi, dataOfInt_eq_emod dw n⟩

namespace Machine

/-! ## Addresses and VC tags (R74, R79) -/

theorem addrTag_toNat (a : Addr) : (addrTag a).toNat = a.toNat / 64 := by
  have ha := a.isLt
  rw [addrTag, BitVec.extractLsb'_toNat, Nat.shiftRight_eq_div_pow]
  omega

theorem addrIndex_toNat (a : Addr) : (addrIndex a).toNat = a.toNat / 4 % 16 := by
  rw [addrIndex, BitVec.extractLsb'_toNat, Nat.shiftRight_eq_div_pow]

theorem addrOffset_toNat (a : Addr) : (addrOffset a).toNat = a.toNat % 4 := by
  rw [addrOffset, BitVec.extractLsb'_toNat, Nat.shiftRight_zero]

theorem addrOf_toNat (t : Tag) (i : Index) (o : Offset) :
    (addrOf t i o).toNat = (t.toNat * 16 + i.toNat) * 4 + o.toNat := by
  rw [addrOf, BitVec.toNat_cast, toNat_append_eq_add, toNat_append_eq_add]
  rfl

theorem addrOf_fields (a : Addr) : addrOf (addrTag a) (addrIndex a) (addrOffset a) = a := by
  apply BitVec.eq_of_toNat_eq
  rw [addrOf_toNat, addrTag_toNat, addrIndex_toNat, addrOffset_toNat]
  omega

theorem vcKey_toNat (t : Tag) (i : Index) : (vcKey t i).toNat = t.toNat * 16 + i.toNat := by
  rw [vcKey, BitVec.toNat_cast]
  exact toNat_append_eq_add t i

/-- Settles O6: the fields as quotients and remainders, of which the address is put together again. -/
theorem addressFieldsAreTheShiftsAndMasks : Obligations.AddressFieldsAreTheShiftsAndMasks :=
  fun a => ⟨addrTag_toNat a, addrIndex_toNat a, addrOffset_toNat a, addrOf_fields a⟩

/-- Settles O7: the VC tag as a number, and its two parts. -/
theorem vcTagRoundTrip : Obligations.VcTagRoundTrip :=
  ⟨fun t i => ⟨vcKey_toNat t i, vcTagTag_vcKey t i, vcTagIndex_vcKey t i⟩, vcKey_parts⟩

/-! ## Packed lines (R77, R78) -/

theorem unpackL1_packL1 {dw : Nat} {l : L1Line} (hd : l.data < 2 ^ dw) : unpackL1 dw (packL1 dw l) = l := by
  have hvalid : (packL1 dw l).getLsbD (6 + dw) = l.valid := by
    simp only [packL1, BitVec.getLsbD_cast, BitVec.getLsbD_append]
    simp
  have htag : (packL1 dw l).extractLsb' dw 6 = l.tag := by
    rw [packL1, BitVec.extractLsb'_cast, extractLsb'_append_middle]
  have hdata : ((packL1 dw l).extractLsb' 0 dw).toNat = l.data := by
    rw [packL1, BitVec.extractLsb'_cast, BitVec.extractLsb'_append_eq_right, BitVec.toNat_ofNat, Nat.mod_eq_of_lt hd]
  rw [unpackL1, hvalid, htag, hdata]

theorem unpackAged_packAged {w dw r : Nat} {l : AgedLine w} (hd : l.data < 2 ^ dw) (hr : l.recency < 2 ^ r) :
    unpackAged dw r (packAged dw r l) = l := by
  have hvalid : (packAged dw r l).getLsbD (r + w + dw) = l.valid := by
    simp only [packAged, BitVec.getLsbD_append]
    simp
  have hrecency : ((packAged dw r l).extractLsb' (w + dw) r).toNat = l.recency := by
    rw [packAged, BitVec.extractLsb'_append_eq_of_le (Nat.le_add_left dw w), Nat.add_sub_cancel, extractLsb'_append_middle,
      BitVec.toNat_ofNat, Nat.mod_eq_of_lt hr]
  have htag : (packAged dw r l).extractLsb' dw w = l.tag := by
    rw [packAged, extractLsb'_append_middle]
  have hdata : ((packAged dw r l).extractLsb' 0 dw).toNat = l.data := by
    rw [packAged, BitVec.extractLsb'_append_eq_right, BitVec.toNat_ofNat, Nat.mod_eq_of_lt hd]
  rw [unpackAged, hvalid, hrecency, htag, hdata]

/-- Settles O8: a VC line and an L2 line are packed alike, at their tag widths. -/
theorem linePackingsRoundTrip : Obligations.LinePackingsRoundTrip :=
  ⟨fun _ _ hd => unpackL1_packL1 hd, fun _ _ _ hd hr => unpackAged_packAged hd hr,
    fun _ _ _ hd hr => unpackAged_packAged hd hr⟩

/-! ## What a step refuses (R73, R75, R76) -/

section

variable {s : State} {e : DecodeError}

theorem step_of_refuse {r : Refusal} (hidle : s.isIdle = true) (h : fetchEvent s = .refuse r) : step s = .refused r := by
  rw [step, if_pos hidle, stepIdle, h]

theorem step_word_refused {w : Nat} {rest : List Input} (hidle : s.isIdle = true) (hinbox : s.inbox = .word w :: rest)
    (h : decodeNat s.cfg.dataW w = .error e) : step s = .refused (refusalOf e) :=
  step_of_refuse hidle (by rw [fetchEvent_word hinbox, h]; rfl)

theorem step_trace_refused {t : TraceOp} {rest : List Input} (hidle : s.isIdle = true) (hinbox : s.inbox = .trace t :: rest)
    (h : decodeTrace s.cfg.dataW t = .error e) : step s = .refused (refusalOf e) :=
  step_of_refuse hidle (by rw [fetchEvent_trace hinbox, h]; rfl)

theorem decodeNat_of_equal_flags {dw w : Nat} (hw : w < 2 ^ (14 + dw)) (hflags : w.testBit (13 + dw) = w.testBit (12 + dw)) :
    decodeNat dw w = .error .reservedOp := by
  rw [decodeNat, if_pos hw, decode_eq_error]
  refine ⟨rfl, ?_⟩
  simp only [reqIsRead, reqIsWrite, BitVec.getLsbD_ofNat, hflags]
  simp

theorem decodeNat_of_too_wide {dw w : Nat} (hw : 2 ^ (14 + dw) ≤ w) : decodeNat dw w = .error .notARequestWord :=
  if_neg (Nat.not_lt.mpr hw)

end

/-- Settles O13: the decoder names the reason, and the step hands it on. -/
theorem stepRefusesWhatIsNoOperation : Obligations.StepRefusesWhatIsNoOperation := by
  refine ⟨fun s w rest hidle hinbox hw hflags => ?_, fun s w rest hidle hinbox hw => ?_, fun s t rest hidle hinbox => ?_⟩
  · exact step_word_refused hidle hinbox (decodeNat_of_equal_flags hw hflags)
  · exact step_word_refused hidle hinbox (decodeNat_of_too_wide hw)
  refine ⟨fun haddr => ?_, fun ⟨hlo, hhi, hdata⟩ => ?_, fun ⟨hlo, hhi, hdlo, hdhi, hflags⟩ => ?_⟩
  · have ha : ¬t.addressInRange = true := by rw [TraceOp.addressInRange_iff]; omega
    exact step_trace_refused hidle hinbox (decodeTrace_of_toReq_error (TraceOp.toReq_of_address ha))
  · have ha := TraceOp.addressInRange_iff.mpr ⟨hlo, hhi⟩
    have hd : ¬t.dataInRange s.cfg.dataW = true := by rw [TraceOp.dataInRange_iff]; omega
    exact step_trace_refused hidle hinbox (decodeTrace_of_toReq_error (TraceOp.toReq_of_data ha hd))
  · have ha := TraceOp.addressInRange_iff.mpr ⟨hlo, hhi⟩
    have hd := TraceOp.dataInRange_iff.mpr ⟨hdlo, hdhi⟩
    exact step_trace_refused hidle hinbox (decodeTrace_of_equal_flags ha hd hflags)

end Machine

end Sys2Proof

/-! SUPPORT. The outcome record of an access (R86, R148, R169) and the debug port that shows it (D7). -/

namespace Sys2Proof.Machine

/-! ## The record of a WRITE (R169) -/

theorem firstMatch_isSome {w n : Nat} (set : Vector (AgedLine w) n) (key : BitVec w) :
    (firstMatch set key).isSome = decide (∃ k : Fin n, set[k].valid = true ∧ set[k].tag = key) := by
  rw [Bool.eq_iff_iff, decide_eq_true_iff, Option.isSome_iff_ne_none, ne_eq, firstMatch_eq_none, not_forall_not]

/-- Settles O34: the record's flags are the tag matcher's answers in each level. -/
theorem writeResponseCarriesNoWord : Obligations.WriteResponseCarriesNoWord := by
  intro addr d s
  refine ⟨_, _, rfl, rfl, rfl, fun hport => ?_, fun hport => ?_⟩
  · rw [mkResponse_outcome, hport, if_neg Bool.false_ne_true]
  · rw [mkResponse_outcome, hport, if_pos rfl, writeRecord, vcFirst, l2First, firstMatch_isSome, firstMatch_isSome]
    rfl

/-! ## The record of a READ (R148) -/

/-- What the record `r` says of a READ of `addr` that leads from `a` to `b` (R86, R148). -/
structure OutcomeRecord.Tells (cfg : Config) (addr : Addr) (a b : Arch) (r : OutcomeRecord) : Prop where
  level     : r.level = servedBy a addr
  noWrite   : r.wrL1 = false ∧ r.wrVC = false ∧ r.wrL2 = false
  untouched : r.vcTouched = false → b.vc = a.vc ∧ r = { OutcomeRecord.blank with level := servedBy a addr }
  touched   : r.vcTouched = true →
    (b.vc[r.vcSlot]).toLine = toVc cfg.policy (a.l1At (addrIndex addr)) (addrIndex addr)
  kept      : r.vcEvict = false → b.l2 = a.l2 ∧ r.l2Set = 0 ∧ r.l2Way = 0 ∧ r.l2Evict = false
  evicted   : r.vcEvict = true → r.vcTouched = true ∧ (a.vc[r.vcSlot]).valid = true ∧
    r.l2Set = vcTagIndex (a.vc[r.vcSlot]).tag ∧
    ((b.l2At r.l2Set)[r.l2Way]).toLine = fromVc (a.vc[r.vcSlot]).toLine ∧
    r.l2Evict = ((a.l2At r.l2Set)[r.l2Way]).valid

section

variable {cfg : Config} {addr : Addr} {a : Arch} {lv : Level} {d : Word}

theorem placedIn_same_toLine {w n : Nat} (set : Vector (AgedLine w) n) (slot : Fin n) (line : Line w) :
    ((placedIn set slot line)[slot]).toLine = line := by
  rw [placedIn_same]

theorem setL2At_placedIn_toLine (b : Arch) (k : Index) (set : L2Set) (way : Fin 8) (line : Line 6) :
    (((b.setL2At k (placedIn set way line)).l2At k)[way]).toLine = line := by
  rw [Arch.setL2At_l2At_same, placedIn_same_toLine]

theorem FillSource.servedBy_eq (h : FillSource cfg a addr lv d) (h1 : l1Match a (addrIndex addr) (addrTag addr) = false)
    (h2 : vcFirst a (addrTag addr) (addrIndex addr) = none) : servedBy a addr = lv := by
  rcases h with ⟨w, rfl, h3, -⟩ | ⟨rfl, h3, -⟩
  · rw [servedBy_of_l1Miss h1, h2, h3]
    rfl
  · exact servedBy_of_miss h1 h2 h3

/-- The cascade of a fill writes down the slot it uses, and the way if it displaces a valid line. -/
theorem CascadeCase.tells {st : Stats} {y : Traced} (hlv : servedBy a addr = lv)
    (hy : CascadeCase cfg (a.l1At (addrIndex addr)) (addrIndex addr)
      { arch := fillL1 (addrTag addr) (addrIndex addr) d (a.setStat st)
        record := { OutcomeRecord.blank with level := lv } } y) : y.record.Tells cfg addr a y.arch := by
  subst hlv
  cases hy with
  | skipped =>
    exact {
      level := rfl
      noWrite := ⟨rfl, rfl, rfl⟩
      untouched := fun _ => ⟨rfl, rfl⟩
      touched := nofun
      kept := fun _ => ⟨rfl, rfl, rfl, rfl⟩
      evicted := nofun }
  | free k =>
    exact {
      level := rfl
      noWrite := ⟨rfl, rfl, rfl⟩
      untouched := nofun
      touched := fun _ => placedIn_same_toLine _ k _
      kept := fun _ => ⟨rfl, rfl, rfl, rfl⟩
      evicted := nofun }
  | evict j w real _ hfull _ hway =>
    have hreal : real = ((a.l2At (vcTagIndex a.vc[j].tag))[w]).valid := by
      rcases hway with ⟨⟨hfree, -⟩, rfl⟩ | ⟨hset, -, rfl⟩
      · exact hfree.symm
      · exact (hset w).symm
    exact {
      level := rfl
      noWrite := ⟨rfl, rfl, rfl⟩
      untouched := nofun
      touched := fun _ => placedIn_same_toLine _ j _
      kept := nofun
      evicted := fun _ => ⟨rfl, hfull j, rfl, setL2At_placedIn_toLine _ _ _ w _, hreal⟩ }

theorem ReadCase.tells {x : ReadDone} (hx : ReadCase cfg addr a x) : x.record.Tells cfg addr a x.arch := by
  cases hx with
  | l1Hit h1 =>
    have hlv := servedBy_of_l1Hit h1
    exact {
      level := hlv.symm
      noWrite := ⟨rfl, rfl, rfl⟩
      untouched := fun _ => ⟨rfl, by rw [hlv]; rfl⟩
      touched := nofun
      kept := fun _ => ⟨rfl, rfl, rfl, rfl⟩
      evicted := nofun }
  | vcHit j h1 h2 =>
    exact {
      level := (servedBy_of_vcHit h1 h2).symm
      noWrite := ⟨rfl, rfl, rfl⟩
      untouched := nofun
      touched := fun _ => placedIn_same_toLine _ j _
      kept := fun _ => ⟨rfl, rfl, rfl, rfl⟩
      evicted := nofun }
  | fill lv d y h1 h2 hsrc hy => exact hy.tells (hsrc.servedBy_eq h1 h2)

end

/-- Settles O28: case by case of a READ, the record names what the case moves. -/
theorem readOutcomeRecordSaysWhatMoved : Obligations.ReadOutcomeRecordSaysWhatMoved := by
  intro addr s t ht hport
  obtain ⟨x, rfl, hx⟩ := execRead_next ht
  have hshown : (mkResponse s.cfg (some x.word) x.record).outcome = some x.record := by
    rw [mkResponse_outcome, hport, if_pos rfl]
  obtain ⟨hlevel, ⟨hl1, hvc, hl2⟩, huntouched, htouched, hkept, hevicted⟩ := hx.tells
  exact ⟨x.record, hshown, hlevel, hl1, hvc, hl2, huntouched, htouched, hkept, hevicted⟩

/-! ## The debug port (D7) -/

/-- The same machine with the debug port set to `b`. -/
def State.withDebugPort (b : Bool) (s : State) : State := { s with cfg := { s.cfg with debugPort := b } }

/-- No operation of a READ reads the parameter. -/
theorem searchL1_debugPort (cfg : Config) (b : Bool) (addr : Addr) (a : Arch) :
    searchL1 { cfg with debugPort := b } addr a = searchL1 cfg addr a := rfl

/-- An access ends in the same architectural state and word whatever the debug port; only the response's record differs. -/
theorem exec_withDebugPort {i : Instr} {s t : State} (h : exec i s = .next t) (b : Bool) :
    ∃ a d r, t = s.complete a d r ∧ exec i (s.withDebugPort b) = .next ((s.withDebugPort b).complete a d r) := by
  cases i with
  | read addr =>
    have hread : execRead addr s = .next t := h
    unfold execRead at hread
    cases hx : searchL1 s.cfg addr s.arch <;> rw [hx] at hread <;> cases hread
    next x =>
      refine ⟨x.arch, some x.word, x.record, rfl, ?_⟩
      have hx' : searchL1 (s.withDebugPort b).cfg addr (s.withDebugPort b).arch = .ok x :=
        (searchL1_debugPort s.cfg b addr s.arch).trans hx
      exact (execRead_eq_outcomeOf addr _).trans (by rw [hx']; rfl)
  | write addr d => exact ⟨_, _, _, execWrite_next h, rfl⟩

/-- Settles O47: the debug port is read only where the response is made. -/
theorem debugPortFeedsNothingBack : Obligations.DebugPortFeedsNothingBack := by
  intro i s t b ht
  obtain ⟨a, d, r, rfl, hexec⟩ := exec_withDebugPort ht b
  refine ⟨_, hexec, rfl, rfl, ?_⟩
  have hshown : (((s.withDebugPort b).complete a d r).resp.bind Response.outcome) = if b then some r else none := rfl
  rw [hshown]
  cases b <;> rfl

end Sys2Proof.Machine

/-! SUPPORT. Lookup and replacement (R100 to R119): what the cascade of a READ leaves in VC and L2 when there is room below
the bounds. -/

namespace Sys2Proof.Machine

/-! ## The cascade of a READ that has room (R104 to R109) -/

section

variable {cfg : Config} {addr : Addr} {a : Arch} {s : State}

theorem validInVc_eq (pol : InvalidVictimPolicy) (valid : Bool) :
    validInVc pol valid = if pol = .forceValid then true else valid := by
  cases pol <;> rfl

/-- `toVc` with the valid flag the policy gives written out (R107, R110). -/
theorem toVc_eq (pol : InvalidVictimPolicy) (l : L1Line) (i : Index) :
    toVc pol l i = { tag := vcKey l.tag i, data := l.data, valid := if pol = .forceValid then true else l.valid } := by
  rw [toVc, validInVc_eq]

theorem vcFirst_eq_none {t : Tag} {i : Index} :
    vcFirst a t i = none ↔ ∀ k : Fin 4, ¬(a.vc[k].valid = true ∧ a.vc[k].tag = vcKey t i) :=
  firstMatch_eq_none

theorem l1Match_of_invalid {i : Index} (t : Tag) (h : (a.l1At i).valid = false) : l1Match a i t = false :=
  l1Match_eq_false.mpr fun hmatch => Bool.false_ne_true (h.symm.trans hmatch.1)

/-- With room a READ completes, in one of its cases. -/
theorem State.Headroom.exec_read (h : s.Headroom) (addr : Addr) :
    ∃ x, exec (.read addr) s = .next (s.complete x.arch (some x.word) x.record) ∧ ReadCase s.cfg addr s.arch x := by
  rcases execRead_cases addr s with hx | ⟨r, -, hstop⟩
  · exact hx
  · exact absurd hstop (Headroom.not_stops h r)

/-- What a fill with the word `d`, found at level `lv`, hands to its cascade. -/
def filled (addr : Addr) (a : Arch) (lv : Level) (d : Word) : Traced :=
  { arch := fillL1 (addrTag addr) (addrIndex addr) d (a.setStat (a.stat.afterRead lv))
    record := { OutcomeRecord.blank with level := lv } }

/-- With room a READ that misses L1 and VC completes, and leaves what a cascade of the former `L1[index]` leaves. -/
theorem State.Headroom.exec_read_fill (h : s.Headroom) (h1 : l1Match s.arch (addrIndex addr) (addrTag addr) = false)
    (h2 : vcFirst s.arch (addrTag addr) (addrIndex addr) = none) :
    ∃ t lv d y, exec (.read addr) s = .next t ∧ t.arch = y.arch ∧
      CascadeCase s.cfg (s.arch.l1At (addrIndex addr)) (addrIndex addr) (filled addr s.arch lv d) y := by
  obtain ⟨x, hexec, hx⟩ := h.exec_read addr
  obtain ⟨lv, d, hy⟩ := hx.cascadeCase_of_fill (servedBy_of_vcMiss h1 h2)
  exact ⟨_, lv, d, _, hexec, rfl, hy⟩

/-- The way a placement goes to, however `select_slot` comes to choose it (R104). -/
theorem selectSlot_fst_eq {w n : Nat} {set : Vector (AgedLine w) (n + 1)} {k : Fin (n + 1)}
    (h : IsFirstFree set k ∨ IsFull set ∧ IsOldest set k) : (selectSlot set).1 = k := by
  rcases h with hfree | ⟨hfull, hold⟩
  · rw [selectSlot_of_firstFree hfree]
  · rw [selectSlot_of_full hfull hold]

/-- With VC full, the line of its oldest slot goes, re-tagged, into the set its tag names, into the first invalid way or over the
oldest one. -/
theorem CascadeCase.l2_eq_of_full {v : L1Line} {i : Index} {x y : Traced} (h : CascadeCase cfg v i x y)
    (hmove : ¬(cfg.policy = .skip ∧ v.valid = false)) (hfull : IsFull x.arch.vc) {j : Fin 4} (hold : IsOldest x.arch.vc j)
    {w : Fin 8} (hway : IsFirstFree (x.arch.l2At (vcTagIndex x.arch.vc[j].tag)) w ∨
      IsFull (x.arch.l2At (vcTagIndex x.arch.vc[j].tag)) ∧ IsOldest (x.arch.l2At (vcTagIndex x.arch.vc[j].tag)) w) :
    y.arch.l2 = x.arch.l2.set (vcTagIndex x.arch.vc[j].tag).toFin
      (placedIn (x.arch.l2At (vcTagIndex x.arch.vc[j].tag)) w
        { tag := vcTagTag x.arch.vc[j].tag, data := x.arch.vc[j].data, valid := true }) := by
  cases h with
  | skipped hskip => exact absurd hskip hmove
  | free k _ hfree => exact absurd hfull hfree.not_full
  | evict j' w' real _ _ hold' hway' =>
    obtain rfl : j' = j := hold'.unique hold
    obtain rfl : w' = w := (selectSlot_fst_eq (hway'.imp And.left fun h => ⟨h.1, h.2.1⟩)).symm.trans (selectSlot_fst_eq hway)
    have hline : fromVc x.arch.vc[j'].toLine =
        { tag := vcTagTag x.arch.vc[j'].tag, data := x.arch.vc[j'].data, valid := true } := by rw [fromVc, hfull j']
    rw [← hline]
    rfl

end

/-- Settles O19: the free slot is the one the cascade places into, and then nothing is displaced. -/
theorem cascadeFillsTheFirstFreeVcSlot : Obligations.CascadeFillsTheFirstFreeVcSlot := by
  intro addr s k hroom i old hl1 hvc hmove hfree
  obtain ⟨t, lv, d, y, hexec, harch, hy⟩ := hroom.exec_read_fill (l1Match_eq_false.mpr hl1) (vcFirst_eq_none.mpr hvc)
  have hsel : selectSlot (n := 3) (filled addr s.arch lv d).arch.vc = (k, false) := selectSlot_of_firstFree hfree
  refine ⟨t, hexec, ?_, ?_⟩ <;> rw [harch]
  · rw [hy.vc_eq_of_move hmove, hsel, toVc_eq]
    rfl
  · exact hy.l2_eq_of_free (by rw [hsel])

/-- Settles O20: the cascade displaces the oldest VC line, and its way is chosen by the same rule as the slot. -/
theorem cascadeMovesTheOldestVcLineToL2 : Obligations.CascadeMovesTheOldestVcLineToL2 := by
  intro addr s j w hroom i old out set hl1 hvc hmove hfull hold hway
  obtain ⟨t, lv, d, y, hexec, harch, hy⟩ := hroom.exec_read_fill (l1Match_eq_false.mpr hl1) (vcFirst_eq_none.mpr hvc)
  have hsel : selectSlot (n := 3) (filled addr s.arch lv d).arch.vc = (j, true) := selectSlot_of_full hfull hold
  refine ⟨t, hexec, ?_, ?_⟩ <;> rw [harch]
  · rw [hy.vc_eq_of_move hmove, hsel, toVc_eq]
    rfl
  · exact hy.l2_eq_of_full hmove hfull hold hway

/-- Settles O21: under `skip` the cascade of an invalid line is over at once. -/
theorem skipPolicyMovesNoInvalidLine : Obligations.SkipPolicyMovesNoInvalidLine := by
  intro addr s hroom i hskip hinvalid hvc
  obtain ⟨t, lv, d, y, hexec, harch, hy⟩ :=
    hroom.exec_read_fill (l1Match_of_invalid (addrTag addr) hinvalid) (vcFirst_eq_none.mpr hvc)
  obtain ⟨hvcKept, hl2Kept⟩ := hy.vc_l2_eq_of_skip ⟨hskip, hinvalid⟩
  exact ⟨t, hexec, by rw [harch, hvcKept]; rfl, by rw [harch, hl2Kept]; rfl⟩

end Sys2Proof.Machine

/-! SUPPORT. Which increments of a READ are refused (R117, R174): a counter of a level searched stops it before anything is placed,
and then a placement that would age a line past a finite width. -/

namespace Sys2Proof.Machine

/-! ## A counter past its bound (R174) -/

section

variable {cfg : Config} {addr : Addr} {a : Arch} {hit : Bool}

theorem countOne_of_full {n : Nat} (h : fitsWidth cfg.statW (n + 1) = false) : countOne cfg n = .error .statOverflow := by
  rw [countOne, h, if_neg Bool.false_ne_true]

/-- The converse of `countPair_eq_error`. -/
theorem countPair_of_full {acc miss : Nat} {g : Nat → Nat → Stats}
    (h : fitsWidth cfg.statW (acc + 1) = false ∨ hit = false ∧ fitsWidth cfg.statW (miss + 1) = false) :
    (do let x ← countOne cfg acc; let y ← countMiss cfg hit miss; return g x y) = Except.error Refusal.statOverflow := by
  rcases countOne_cases cfg acc with ⟨hfit, hacc⟩ | ⟨-, -, hacc⟩
  · obtain ⟨rfl, hmiss⟩ := h.resolve_left fun hfull => Bool.false_ne_true (hfull.symm.trans hfit)
    exact bind_eq_error.mpr (.inr ⟨_, hacc, bind_eq_error.mpr (.inl (countOne_of_full hmiss))⟩)
  · exact bind_eq_error.mpr (.inl hacc)

theorem searchL2_of_full (h : L2ProbeFull cfg addr a) : searchL2 cfg addr a = .error .statOverflow :=
  bind_eq_error.mpr (.inl (countPair_of_full (h.imp_right fun ⟨hmiss, hfull⟩ => ⟨by rw [hmiss]; rfl, hfull⟩)))

theorem searchVC_of_full (h : VcProbeFull cfg addr a) : searchVC cfg addr a = .error .statOverflow := by
  rcases h with hacc | ⟨hmiss, hfull | hl2⟩
  · exact bind_eq_error.mpr (.inl (countPair_of_full (.inl hacc)))
  · exact bind_eq_error.mpr (.inl (countPair_of_full (.inr ⟨by rw [hmiss]; rfl, hfull⟩)))
  · rcases probeVC_cases cfg (vcFirst a (addrTag addr) (addrIndex addr)).isSome a.stat with hp | ⟨-, -, hp⟩
    · have hnext : searchL2 cfg addr (a.setStat (a.stat.withVC (vcFirst a (addrTag addr) (addrIndex addr)).isSome)) =
          .error .statOverflow := searchL2_of_full hl2
      exact bind_eq_error.mpr (.inr ⟨_, hp, by rw [hmiss] at hnext ⊢; exact hnext⟩)
    · exact bind_eq_error.mpr (.inl hp)

theorem searchL1_of_full (h : L1ProbeFull cfg addr a) : searchL1 cfg addr a = .error .statOverflow := by
  rcases h with hacc | ⟨hmiss, hfull | hvc⟩
  · exact bind_eq_error.mpr (.inl (countPair_of_full (.inl hacc)))
  · exact bind_eq_error.mpr (.inl (countPair_of_full (.inr ⟨hmiss, hfull⟩)))
  · rcases probeL1_cases cfg (l1Match a (addrIndex addr) (addrTag addr)) a.stat with hp | ⟨-, -, hp⟩
    · have hnext : searchVC cfg addr (a.setStat (a.stat.withL1 (l1Match a (addrIndex addr) (addrTag addr)))) =
          .error .statOverflow := searchVC_of_full hvc
      exact bind_eq_error.mpr (.inr ⟨_, hp, by rw [hmiss] at hnext ⊢; exact hnext⟩)
    · exact bind_eq_error.mpr (.inl hp)

/-- A counter of a level searched is looked at by the probe of that level (R145). -/
theorem L1ProbeFull.of_countedBy {n : Nat} (hn : n ∈ a.stat.countedBy (servedBy a addr))
    (hfull : fitsWidth cfg.statW (n + 1) = false) : L1ProbeFull cfg addr a := by
  cases h1 : l1Match a (addrIndex addr) (addrTag addr) with
  | true =>
    rw [servedBy_of_l1Hit h1, Stats.countedBy, List.mem_singleton] at hn
    exact .inl (hn ▸ hfull)
  | false =>
    rw [servedBy_of_l1Miss h1] at hn
    cases h2 : vcFirst a (addrTag addr) (addrIndex addr) with
    | some j =>
      simp only [h2, Option.isSome_some, if_true, Stats.countedBy, List.mem_cons, List.not_mem_nil, or_false] at hn
      rcases hn with rfl | rfl | rfl <;> simp [L1ProbeFull, VcProbeFull, h1, hfull]
    | none =>
      cases h3 : l2First a (addrIndex addr) (addrTag addr) with
      | some w =>
        simp only [h2, h3, Option.isSome_some, Option.isSome_none, if_true, if_neg Bool.false_ne_true, Stats.countedBy,
          List.mem_cons, List.not_mem_nil, or_false] at hn
        rcases hn with rfl | rfl | rfl | rfl | rfl <;> simp [L1ProbeFull, VcProbeFull, L2ProbeFull, h1, h2, hfull]
      | none =>
        simp only [h2, h3, Option.isSome_none, if_neg Bool.false_ne_true, Stats.countedBy,
          List.mem_cons, List.not_mem_nil, or_false] at hn
        rcases hn with rfl | rfl | rfl | rfl | rfl | rfl <;> simp [L1ProbeFull, VcProbeFull, L2ProbeFull, h1, h2, h3, hfull]

end

/-! ## A recency past its bound (R117) -/

section

variable {cfg : Config} {addr : Addr} {a : Arch} {x : ReadDone} {s : State}

/-- A placement that went through aged no line past the width. -/
theorem fits_of_place_ok {w n : Nat} {set v : Vector (AgedLine w) n} {slot k : Fin n} {line : Line w}
    (h : place cfg set slot line = .ok v) (hk : AgedByPlacement set slot line.valid k) :
    fitsWidth cfg.recencyW (set[k].recency + 1) = true := by
  rcases place_cases cfg set slot line with ⟨hroom, -⟩ | ⟨-, -, hp⟩
  · by_contra hfull
    exact not_canAge_writtenSet hk (Bool.eq_false_of_not_eq_true hfull) hroom
  · rw [hp] at h
    cases h

theorem searchVC_of_searchL1_ok (h : searchL1 cfg addr a = .ok x)
    (h1 : l1Match a (addrIndex addr) (addrTag addr) = false) : ∃ st, searchVC cfg addr (a.setStat st) = .ok x := by
  obtain ⟨st, -, h⟩ := bind_eq_ok.mp h
  rw [h1, if_neg Bool.false_ne_true] at h
  exact ⟨st, h⟩

theorem searchL2_of_searchVC_ok (h : searchVC cfg addr a = .ok x)
    (h2 : vcFirst a (addrTag addr) (addrIndex addr) = none) : ∃ st, searchL2 cfg addr (a.setStat st) = .ok x := by
  obtain ⟨st, -, h⟩ := bind_eq_ok.mp h
  rw [h2] at h
  exact ⟨st, h⟩

/-- A VC hit that completes has placed the former `L1[index]` into the slot that hit (R134). -/
theorem place_of_searchVC_ok (h : searchVC cfg addr a = .ok x) {j : Fin 4}
    (h2 : vcFirst a (addrTag addr) (addrIndex addr) = some j) :
    ∃ v, place cfg a.vc j (toVc cfg.policy (a.l1At (addrIndex addr)) (addrIndex addr)) = .ok v := by
  obtain ⟨st, -, h⟩ := bind_eq_ok.mp h
  rw [h2] at h
  obtain ⟨b, hswap, -⟩ := bind_eq_ok.mp h
  obtain ⟨v, hv, -⟩ := bind_eq_ok.mp hswap
  exact ⟨v, hv⟩

/-- A fill that completes has run its cascade (R137). -/
theorem cascade_of_searchL2_ok (h : searchL2 cfg addr a = .ok x) :
    ∃ y z, cascade cfg (a.l1At (addrIndex addr)) (addrIndex addr) y = .ok z ∧ y.arch.vc = a.vc ∧ y.arch.l2At = a.l2At := by
  obtain ⟨_, -, h⟩ := bind_eq_ok.mp h
  split at h <;> obtain ⟨z, hz, -⟩ := bind_eq_ok.mp h <;> exact ⟨_, z, hz, rfl, rfl⟩

/-- A cascade that goes through has made its placements: of the line leaving L1, and of the oldest line of a full VC (R109). -/
theorem places_of_cascade_ok {v : L1Line} {i : Index} {y z : Traced} (h : cascade cfg v i y = .ok z)
    (hmove : ¬(cfg.policy = .skip ∧ v.valid = false)) :
    (∃ vc, place cfg y.arch.vc (selectSlot (n := 3) y.arch.vc).1 (toVc cfg.policy v i) = .ok vc) ∧
    ∀ j : Fin 4, IsFull y.arch.vc → IsOldest y.arch.vc j →
      ∃ set, place cfg (y.arch.l2At (vcTagIndex y.arch.vc[j].tag))
        (selectSlot (n := 7) (y.arch.l2At (vcTagIndex y.arch.vc[j].tag))).1 (fromVc y.arch.vc[j].toLine) = .ok set := by
  rw [cascade, if_neg hmove] at h
  obtain ⟨p, hp, h⟩ := bind_eq_ok.mp h
  obtain ⟨vc, hvc, hp⟩ := bind_eq_ok.mp hp
  obtain rfl := pure_eq_ok.mp hp
  refine ⟨⟨vc, hvc⟩, fun j hfull hold => ?_⟩
  have hsel : selectSlot (n := 3) y.arch.vc = (j, true) := selectSlot_of_full hfull hold
  simp only [hsel, if_true] at h
  obtain ⟨q, hq, -⟩ := bind_eq_ok.mp h
  obtain ⟨set, hset, -⟩ := bind_eq_ok.mp hq
  exact ⟨set, hset⟩

theorem l1Miss_of_servedBy (h : servedBy a addr ≠ .l1) : l1Match a (addrIndex addr) (addrTag addr) = false :=
  Bool.eq_false_of_not_eq_true (mt servedBy_of_l1Hit h)

theorem vcMiss_of_servedBy (h : servedBy a addr = .l2 ∨ servedBy a addr = .mem) :
    l1Match a (addrIndex addr) (addrTag addr) = false ∧ vcFirst a (addrTag addr) (addrIndex addr) = none := by
  have h1 : l1Match a (addrIndex addr) (addrTag addr) = false := l1Miss_of_servedBy (by rcases h with h | h <;> rw [h] <;> nofun)
  refine ⟨h1, Option.eq_none_iff_forall_ne_some.mpr fun j h2 => ?_⟩
  rcases h with h | h <;> rw [servedBy_of_vcHit h1 h2] at h <;> cases h

/-- A READ served by L2 or memory that completes has run a cascade on the VC and the L2 sets it found (R137). -/
theorem cascade_of_fill_ok (h : searchL1 cfg addr a = .ok x) (hserved : servedBy a addr = .l2 ∨ servedBy a addr = .mem) :
    ∃ y z, cascade cfg (a.l1At (addrIndex addr)) (addrIndex addr) y = .ok z ∧ y.arch.vc = a.vc ∧ y.arch.l2At = a.l2At := by
  obtain ⟨h1, h2⟩ := vcMiss_of_servedBy hserved
  obtain ⟨_, hvc⟩ := searchVC_of_searchL1_ok h h1
  obtain ⟨_, hl2⟩ := searchL2_of_searchVC_ok hvc h2
  obtain ⟨y, z, hz⟩ := cascade_of_searchL2_ok hl2
  exact ⟨y, z, hz⟩

theorem not_fitsWidth {w : Option Nat} {b n : Nat} (hw : w = some b) (hn : 2 ^ b ≤ n) : fitsWidth w n = false := by
  subst hw
  exact decide_eq_false (Nat.not_lt.mpr hn)

/-- A READ whose counters have room, and that completes only if `n` fits `RECENCY_W`, is refused if `n` does not. -/
theorem exec_read_recencyOverflow {b n : Nat} (hb : s.cfg.recencyW = some b)
    (hcount : ∀ n ∈ s.arch.stat.countedBy (servedBy s.arch addr), fitsWidth s.cfg.statW (n + 1) = true) (hn : 2 ^ b ≤ n)
    (hok : ∀ x, searchL1 s.cfg addr s.arch = .ok x → fitsWidth s.cfg.recencyW n = true) :
    exec (.read addr) s = .refused .recencyOverflow := by
  rcases searchL1_cases s.cfg addr s.arch with ⟨x, hx, -⟩ | ⟨r, hr, ⟨-, rfl, -⟩ | ⟨-, rfl, -⟩⟩
  · exact absurd ((not_fitsWidth hb hn).symm.trans (hok x hx)) Bool.false_ne_true
  · obtain ⟨m, hm, hfull⟩ := (searchL1_statOverflow hr).exists_countedBy
    exact absurd (hfull.symm.trans (hcount m hm)) Bool.false_ne_true
  · exact (execRead_eq_outcomeOf addr s).trans (by rw [hr]; rfl)

theorem exec_read_statOverflow (h : L1ProbeFull s.cfg addr s.arch) : exec (.read addr) s = .refused .statOverflow :=
  (execRead_eq_outcomeOf addr s).trans (by rw [searchL1_of_full h]; rfl)

end

/-- Settles O24: every counter counted is looked at before a line moves, and a READ that completes has made its placements, none of
which aged a line past the width. -/
theorem overflowIsRefused : Obligations.OverflowIsRefused := by
  refine ⟨fun addr s b n hb hn hfull => exec_read_statOverflow (.of_countedBy hn (not_fitsWidth hb hfull)), ?_⟩
  intro addr s b hb hcount old stays
  refine ⟨?vcHit, ?vcPlacement, ?l2Placement⟩
  case vcHit =>
    intro j k hserved hj hk hfull
    refine exec_read_recencyOverflow hb hcount hfull fun x hx => ?_
    obtain ⟨_, hvc⟩ := searchVC_of_searchL1_ok hx (l1Miss_of_servedBy (by rw [hserved]; nofun))
    obtain ⟨v, hv⟩ := place_of_searchVC_ok hvc hj
    exact fits_of_place_ok hv hk
  case vcPlacement =>
    intro k hserved hmove hk hfull
    refine exec_read_recencyOverflow hb hcount hfull fun x hx => ?_
    obtain ⟨y, z, hz, hyvc, -⟩ := cascade_of_fill_ok hx hserved
    obtain ⟨⟨v, hv⟩, -⟩ := places_of_cascade_ok hz hmove
    rw [hyvc] at hv
    exact fits_of_place_ok hv hk
  case l2Placement =>
    intro j w hserved hmove hvcFull hold set hw hfull
    refine exec_read_recencyOverflow hb hcount hfull fun x hx => ?_
    obtain ⟨y, z, hz, hyvc, hyl2⟩ := cascade_of_fill_ok hx hserved
    obtain ⟨-, hplaced⟩ := places_of_cascade_ok hz hmove
    rw [hyvc, hyl2] at hplaced
    obtain ⟨v, hv⟩ := hplaced j hvcFull hold
    have hvalid : (fromVc s.arch.vc[j].toLine).valid = true := hvcFull j
    exact fits_of_place_ok hv (hvalid ▸ hw)

end Sys2Proof.Machine

/-! SUPPORT. Nothing bounds the recency of a VC line (R118): two blocks of one index that swap places between L1 and one VC slot age
another VC line once each time. -/

namespace Sys2Proof.Machine

section

variable {a b : Addr} {n : Nat} {s t : State}

theorem State.Headroom.of_default (h : s.cfg = .default) : s.Headroom where
  widths := by rw [h]; rfl
  stat _ _ := by rw [h]; rfl
  vc _ _ := by rw [h]; rfl
  l2 _ _ _ := by rw [h]; rfl

theorem execAll_singleton (i : Instr) (s : State) : execAll [i] s = exec i s := by
  rw [execAll]
  cases exec i s <;> rfl

/-- A run that goes on, then one operation more (R58). -/
theorem execAll_concat {is : List Instr} (i : Instr) (h : execAll is s = .next t) : execAll (is ++ [i]) s = exec i t := by
  induction is generalizing s with
  | nil =>
    obtain rfl := Host.Outcome.next.inj h
    exact execAll_singleton i s
  | cons k is ih =>
    rw [execAll] at h
    rw [List.cons_append, execAll]
    cases hk : exec k s <;> rw [hk] at h
    case next u => exact ih h
    all_goals cases h

/-- The blocks of `a` and `b`, of one index, stand in L1 and in VC slot 1; slot 0 holds a valid line of another block, at least
`n` old. -/
structure PingPong (a b : Addr) (n : Nat) (s : State) : Prop where
  cfg   : s.cfg = .default
  index : addrIndex a = addrIndex b
  tag   : addrTag a ≠ addrTag b
  l1    : (s.arch.l1At (addrIndex a)).valid = true ∧ (s.arch.l1At (addrIndex a)).tag = addrTag a
  slot1 : s.arch.vc[(1 : Fin 4)].valid = true ∧ s.arch.vc[(1 : Fin 4)].tag = vcKey (addrTag b) (addrIndex b)
  slot0 : s.arch.vc[(0 : Fin 4)].valid = true ∧ n ≤ s.arch.vc[(0 : Fin 4)].recency
  other : s.arch.vc[(0 : Fin 4)].tag ≠ vcKey (addrTag a) (addrIndex a) ∧
    s.arch.vc[(0 : Fin 4)].tag ≠ vcKey (addrTag b) (addrIndex b)

theorem PingPong.l1Miss (h : PingPong a b n s) : l1Match s.arch (addrIndex b) (addrTag b) = false :=
  l1Match_eq_false.mpr fun hmatch => h.tag (h.l1.2.symm.trans (by rw [h.index, hmatch.2]))

theorem PingPong.vcHit (h : PingPong a b n s) : vcFirst s.arch (addrTag b) (addrIndex b) = some 1 := by
  refine firstMatch_eq_some.mpr ⟨h.slot1, fun j hj hmatch => ?_⟩
  obtain rfl : j = 0 := by omega
  exact h.other.2 hmatch.2

/-- A READ of the block in slot 1 swaps it with the line of L1 and ages slot 0. -/
theorem PingPong.exec_read (h : PingPong a b n s) : ∃ t, exec (.read b) s = .next t ∧ PingPong b a (n + 1) t := by
  obtain ⟨x, hexec, hx⟩ := (State.Headroom.of_default h.cfg).exec_read b
  refine ⟨_, hexec, ?_⟩
  cases hx with
  | l1Hit h1 => exact absurd (h.l1Miss.symm.trans h1) Bool.false_ne_true
  | fill _ _ _ _ h2 => cases h.vcHit.symm.trans h2
  | vcHit j _ h2 =>
    obtain rfl : 1 = j := Option.some.inj (h.vcHit.symm.trans h2)
    have haged (line : Line 10) : (placedIn s.arch.vc 1 line)[(0 : Fin 4)] =
        { s.arch.vc[(0 : Fin 4)] with recency := s.arch.vc[(0 : Fin 4)].recency + 1 } := by
      rw [placedIn_other _ line (by decide : (0 : Fin 4) ≠ 1), AgedLine.older_of_valid h.slot0.1]
    refine ⟨h.cfg, h.index.symm, h.tag.symm, ?l1, ?slot1, ?slot0, ?other⟩ <;>
      simp only [State.complete_arch, Arch.setVc_vc, Arch.setVc_l1At]
    case l1 =>
      rw [Arch.setL1At_l1At_same, h.slot1.2, vcTagTag_vcKey]
      exact ⟨rfl, rfl⟩
    case slot1 =>
      rw [placedIn_same, ← h.index]
      exact ⟨(toVc_valid_of_ne_forceValid (by rw [h.cfg]; decide) _ _).trans h.l1.1, by rw [toVc, h.l1.2]⟩
    case slot0 =>
      rw [haged]
      exact ⟨h.slot0.1, Nat.succ_le_succ h.slot0.2⟩
    case other =>
      rw [haged]
      exact h.other.symm

/-- Three READs of one index set the exchange up; each READ more turns it once. -/
theorem exists_run_pingPong (n : Nat) : ∃ is t a b, execAll is State.reset = .next t ∧ PingPong a b n t := by
  induction n with
  | zero =>
    refine ⟨[.read 0, .read 64, .read 128], _, 128, 64, rfl, {
      cfg := rfl
      index := by decide
      tag := by decide
      l1 := by decide
      slot1 := by decide
      slot0 := ⟨by decide, Nat.zero_le _⟩
      other := by decide }⟩
  | succ n ih =>
    obtain ⟨is, t, a, b, hrun, hpp⟩ := ih
    obtain ⟨u, hexec, hu⟩ := hpp.exec_read
    exact ⟨is ++ [.read b], u, b, a, (execAll_concat _ hrun).trans hexec, hu⟩

end

/-- Settles O42: the blocks of 64 and 128 change places `n` times, while that of 0 stays in VC. -/
theorem vcRecencyHasNoBound : Obligations.VcRecencyHasNoBound := by
  intro n
  obtain ⟨is, t, a, b, hrun, h⟩ := exists_run_pingPong n
  exact ⟨is, t, 0, hrun, h.slot0⟩

end Sys2Proof.Machine

/-! SUPPORT. The READ operation by the level that serves it (R130 to R146): an L1 hit only counts, any other READ brings its block into
`L1[index]`, and so a second one is an L1 hit. -/

namespace Sys2Proof.Machine

section

variable {cfg : Config} {addr : Addr} {a : Arch} {s : State}

/-! ## An L1 hit (R131, R132) -/

theorem countOne_of_fits {n : Nat} (h : fitsWidth cfg.statW (n + 1) = true) : countOne cfg n = .ok (n + 1) := if_pos h

theorem probeL1_of_hit {st : Stats} (h : fitsWidth cfg.statW (st.accL1 + 1) = true) :
    st.probeL1 cfg true = .ok (st.afterRead .l1) :=
  bind_eq_ok.mpr ⟨_, countOne_of_fits h, rfl⟩

theorem searchL1_of_hit (h1 : l1Match a (addrIndex addr) (addrTag addr) = true)
    (hfits : fitsWidth cfg.statW (a.stat.accL1 + 1) = true) : searchL1 cfg addr a = .ok
      { arch := a.setStat (a.stat.afterRead .l1), word := (a.l1At (addrIndex addr)).data, record := .blank } := by
  refine bind_eq_ok.mpr ⟨a.stat.afterRead .l1, ?_, ?_⟩
  · rw [h1]
    exact probeL1_of_hit hfits
  · rw [if_pos h1]
    rfl

/-- A READ that hits in L1 completes if `accL1` has room; no other counter and no recency needs any. -/
theorem exec_read_of_l1Hit (h1 : l1Match s.arch (addrIndex addr) (addrTag addr) = true)
    (hfits : fitsWidth s.cfg.statW (s.arch.stat.accL1 + 1) = true) :
    exec (.read addr) s = .next (s.complete (s.arch.setStat (s.arch.stat.afterRead .l1))
      (some (s.arch.l1At (addrIndex addr)).data) .blank) :=
  (execRead_eq_outcomeOf addr s).trans (by rw [searchL1_of_hit h1 hfits]; rfl)

/-! ## Where the word of a fill comes from (R136, R138) -/

theorem FillSource.of_l2Hit {lv : Level} {d : Word} (h : FillSource cfg a addr lv d) {w : Fin 8}
    (hw : l2First a (addrIndex addr) (addrTag addr) = some w) : lv = .l2 ∧ d = (a.l2At (addrIndex addr))[w].data := by
  rcases h with ⟨v, hlv, hv, hd⟩ | ⟨-, hnone, -⟩
  · obtain rfl : v = w := Option.some.inj (hv.symm.trans hw)
    exact ⟨hlv, hd⟩
  · cases hnone.symm.trans hw

theorem FillSource.of_l2Miss {lv : Level} {d : Word} (h : FillSource cfg a addr lv d)
    (hnone : l2First a (addrIndex addr) (addrTag addr) = none) : lv = .mem ∧ d = a.memRead cfg.dataW addr := by
  rcases h with ⟨v, -, hv, -⟩ | ⟨hlv, -, hd⟩
  · cases hnone.symm.trans hv
  · exact ⟨hlv, hd⟩

theorem CascadeCase.l1_eq {v : L1Line} {i : Index} {x y : Traced} (h : CascadeCase cfg v i x y) : y.arch.l1 = x.arch.l1 := by
  cases h <;> rfl

theorem CascadeCase.stat_eq {v : L1Line} {i : Index} {x y : Traced} (h : CascadeCase cfg v i x y) :
    y.arch.stat = x.arch.stat := by
  cases h <;> rfl

/-- With room a READ that misses L1 and VC completes with the word of its source, which it has brought into L1. -/
theorem State.Headroom.exec_read_fillSource (h : s.Headroom) (h1 : l1Match s.arch (addrIndex addr) (addrTag addr) = false)
    (h2 : vcFirst s.arch (addrTag addr) (addrIndex addr) = none) :
    ∃ b lv d r, exec (.read addr) s = .next (s.complete b (some d) r) ∧ FillSource s.cfg s.arch addr lv d ∧
      b.l1 = s.arch.l1.set (addrIndex addr).toFin { tag := addrTag addr, data := d, valid := true } ∧
      b.stat = s.arch.stat.afterRead lv ∧ b.mem = s.arch.mem := by
  obtain ⟨x, hexec, hx⟩ := h.exec_read addr
  cases hx with
  | l1Hit hhit => cases h1.symm.trans hhit
  | vcHit j _ hhit => cases h2.symm.trans hhit
  | fill lv d y _ _ hsrc hy => exact ⟨y.arch, lv, d, y.record, hexec, hsrc, hy.l1_eq, hy.stat_eq, hy.mem_eq⟩

/-! ## The block of a READ in L1 (R139) -/

theorem ReadCase.l1At_same {x : ReadDone} (h : ReadCase cfg addr a x) :
    x.arch.l1At (addrIndex addr) = { tag := addrTag addr, data := x.word, valid := true } := by
  cases h with
  | l1Hit h1 =>
    obtain ⟨hvalid, htag⟩ := l1Match_iff.mp h1
    rw [Arch.setStat_l1At, ← hvalid, ← htag]
  | vcHit j _ h2 =>
    obtain ⟨⟨-, htag⟩, -⟩ := firstMatch_eq_some.mp h2
    rw [Arch.setVc_l1At, Arch.setL1At_l1At_same, htag, vcTagTag_vcKey]
  | fill lv d y _ _ _ hy =>
    rw [hy.l1At_eq]
    exact Arch.setL1At_l1At_same _ _ _

end

/-- Settles O16: the hit's next state is the old one with its response and `accL1` counted. -/
theorem readL1HitOnlyCounts : Obligations.ReadL1HitOnlyCounts := fun _ _ hvalid htag hfits =>
  exec_read_of_l1Hit (l1Match_iff.mpr ⟨hvalid, htag⟩) hfits

/-- Settles O17: slot `j` is the one that hits, its tag is the request's key, and the case of a VC hit says the rest. -/
theorem readVcHitSwapsTheLines : Obligations.ReadVcHitSwapsTheLines := by
  intro addr s j hroom i old hmiss hj hfirst
  have hhit : vcFirst s.arch (addrTag addr) (addrIndex addr) = some j := firstMatch_eq_some.mpr ⟨hj, hfirst⟩
  obtain ⟨x, hexec, hx⟩ := hroom.exec_read addr
  cases hx with
  | l1Hit h1 => exact absurd (l1Match_iff.mp h1) hmiss
  | fill _ _ _ _ h2 => cases h2.symm.trans hhit
  | vcHit k _ h2 =>
    obtain rfl : k = j := Option.some.inj (h2.symm.trans hhit)
    rw [hj.2, vcTagTag_vcKey, toVc_eq] at hexec
    exact ⟨_, hexec⟩

/-- Settles O18: the source of a fill is the lowest matching way, if there is one, and else memory. -/
theorem readMissFillsL1FromL2OrMemory : Obligations.ReadMissFillsL1FromL2OrMemory := by
  intro addr s hroom i tag st hmiss hvc
  obtain ⟨b, lv, d, r, hexec, hsrc, hl1, hstat, hmem⟩ :=
    hroom.exec_read_fillSource (l1Match_eq_false.mpr hmiss) (vcFirst_eq_none.mpr hvc)
  refine ⟨_, (mkResponse s.cfg (some d) r).outcome, hexec, rfl, rfl, rfl, hmem, fun w hw hfirst => ?_, fun hnone => ?_⟩
  · obtain ⟨rfl, rfl⟩ := hsrc.of_l2Hit (firstMatch_eq_some.mpr ⟨hw, hfirst⟩)
    exact ⟨rfl, hl1, hstat⟩
  · obtain ⟨rfl, rfl⟩ := hsrc.of_l2Miss (firstMatch_eq_none.mpr hnone)
    exact ⟨rfl, hl1, hstat⟩

/-- Settles O22: with room a READ does not stop, and every case of it has a word. -/
theorem readCompletesWithRoomBelowTheBounds : Obligations.ReadCompletesWithRoomBelowTheBounds := by
  intro addr s hroom
  obtain ⟨x, hexec, -⟩ := hroom.exec_read addr
  exact ⟨_, _, x.word, hexec, rfl, rfl⟩

/-- Settles O25: in each case of a READ its word and the request's tag stand in `L1[index]`. -/
theorem readLeavesItsWordInL1 : Obligations.ReadLeavesItsWordInL1 := by
  intro addr s t ht
  obtain ⟨x, rfl, hx⟩ := execRead_next ht
  exact ⟨x.word, _, rfl, hx.l1At_same⟩

/-- Settles O26: the first READ has left its word in `L1[index]`, where the second one hits. -/
theorem secondReadHitsL1 : Obligations.SecondReadHitsL1 := by
  intro addr s t ht hfits
  obtain ⟨word, outcome, hresp, hline⟩ := readLeavesItsWordInL1 addr s t ht
  have hhit : l1Match t.arch (addrIndex addr) (addrTag addr) = true := l1Match_iff.mpr (by rw [hline]; exact ⟨rfl, rfl⟩)
  refine ⟨_, exec_read_of_l1Hit hhit hfits, rfl, ?_⟩
  rw [hresp, hline]
  rfl

end Sys2Proof.Machine

/-! SUPPORT. What a WRITE changes and what it leaves unchanged (R160 to R166). -/

namespace Sys2Proof.Machine

/-- Settles O31: what a WRITE leaves in each level, and that memory changes at its address alone. -/
theorem writeChangesOnlyData : Obligations.WriteChangesOnlyData := by
  intro addr d s t ht
  obtain rfl := execWrite_next_written ht
  refine ⟨Arch.written_l1At _ addr d s.arch, Arch.written_vc _ addr d s.arch, Arch.written_l2At _ addr d s.arch,
    Arch.written_stat _ addr d s.arch, fun a ha => ?_, rfl, rfl, rfl⟩
  rw [State.complete_arch, Arch.written_mem, Memory.read_write_other _ d ha]

/-- Settles O30: a WRITE has one outcome, a next state, and O31 says what each line holds there. -/
theorem writeUpdatesEveryCopyAndMemory : Obligations.WriteUpdatesEveryCopyAndMemory := by
  intro addr d s
  have hexec : exec (.write addr d) s =
      .next (s.complete (s.arch.written s.cfg.dataW addr d) none (writeRecord addr s.arch)) := rfl
  obtain ⟨hl1, hvc, hl2, -⟩ := writeChangesOnlyData addr d s _ hexec
  refine ⟨_, hexec, fun h => ?_, fun j h => ?_, fun w h => ?_, Arch.written_memRead_same _ addr d s.arch⟩
  · rw [hl1]
    exact if_pos ⟨rfl, h⟩
  · rw [hvc]
    exact if_pos h
  · rw [hl2]
    exact if_pos ⟨rfl, h⟩

end Sys2Proof.Machine

/-! SUPPORT. The statistics counters over a READ, a WRITE and a step (R145, R171, R172), and the reporter's formulas over them (R177 to
R185). -/

namespace Sys2Proof.Machine

/-! ## What an operation counts (R145, R171) -/

theorem ReadCase.stat_eq_servedBy {cfg : Config} {addr : Addr} {a : Arch} {x : ReadDone} (h : ReadCase cfg addr a x) :
    x.arch.stat = a.stat.afterRead (servedBy a addr) := by
  cases h with
  | l1Hit h1 => rw [servedBy_of_l1Hit h1, Arch.setStat_stat]
  | vcHit j h1 h2 => rw [servedBy_of_vcHit h1 h2, Arch.setVc_stat, Arch.setL1At_stat, Arch.setStat_stat]
  | fill lv d y h1 h2 hsrc hy =>
    rw [hsrc.servedBy_eq h1 h2]
    exact hy.stat_eq

/-- A request word, as the number it is offered as, decodes as the word. -/
theorem decodeNat_toNat {dw : Nat} (w : ReqWord dw) : decodeNat dw w.toNat = decode dw w := by
  rw [decodeNat, if_pos w.isLt, BitVec.ofNat_toNat, BitVec.setWidth_eq]

/-- Settles O35: the case of a READ is the level that serves it, a WRITE keeps the counters, and equal flags do not decode. -/
theorem countersCountTheLevelsSearched : Obligations.CountersCountTheLevelsSearched := by
  refine ⟨fun addr s t ht => ?_, fun addr d s t ht => ?_, fun s a d b rest hidle hinbox => ?_⟩
  · obtain ⟨x, rfl, hx⟩ := execRead_next ht
    exact hx.stat_eq_servedBy
  · obtain rfl := execWrite_next_written ht
    exact Arch.written_stat _ addr d s.arch
  · refine step_word_refused (e := .reservedOp) hidle hinbox ?_
    rw [decodeNat_toNat]
    exact decode_eq_error_iff_packReq.mpr ⟨rfl, b, a, d, rfl⟩

/-! ## Only a reset lowers a counter (R172) -/

/-- No counter of `st'` is lower than that of `st`. -/
def Stats.Le (st st' : Stats) : Prop :=
  st.accL1 ≤ st'.accL1 ∧ st.missL1 ≤ st'.missL1 ∧ st.accVC ≤ st'.accVC ∧ st.missVC ≤ st'.missVC ∧
  st.accL2 ≤ st'.accL2 ∧ st.missL2 ≤ st'.missL2

theorem Stats.Le.refl (st : Stats) : st.Le st := ⟨le_rfl, le_rfl, le_rfl, le_rfl, le_rfl, le_rfl⟩

theorem Stats.le_afterRead (st : Stats) (lv : Level) : st.Le (st.afterRead lv) := by
  cases lv <;> simp [Stats.Le, Stats.afterRead]

section

variable {cfg : Config} {st st' : Stats} {hit : Bool}

theorem le_of_countOne {m n : Nat} (h : countOne cfg n = .ok m) : n ≤ m := by
  rcases countOne_cases cfg n with ⟨-, hok⟩ | ⟨-, -, herr⟩
  · rw [hok] at h
    cases h
    exact Nat.le_succ n
  · rw [herr] at h
    cases h

theorem le_of_countMiss {m n : Nat} (h : countMiss cfg hit n = .ok m) : n ≤ m := by
  cases hit with
  | true => cases h; exact le_rfl
  | false => exact le_of_countOne h

/-- What the three probes have in common: neither of the two counters they write is lower. -/
theorem le_of_countPair {acc miss : Nat} {g : Nat → Nat → Stats}
    (h : (do let x ← countOne cfg acc; let y ← countMiss cfg hit miss; return g x y) = Except.ok (ε := Refusal) st') :
    ∃ x y, acc ≤ x ∧ miss ≤ y ∧ st' = g x y := by
  obtain ⟨x, hx, h⟩ := bind_eq_ok.mp h
  obtain ⟨y, hy, h⟩ := bind_eq_ok.mp h
  exact ⟨x, y, le_of_countOne hx, le_of_countMiss hy, (pure_eq_ok.mp h).symm⟩

theorem Stats.le_of_probeL1 (h : st.probeL1 cfg hit = .ok st') : st.Le st' := by
  obtain ⟨x, y, hx, hy, rfl⟩ := le_of_countPair h
  exact ⟨hx, hy, le_rfl, le_rfl, le_rfl, le_rfl⟩

theorem Stats.le_of_probeVC (h : st.probeVC cfg hit = .ok st') : st.Le st' := by
  obtain ⟨x, y, hx, hy, rfl⟩ := le_of_countPair h
  exact ⟨le_rfl, le_rfl, hx, hy, le_rfl, le_rfl⟩

theorem Stats.le_of_probeL2 (h : st.probeL2 cfg hit = .ok st') : st.Le st' := by
  obtain ⟨x, y, hx, hy, rfl⟩ := le_of_countPair h
  exact ⟨le_rfl, le_rfl, le_rfl, le_rfl, hx, hy⟩

/-! The moves of lines count nothing. -/

theorem vcSwap_stat {i : Index} {j : Fin 4} {a b : Arch} (h : vcSwap cfg i j a = .ok b) : b.stat = a.stat := by
  obtain ⟨v, -, h⟩ := bind_eq_ok.mp h
  obtain rfl := pure_eq_ok.mp h
  rfl

theorem placeInVc_stat {v : L1Line} {i : Index} {a : Arch} {x : VcPlaced} (h : placeInVc cfg v i a = .ok x) :
    x.arch.stat = a.stat := by
  obtain ⟨set, -, h⟩ := bind_eq_ok.mp h
  obtain rfl := pure_eq_ok.mp h
  rfl

theorem placeInL2_stat {v : Line 10} {a : Arch} {x : L2Placed} (h : placeInL2 cfg v a = .ok x) : x.arch.stat = a.stat := by
  obtain ⟨set, -, h⟩ := bind_eq_ok.mp h
  obtain rfl := pure_eq_ok.mp h
  rfl

end

section

variable {p : Pins} {s t : State}

/-- An edge without a reset writes counters only by a probe. -/
theorem EdgeCase.stat_le (h : EdgeCase p s t) (hrst : p.rst = false) : s.arch.stat.Le t.arch.stat := by
  cases h with
  | reset hset => cases hrst.symm.trans hset
  | stall | wait | accept | memRd | fill | memWr | resp => exact .refl _
  | l1Hit st _ _ hst | l1Miss st _ _ hst => exact Stats.le_of_probeL1 hst
  | vcHit j st b _ _ hst hb =>
    rw [State.setFsm_arch, State.setArch_arch, vcSwap_stat hb]
    exact Stats.le_of_probeVC hst
  | vcMiss st _ _ hst => exact Stats.le_of_probeVC hst
  | l2Hit w st _ _ hst => exact Stats.le_of_probeL2 hst
  | l2Miss st _ _ hst => exact Stats.le_of_probeL2 hst
  | vcPl x _ hx =>
    rw [State.setFsm_arch, State.setArch_arch, placeInVc_stat hx]
    exact .refl _
  | l2Pl x _ hx =>
    rw [State.setFsm_arch, State.setArch_arch, placeInL2_stat hx]
    exact .refl _
  | wrUpd =>
    rw [edgeWrUpd, State.setFsm_arch, State.setArch_arch, writeCaches_stat]
    exact .refl _

theorem exec_stat_le {i : Instr} (h : exec i s = .next t) : s.arch.stat.Le t.arch.stat := by
  obtain ⟨hread, hwrite, -⟩ := countersCountTheLevelsSearched
  cases i with
  | read addr =>
    rw [hread addr s t h]
    exact Stats.le_afterRead _ _
  | write addr d =>
    rw [hwrite addr d s t h]
    exact .refl _

theorem eventOf_ne_reset (r : Except DecodeError Instr) (lines : LineInit) : eventOf r ≠ .reset lines := by
  cases r <;> nofun

/-- A step takes a reset only if a reset is the oldest queued input. -/
theorem inbox_of_fetchEvent_reset {lines : LineInit} (h : fetchEvent s = .reset lines) :
    ∃ rest, s.inbox = .reset lines :: rest := by
  rcases hinbox : s.inbox with _ | ⟨w | x | init, rest⟩
  · rw [fetchEvent, hinbox] at h
    cases h
  · rw [fetchEvent_word hinbox] at h
    exact absurd h (eventOf_ne_reset _ lines)
  · rw [fetchEvent_trace hinbox] at h
    exact absurd h (eventOf_ne_reset _ lines)
  · rw [fetchEvent, hinbox] at h
    cases h
    exact ⟨rest, rfl⟩

theorem StepCase.stat_le (h : StepCase s t) (hnoreset : s.isIdle = true → ∀ lines rest, s.inbox ≠ .reset lines :: rest) :
    s.arch.stat.Le t.arch.stat := by
  cases h with
  | wait => exact .refl _
  | access i _ _ _ hexec => exact exec_stat_le (s := s.popInput) hexec
  | reset lines hidle hfetch =>
    obtain ⟨rest, hinbox⟩ := inbox_of_fetchEvent_reset hfetch
    exact absurd hinbox (hnoreset hidle lines rest)
  | edge _ _ hedge => exact hedge.stat_le rfl

end

/-- Settles O36: a counter is written by a probe, which does not lower it, and by a reset. -/
theorem countersNeverDecreaseWithoutReset : Obligations.CountersNeverDecreaseWithoutReset :=
  ⟨fun _ _ _ => rfl, fun _ _ h hnoreset => (step_next h).stat_le hnoreset⟩

/-! ## The metrics reporter (R177 to R185) -/

section

variable {miss acc : Nat} {st : Stats}

theorem missRate_eq_none : missRate miss acc = none ↔ acc = 0 := by
  unfold missRate
  split <;> simp [*]

theorem missRate_of_ne_zero (h : acc ≠ 0) : missRate miss acc = some ((miss : Rat) / acc) := if_neg h

theorem Stats.l1MissRate_eq_none : st.l1MissRate = none ↔ st.accL1 = 0 := missRate_eq_none
theorem Stats.vcMissRate_eq_none : st.vcMissRate = none ↔ st.accVC = 0 := missRate_eq_none
theorem Stats.l2MissRate_eq_none : st.l2MissRate = none ↔ st.accL2 = 0 := missRate_eq_none

/-- What is computed from two values that may be undefined is undefined exactly if one of them is (R185). -/
theorem bind_bind_pure_eq_none {α β γ : Type} {x : Option α} {y : Option β} {f : α → β → γ} :
    (do let r ← x; let p ← y; return f r p) = none ↔ x = none ∨ y = none := by
  cases x <;> cases y <;> simp

theorem Stats.vcMissPenalty_eq_none : st.vcMissPenalty = none ↔ st.accL2 = 0 := by
  rw [← l2MissRate_eq_none, vcMissPenalty]
  cases st.l2MissRate <;> simp

theorem Stats.l1MissPenalty_eq_none : st.l1MissPenalty = none ↔ st.accVC = 0 ∨ st.accL2 = 0 := by
  rw [l1MissPenalty, bind_bind_pure_eq_none, vcMissRate_eq_none, vcMissPenalty_eq_none]

theorem Stats.aat_eq_none : st.aat = none ↔ st.accL1 = 0 ∨ st.accVC = 0 ∨ st.accL2 = 0 := by
  rw [aat, bind_bind_pure_eq_none, l1MissRate_eq_none, l1MissPenalty_eq_none]

theorem Stats.vcMissPenalty_of_ne_zero (h2 : st.accL2 ≠ 0) :
    st.vcMissPenalty = some (8 + (st.missL2 : Rat) / st.accL2 * 100) := by
  rw [vcMissPenalty, l2MissRate, missRate_of_ne_zero h2]
  rfl

theorem Stats.l1MissPenalty_of_ne_zero (hv : st.accVC ≠ 0) (h2 : st.accL2 ≠ 0) : st.l1MissPenalty =
    some (1 + (st.missVC : Rat) / st.accVC * (8 + (st.missL2 : Rat) / st.accL2 * 100)) := by
  rw [l1MissPenalty, vcMissRate, missRate_of_ne_zero hv, vcMissPenalty_of_ne_zero h2]
  rfl

theorem Stats.aat_of_ne_zero (h1 : st.accL1 ≠ 0) (hv : st.accVC ≠ 0) (h2 : st.accL2 ≠ 0) : st.aat =
    some (1 + (st.missL1 : Rat) / st.accL1 *
      (1 + (st.missVC : Rat) / st.accVC * (8 + (st.missL2 : Rat) / st.accL2 * 100))) := by
  rw [aat, l1MissRate, missRate_of_ne_zero h1, l1MissPenalty_of_ne_zero hv h2]
  rfl

end

/-- Settles O37: each formula is put into the next, and a value is undefined if one it is computed from is. -/
theorem averageAccessTimeFormula : Obligations.AverageAccessTimeFormula := fun _ =>
  ⟨Stats.aat_of_ne_zero, Stats.l1MissRate_eq_none, Stats.vcMissRate_eq_none, Stats.l2MissRate_eq_none,
    Stats.vcMissPenalty_eq_none, Stats.l1MissPenalty_eq_none, Stats.aat_eq_none⟩

end Sys2Proof.Machine

/-! SUPPORT. Progress of the FSM (R213): an edge without reset stalls within the bound, waits for the memory, or leaves the state for
one nearer the end of the access; besides, what the ports and single edges show of the FSM state (R192 to R199, R214). -/

namespace Sys2Proof.Machine

/-! ## Progress -/

/-- The longest way from an FSM state back to `S_IDLE`, in states to be left (R210). -/
def FsmState.toLeave : FsmState → Nat
  | .idle => 0 | .resp => 1 | .l2Pl => 2 | .vcPl => 3 | .fill => 4 | .memRd => 5 | .l2 => 6 | .vc => 7 | .l1 => 8
  | .memWr => 2 | .wrUpd => 3

/-- What an edge without reset does to an access in progress: one more stall, a wait for the memory, or the way to a state nearer
the end. -/
inductive Progress (p : Pins) (s : State) : State → Prop where
  | stall (hask : p.stall = true) (hcan : s.fsmState.canStall = true) (hroom : s.fsm.stalled < s.cfg.maxStall) :
      Progress p s (s.setFsm { s.fsm with stalled := s.fsm.stalled + 1 })
  | wait (hmem : s.fsmState = .memRd ∨ s.fsmState = .memWr) (hready : p.memReady = false) : Progress p s s
  | leave (t : State) (hnear : t.fsmState.toLeave < s.fsmState.toLeave) (hfresh : t.fsm.stalled = 0) : Progress p s t

section

variable {p : Pins} {ps : List Pins} {s t : State}

theorem stays_eq_true : s.stays p = true ↔
    p.stall = true ∧ s.fsmState.canStall = true ∧ s.fsm.stalled < s.cfg.maxStall := by
  simp [State.stays, and_assoc]

theorem stays_eq_false (h : s.fsmState.canStall = false) : s.stays p = false := by
  simp [State.stays, h]

theorem Progress.goTo {a : Arch} {g : Fsm} {q : FsmState} (h : q.toLeave < s.fsmState.toLeave) :
    Progress p s ((s.setArch a).setFsm (g.goTo q)) :=
  .leave _ (by rwa [State.setFsm_goTo_fsmState]) rfl

/-- Every edge of an access in progress is of the three kinds. -/
theorem EdgeCase.progress (h : EdgeCase p s t) (hrst : p.rst = false) (hbusy : s.fsmState ≠ .idle) : Progress p s t := by
  cases h with
  | reset h => exact absurd (hrst.symm.trans h) Bool.false_ne_true
  | accept hq => exact absurd hq hbusy
  | stall hstay =>
    obtain ⟨hask, hcan, hroom⟩ := stays_eq_true.mp hstay
    exact .stall hask hcan hroom
  | wait hwait =>
    rcases hwait with ⟨hq, -⟩ | ⟨hmem, hready⟩
    · exact absurd hq hbusy
    · exact .wait hmem hready
  | memRd hq => exact .goTo (a := s.arch) (by rw [hq]; decide)
  | fill q hq hnext =>
    subst hnext
    refine .goTo ?_
    rw [hq]
    split <;> decide
  | vcPl x hq =>
    refine .goTo ?_
    rw [hq]
    split <;> decide
  | resp hq => exact .leave _ (by rw [hq]; exact Nat.zero_lt_one) rfl
  | l1Hit _ hq | l1Miss _ hq | vcHit _ _ _ hq | vcMiss _ hq | l2Hit _ _ hq | l2Miss _ hq | l2Pl _ hq | wrUpd hq | memWr hq =>
    exact .goTo (by rw [hq]; decide)

/-- An edge goes on or is refused, since no fault exists (R230). -/
theorem clock_next_or_refused (p : Pins) (s : State) : (∃ t, clock p s = .next t) ∨ ∃ r, clock p s = .refused r := by
  cases clock p s with
  | next t => exact .inl ⟨t, rfl⟩
  | refused r => exact .inr ⟨r, rfl⟩
  | fault r => cases r

/-! ## A pass ends -/

/-- `ready` answers of the memory, with the stalls already spent in the present state, are enough for the states still to be left,
each of which takes at most `maxStall + 1` edges. -/
structure State.Lasts (s : State) (ready : Nat) : Prop where
  bound  : s.fsm.stalled ≤ s.cfg.maxStall
  enough : s.fsmState.toLeave * (s.cfg.maxStall + 1) ≤ ready + s.fsm.stalled

theorem toLeave_pos {q : FsmState} (h : q ≠ .idle) : 0 < q.toLeave := by
  cases q
  case idle => exact absurd rfl h
  all_goals decide

/-- An access in progress has an answer still to come. -/
theorem State.Lasts.not_zero (hbusy : s.fsmState ≠ .idle) : ¬ s.Lasts 0 := by
  rintro ⟨hbound, henough⟩
  have := Nat.mul_le_mul_right (s.cfg.maxStall + 1) (toLeave_pos hbusy)
  omega

/-- What was enough before an edge is enough after it, less one if the memory answered at it. -/
theorem Progress.lasts {n : Nat} (h : Progress p s t) (hcfg : t.cfg = s.cfg)
    (hs : s.Lasts ((if p.memReady then 1 else 0) + n)) : t.Lasts n := by
  obtain ⟨hbound, henough⟩ := hs
  have hone : (if p.memReady then 1 else 0) ≤ 1 := by split <;> decide
  cases h with
  | stall _ _ hroom =>
    have hstill : s.fsmState.toLeave * (s.cfg.maxStall + 1) ≤ n + (s.fsm.stalled + 1) := by omega
    exact ⟨hroom, hstill⟩
  | wait _ hready =>
    rw [hready] at henough
    exact ⟨hbound, by simpa using henough⟩
  | leave t hnear hfresh =>
    refine ⟨hfresh ▸ Nat.zero_le _, ?_⟩
    have := Nat.mul_le_mul_right (s.cfg.maxStall + 1) hnear
    rw [Nat.succ_mul] at this
    rw [hcfg]
    omega

/-- A pass in progress ends if the memory answers often enough. -/
theorem runToIdle_of_lasts (ps : List Pins) (hps : ∀ q ∈ ps, q.rst = false) (hbusy : s.fsmState ≠ .idle)
    (hs : s.Lasts (ps.countP Pins.memReady)) : ∃ o, runToIdle ps s = some o := by
  induction ps generalizing s with
  | nil => exact absurd hs (State.Lasts.not_zero hbusy)
  | cons p ps ih =>
    obtain ⟨hrst, hps⟩ := List.forall_mem_cons.mp hps
    rcases clock_next_or_refused p s with ⟨t, ht⟩ | ⟨r, hr⟩
    · by_cases hidle : t.isIdle = true
      · exact ⟨.next t, by rw [runToIdle, ht]; exact if_pos hidle⟩
      · rw [Bool.not_eq_true] at hidle
        have hedge := clock_next ht
        rw [List.countP_cons, Nat.add_comm] at hs
        rw [runToIdle_cons ht hidle]
        exact ih hps (isIdle_eq_false.mp hidle) ((hedge.progress hrst hbusy).lasts hedge.cfg_eq hs)
    · exact ⟨.refused r, by rw [runToIdle, hr]⟩

/-! ## The acceptance of a request -/

theorem afterIdle_ne_idle (isRead isWrite : Bool) : afterIdle isRead isWrite ≠ .idle := by
  cases isRead <;> cases isWrite <;> nofun

theorem afterIdle_toLeave_le (isRead isWrite : Bool) : (afterIdle isRead isWrite).toLeave ≤ 8 := by
  cases isRead <;> cases isWrite <;> decide

/-- The state that accepting a request leads to (R199). -/
theorem edgeIdle_fsmState (hreq : p.reqValid = true) : (edgeIdle p s).fsmState = afterIdle p.reqRead p.reqWrite := by
  rw [edgeIdle, if_pos hreq, State.setFsm_goTo_fsmState]

theorem edgeIdle_stalled (hreq : p.reqValid = true) : (edgeIdle p s).fsm.stalled = 0 := by
  rw [edgeIdle, if_pos hreq]
  rfl

theorem edgeIdle_of_no_request (hreq : p.reqValid = false) : edgeIdle p s = s := by
  rw [edgeIdle, hreq]
  rfl

/-- Neither waiting nor accepting a request touches the architectural state. -/
theorem edgeIdle_arch : (edgeIdle p s).arch = s.arch := by
  rw [edgeIdle]
  split <;> rfl

theorem edgeIdle_cfg : (edgeIdle p s).cfg = s.cfg := by
  rw [edgeIdle]
  split <;> rfl

end

/-- Settles O50: at most eight states are to be left, and no state takes more than `maxStall + 1` answers of the memory. -/
theorem fsmPassEndsWhenMemoryAnswers : Obligations.FsmPassEndsWhenMemoryAnswers := by
  intro s p ps hidle hrst hreq hps hready
  have hstate := edgeIdle_fsmState (s := s) hreq
  have hbusy : (edgeIdle p s).fsmState ≠ .idle := hstate ▸ afterIdle_ne_idle _ _
  rw [runToIdle_cons (clock_idle (beq_iff_eq.mp hidle) hrst) (isIdle_eq_false.mpr hbusy)]
  refine runToIdle_of_lasts ps hps hbusy ⟨edgeIdle_stalled hreq ▸ Nat.zero_le _, ?_⟩
  rw [hstate, edgeIdle_cfg, edgeIdle_stalled hreq, List.countP_eq_length_filter]
  exact (Nat.mul_le_mul_right _ (afterIdle_toLeave_le _ _)).trans hready

/-! ## Single edges -/

section

variable {p q : Pins} {s t : State}

theorem clock_reset (hrst : p.rst = true) : clock p s = .next (edgeReset p s) := if_pos hrst

/-- A reset gives the reset state over the memory as it is, or, in `S_MEMWR`, with the pending write performed (R214, R264). -/
theorem edgeReset_eq (p : Pins) (s : State) : ∃ m, edgeReset p s = (s.setArch { s.arch with mem := m }).assertReset p.lines ∧
    (m = s.arch.mem ∨
      (s.fsmState = .memWr ∧ p.wrLands = true ∧ m = s.arch.mem.write s.cfg.dataW s.fsm.rAddr.toNat s.fsm.rWdata)) := by
  by_cases hcut : s.fsmState = .memWr ∧ p.wrLands = true
  · exact ⟨_, congrArg (fun a => (s.setArch a).assertReset p.lines) (if_pos hcut), .inr ⟨hcut.1, hcut.2, rfl⟩⟩
  · exact ⟨_, congrArg (fun a => (s.setArch a).assertReset p.lines) (if_neg hcut), .inl rfl⟩

theorem clock_memRd (hrst : p.rst = false) (hq : s.fsmState = .memRd) : clock p s = .next (edgeMemRd p s) := by
  rw [clock, hrst, stays_eq_false (by rw [hq]; rfl), hq]
  rfl

theorem clock_memWr (hrst : p.rst = false) (hq : s.fsmState = .memWr) : clock p s = .next (edgeMemWr p s) := by
  rw [clock, hrst, stays_eq_false (by rw [hq]; rfl), hq]
  rfl

theorem ne_idle_of_canStall {q : FsmState} (h : q.canStall = true) : q ≠ .idle := by
  rintro rfl
  cases h

/-- A working state at the bound of stalls is left at the next edge (R213). -/
theorem Progress.leaves (h : Progress p s t) (hcan : s.fsmState.canStall = true) (hfull : s.cfg.maxStall ≤ s.fsm.stalled) :
    t.fsmState ≠ s.fsmState ∧ t.fsm.stalled = 0 := by
  cases h with
  | stall _ _ hroom => exact absurd hroom (Nat.not_lt.mpr hfull)
  | wait hmem => exact (hmem.elim (quiet_of_canStall hcan).1 (quiet_of_canStall hcan).2).elim
  | leave t hnear hfresh => exact ⟨fun heq => absurd hnear (heq ▸ Nat.lt_irrefl _), hfresh⟩

/-- A working state is kept by a stall only. -/
theorem Progress.stalls (h : Progress p s t) (hcan : s.fsmState.canStall = true) (hsame : t.fsmState = s.fsmState) :
    p.stall = true ∧ t = s.setFsm { s.fsm with stalled := s.fsm.stalled + 1 } := by
  cases h with
  | stall hask => exact ⟨hask, rfl⟩
  | wait hmem => exact (hmem.elim (quiet_of_canStall hcan).1 (quiet_of_canStall hcan).2).elim
  | leave t hnear => exact absurd hnear (hsame ▸ Nat.lt_irrefl _)

/-- A memory state waits for the memory, and goes on when it answers (R203, R208). -/
theorem clock_memState (hrst : p.rst = false) (hq : s.fsmState = .memRd ∨ s.fsmState = .memWr) :
    (p.memReady = false → clock p s = .next s) ∧
    (p.memReady = true → ∃ t, clock p s = .next t ∧ t.fsmState = if s.fsmState = .memRd then .fill else .resp) := by
  rcases hq with hq | hq
  · rw [clock_memRd hrst hq, edgeMemRd, hq]
    constructor <;> intro hready <;> rw [hready]
    · rfl
    · exact ⟨_, rfl, State.setFsm_goTo_fsmState ..⟩
  · rw [clock_memWr hrst hq, edgeMemWr, hq]
    constructor <;> intro hready <;> rw [hready]
    · rfl
    · exact ⟨_, rfl, State.setFsm_goTo_fsmState ..⟩

end

/-- Settles O51: of the three kinds of edge a working state at the bound can only leave, and below it can stay only by a stall. -/
theorem fsmStatesAreLeft : Obligations.FsmStatesAreLeft := by
  refine ⟨fun s p hcan hrst hfull => ?_, fun s t p hcan hrst _ hclock hsame => ?_,
    fun s p hq hrst => clock_memState hrst hq, fun s p hq hrst => ⟨_, clock_resp hrst hq, rfl⟩⟩
  · refine (clock_next_or_refused p s).imp_left fun ⟨t, ht⟩ => ⟨t, ht, ?_⟩
    exact ((clock_next ht).progress hrst (ne_idle_of_canStall hcan)).leaves hcan hfull
  · exact ((clock_next hclock).progress hrst (ne_idle_of_canStall hcan)).stalls hcan hsame

/-- Settles O14: an empty queue holds no event. -/
theorem waitingStepRetainsAllState : Obligations.WaitingStepRetainsAllState := by
  intro s hidle hempty
  have hquiet : fetchEvent s = .quiet := by rw [fetchEvent, hempty]
  rw [step, if_pos hidle, stepIdle, hquiet]

/-! ## Ports -/

section

variable {rst : Bool} {s : State}

theorem State.isIdle_eq_true : s.isIdle = true ↔ s.fsmState = .idle := beq_iff_eq

theorem outputs_reqReady : (s.outputs rst).reqReady = true ↔ s.fsmState = .idle ∧ rst = false := by
  simp [State.outputs, State.isIdle_eq_true]

theorem outputs_stat {st : Stats} :
    (s.outputs rst).stat = some st ↔ s.fsmState = .idle ∧ rst = false ∧ st = s.arch.stat := by
  simp [State.outputs, State.isIdle_eq_true, and_assoc, eq_comm (a := st)]

theorem outputs_resp {r : Response} : (s.outputs rst).resp = some r ↔ s.fsmState = .resp ∧ r = s.fsmResponse := by
  simp [State.outputs, eq_comm (a := r)]

theorem outputs_mem {m : MemRequest} : (s.outputs rst).mem = some m ↔
    (s.fsmState = .memRd ∧ m = .read s.fsm.rAddr) ∨ (s.fsmState = .memWr ∧ m = .write s.fsm.rAddr s.fsm.rWdata) := by
  cases hq : s.fsmState <;> simp [State.outputs, hq, eq_comm (a := m)]

/-- The response carries a word for a READ, and the record where there is a debug port (R209, R196). -/
theorem fsmResponse_eq : s.fsmResponse =
    { rdata := if s.fsm.rRead = true ∧ s.fsm.rWrite = false then some s.fsm.rData else none
      outcome := if s.cfg.debugPort then some s.fsm.dbg else none } := by
  simp [State.fsmResponse, mkResponse, Fsm.respWord]

end

/-- Settles O52: port by port. -/
theorem portsFollowTheFsmState : Obligations.PortsFollowTheFsmState := fun _ _ =>
  ⟨outputs_reqReady, fun _ => outputs_stat, fun _ => fsmResponse_eq ▸ outputs_resp, fun _ => outputs_mem⟩

/-! ## Requests and resets -/

section

variable {p q : Pins} {s : State}

/-- Outside `S_IDLE` an edge looks at no request port (R212). -/
theorem clock_congr (hbusy : s.fsmState ≠ .idle) (hrst : p.rst = q.rst) (hready : p.memReady = q.memReady)
    (hstall : p.stall = q.stall) (hlands : p.wrLands = q.wrLands) (hlines : p.lines = q.lines) : clock p s = clock q s := by
  have hreset : edgeReset p s = edgeReset q s := by rw [edgeReset, edgeReset, hlands, hlines]
  have hstays : s.stays p = s.stays q := by rw [State.stays, State.stays, hstall]
  have hread : edgeMemRd p s = edgeMemRd q s := by rw [edgeMemRd, edgeMemRd, hready]
  have hwrite : edgeMemWr p s = edgeMemWr q s := by rw [edgeMemWr, edgeMemWr, hready]
  unfold clock
  rw [hrst, hreset, hstays, hread, hwrite]
  cases hq : s.fsmState
  case idle => exact absurd hq hbusy
  all_goals rfl

/-- A reserved pair of flags is answered at once (R199). -/
@[simp] theorem afterIdle_self (b : Bool) : afterIdle b b = .resp := by cases b <;> rfl

/-- A reserved request is answered with no word (R209). -/
theorem edgeIdle_respWord_of_reserved (hreq : p.reqValid = true) (hres : p.reqRead = p.reqWrite) :
    (edgeIdle p s).fsm.respWord = none := by
  rw [edgeIdle, if_pos hreq, hres]
  cases p.reqWrite <;> rfl

/-- The codes 11 to 15 stand for `S_IDLE` (R198). -/
theorem ofCode_of_unused {c : BitVec 4} (h : 11 ≤ c.toNat) : FsmState.ofCode c = .idle := by
  revert c
  decide

end

/-- Settles O53: no edge outside `S_IDLE` reads a request port. -/
theorem fsmAcceptsOneRequestAtATime : Obligations.FsmAcceptsOneRequestAtATime := by
  intro s p q hbusy hrst hready hstall hlands hlines
  refine ⟨clock_congr (isIdle_eq_false.mp hbusy) hrst hready hstall hlands hlines, ?_⟩
  rw [State.outputs, hbusy, Bool.false_and]

/-- Settles O54: the reset state has the memory it is given, in `S_MEMWR` that with the pending write, if the write lands. -/
theorem fsmResetAbandonsTheAccess : Obligations.FsmResetAbandonsTheAccess := by
  intro s p hrst
  obtain ⟨m, hreset, hm⟩ := edgeReset_eq p s
  rw [clock_reset hrst, hreset]
  exact ⟨_, m, rfl, rfl, rfl, rfl, rfl, rfl, hm⟩

/-- Settles O55: acceptance leads to `S_RESP` with the architectural state as it was, and the edge there only gives the response. -/
theorem fsmAnswersReservedRequestsWithoutEffect : Obligations.FsmAnswersReservedRequestsWithoutEffect := by
  intro s p q hidle hrst hreq hres hrst'
  have hresp : (edgeIdle p s).fsmState = .resp := by rw [edgeIdle_fsmState hreq, hres, afterIdle_self]
  exact ⟨edgeIdle p s, edgeResp (edgeIdle p s), (edgeIdle p s).fsmResponse, clock_idle (State.isIdle_eq_true.mp hidle) hrst, hresp,
    edgeIdle_arch, clock_resp hrst' hresp, rfl, edgeIdle_arch, rfl, edgeIdle_respWord_of_reserved hreq hres⟩

/-- Settles O56: the FSM state of an unused code is `S_IDLE`, and edges look at the FSM state only. -/
theorem unusedFsmCodesBehaveAsIdle : Obligations.UnusedFsmCodesBehaveAsIdle := by
  intro s p hcode
  have hidle : s.fsmState = .idle := ofCode_of_unused hcode
  refine ⟨hidle, outputs_reqReady.mpr ⟨hidle, rfl⟩, fun hrst hreq => ?_, fun hrst hreq hread hwrite => ?_⟩
  · rw [clock_idle hidle hrst, edgeIdle_of_no_request hreq]
  · exact ⟨_, clock_idle hidle hrst, by rw [edgeIdle_fsmState hreq, hread, hwrite]; rfl, edgeIdle_arch⟩

end Sys2Proof.Machine
